-- ==== Sys2Proof/Word.lean ====
section
/-!
DEFINITION. The word types of the CORE: u32 register words and u64 rates (R10), and the byte of the
little-endian view (R74).
-/

namespace Sys2Proof

/-- A u32: a register image, a command or argument word (R10, R22, R90). -/
abbrev Word := BitVec 32

/-- A u64 rate in Hz (R7, R10). -/
abbrev Hz := BitVec 64

/-- One byte address' content in the byte view of a bus transaction (R74). -/
abbrev Byte := BitVec 8

end Sys2Proof
end

