-- ==== Sys2Proof/Config.lean ====
section
/-!
DEFINITION. Names of the register window's registers (R12, R22), the parameters the source leaves open (R8), the
BringUpConfig record (R50), the free draws of the environment (R57), and configuration T of 95_test_vectors.md.
-/

namespace Sys2Proof

/-! ### Names of registers -/

/-- The two PLL banks (R12). -/
inductive Bank where
  | M
  | P
  deriving DecidableEq, Repr

/-- The four output slices of a bank (R14, R22). -/
inductive Slice where
  | c0
  | c1
  | c2
  | c3
  deriving DecidableEq, Repr

/-- The 13 downstream gate counters, in the order of R22 and R184. -/
inductive Gate where
  | emaca
  | emacb
  | emacptp
  | gpiodb
  | s2fuser0
  | s2fuser1
  | psiref
  | usb
  | dsu
  | core01
  | core23
  | core2
  | core3
  deriving DecidableEq, Repr

/-- The `storage` registers each bank has (R22, R23). -/
inductive BankReg where
  | pllglob
  | pllm
  | pllc (k : Slice)
  | fdbck
  | vcocalib
  | bypass
  deriving DecidableEq, Repr

/-- The 37 registers of class `storage` (R22, R23). -/
inductive StoreReg where
  | ctrl
  | cntrst
  | gate (g : Gate)
  | bank (b : Bank) (r : BankReg)
  | nocclk
  | nocdiv
  | emacctl
  | gpiodiv
  deriving DecidableEq, Repr

/-- The 47 abstract registers of the window (R22). -/
inductive Reg where
  | store (r : StoreReg)
  | stat
  | intr
  | lostlock (b : Bank)
  | mem (b : Bank)
  | mempoll (b : Bank)
  | memstat (b : Bank)
  deriving DecidableEq, Repr

/-- The register classes (R23). -/
inductive RegClass where
  | storage
  | volatile
  | latch
  | mailbox
  deriving DecidableEq, Repr

/-! ### One value per register -/

/-- One value for each gate counter. -/
structure GateFile (α : Type) where
  emaca : α
  emacb : α
  emacptp : α
  gpiodb : α
  s2fuser0 : α
  s2fuser1 : α
  psiref : α
  usb : α
  dsu : α
  core01 : α
  core23 : α
  core2 : α
  core3 : α
  deriving DecidableEq, Repr

/-- One word for each `storage` register of a bank. -/
structure BankFile where
  pllglob : Word
  pllm : Word
  pllc0 : Word
  pllc1 : Word
  pllc2 : Word
  pllc3 : Word
  fdbck : Word
  vcocalib : Word
  bypass : Word
  deriving DecidableEq, Repr

/-- One word for each `storage` register: their contents in the state, their offsets in the parameters. -/
structure StoreFile where
  ctrl : Word
  cntrst : Word
  gates : GateFile Word
  main : BankFile
  peri : BankFile
  nocclk : Word
  nocdiv : Word
  emacctl : Word
  gpiodiv : Word
  deriving DecidableEq, Repr

/-! ### Parameters (R8) -/

/-- `P_FIELD(r.f) = (lsb, width)` (R9). -/
structure Field where
  lsb : Nat
  width : Nat
  deriving DecidableEq, Repr

/-- The two fields of a gate counter (R28). -/
structure GateFields where
  src : Field
  cnt : Field
  deriving DecidableEq, Repr

/-- The field layout of the window (R24 to R43). A field of a bank register is the same in both banks and, for `PLLC`,
in the four slices; a gate counter has its own. -/
structure Fields where
  ctrlBootmode : Field
  ctrlSwbtclken : Field
  ctrlSwbtclksel : Field
  statBusy : Field
  statLocked : Field
  intrMlostlock : Field
  intrPlostlock : Field
  gates : GateFile GateFields
  pd : Field
  rst : Field
  psrc : Field
  arefclkdiv : Field
  drefclkdiv : Field
  refclkdiv : Field
  llbyp : Field
  mdiv : Field
  pllcCnt : Field
  pllcEn : Field
  hscnt : Field
  mscnt : Field
  lostlockLatch : Field
  nocclkSrc : Field
  nocdivL4mp : Field
  nocdivL4sp : Field
  emacctlSel0 : Field
  emacctlSel1 : Field
  emacctlSel2 : Field
  deriving DecidableEq, Repr

/-- The offsets of a bank's latch and membus registers. -/
structure ChannelOffsets where
  lostlock : Word
  mem : Word
  mempoll : Word
  memstat : Word
  deriving DecidableEq, Repr

/-- `P_OFF(r)` for every register (R22). -/
structure Offsets where
  store : StoreFile
  stat : Word
  intr : Word
  main : ChannelOffsets
  peri : ChannelOffsets
  deriving DecidableEq, Repr

/-- One entry of the CalibrationTable (R51). -/
structure CalEntry where
  addrOffset : Word
  value : Word
  mask : Word
  deriving DecidableEq, Repr

/-- `P_PSRC_CODE` (R99). -/
structure PsrcCodes where
  eosc : Word
  intosc : Word
  fpga : Word
  deriving DecidableEq, Repr

/-- `P_SEL_CODE` (R99). -/
structure SelCodes where
  main : Word
  peri : Word
  eosc : Word
  intosc : Word
  fpga : Word
  deriving DecidableEq, Repr

/-- `P_LATCH_CLR` (R175, D22). -/
inductive LatchClr where
  | w1c
  | clrbits
  deriving DecidableEq, Repr

/-- The uses of `P_SLICE` (R222). -/
inductive Use where
  | noc
  | core01
  | core23
  | emaca
  | emacb
  | emacptp
  deriving DecidableEq, Repr

/-- `(kM, kP)` of one use (R222). -/
structure SlicePair where
  kM : Slice
  kP : Slice
  deriving DecidableEq, Repr

/-- `P_SLICE` (R222). `kM(CORE01)` is fixed at 1 by the rule, so only `kP(CORE01)` is open. -/
structure Slices where
  noc : SlicePair
  core01P : Slice
  core23 : SlicePair
  emaca : SlicePair
  emacb : SlicePair
  emacptp : SlicePair
  deriving DecidableEq, Repr

/-- The parent of a `P_RATE_*` derivation (R239). -/
inductive RateParent where
  | fabric
  | l4mp
  | l4sp
  | gate (g : Gate) (use : Use)
  deriving DecidableEq, Repr

/-- A `P_RATE_*` parameter `(parent, d)` (R239). -/
structure RateDef where
  parent : RateParent
  d : Nat
  deriving DecidableEq, Repr

/-- The parameters of R8: arguments of the model, fixed at construction (R283). -/
structure Params where
  base : Nat
  addrW : Nat
  offs : Offsets
  fields : Fields
  membusBudget : Nat
  mscntConst : Word
  hscntConst : Word
  mbxReq : Word
  mbxWr : Word
  mbxWdatShift : Nat
  mbxStart : Word
  mbxAddrMask : Word
  calW : Nat
  calTable : List CalEntry
  psrc : PsrcCodes
  sel : SelCodes
  bypassAll : Word
  bootclkSel : Word
  allCntRst : Word
  latchClr : LatchClr
  slices : Slices
  sdmmcDiv : Nat
  sysfreeDivBoot : Nat
  sysfreeDivRun : Nat
  rateUsb : RateDef
  rateNand : RateDef
  rateNandx : RateDef
  clkid : List Word
  oscHz : Hz
  intoscHz : Hz
  fpgaHz : Hz
  deriving DecidableEq, Repr

/-! ### BringUpConfig (R50) -/

/-- The values of one bank (R50). -/
structure BankCfg where
  pllglob : Word
  pllm : Word
  fdbck : Word
  pllc0 : Word
  pllc1 : Word
  pllc2 : Word
  pllc3 : Word
  deriving DecidableEq, Repr

/-- BringUpConfig, an immutable input (R50). -/
structure BringUpConfig where
  main : BankCfg
  peri : BankCfg
  nocclk : Word
  nocdiv : Word
  emacctl : Word
  gpiodiv : Word
  gates : GateFile Word
  deriving DecidableEq, Repr

/-! ### Draws (R57) -/

/-- The environment's free draws (R57): nothing is known of the n-th one (log 5). -/
opaque Config.draw : Nat → Word

/-! ### Configuration T (95_test_vectors.md section 0) -/

/-- The offsets of a bank's storage registers, from the bank's base. -/
def Config.tBank (base : Word) : BankFile where
  pllglob := base
  pllm := base + 0x04
  pllc0 := base + 0x08
  pllc1 := base + 0x0C
  pllc2 := base + 0x10
  pllc3 := base + 0x14
  fdbck := base + 0x18
  vcocalib := base + 0x1C
  bypass := base + 0x20

/-- The offsets of a bank's latch and membus registers, from the bank's base. -/
def Config.tChannel (base : Word) : ChannelOffsets where
  lostlock := base + 0x24
  mem := base + 0x28
  mempoll := base + 0x2C
  memstat := base + 0x30

/-- The offset table of configuration T. -/
def Config.tOffsets : Offsets where
  store :=
    { ctrl := 0x000
      cntrst := 0x00C
      gates :=
        { emaca := 0x010, emacb := 0x014, emacptp := 0x018, gpiodb := 0x01C, s2fuser0 := 0x020, s2fuser1 := 0x024,
          psiref := 0x028, usb := 0x02C, dsu := 0x030, core01 := 0x034, core23 := 0x038, core2 := 0x03C, core3 := 0x040 }
      main := Config.tBank 0x100
      peri := Config.tBank 0x200
      nocclk := 0x134
      nocdiv := 0x138
      emacctl := 0x234
      gpiodiv := 0x238 }
  stat := 0x004
  intr := 0x008
  main := Config.tChannel 0x100
  peri := Config.tChannel 0x200

/-- The fields of every gate counter in configuration T. -/
def Config.tGate : GateFields where
  src := ⟨16, 3⟩
  cnt := ⟨0, 11⟩

/-- The field positions of configuration T. -/
def Config.tFields : Fields where
  ctrlBootmode := ⟨0, 1⟩
  ctrlSwbtclken := ⟨8, 1⟩
  ctrlSwbtclksel := ⟨9, 1⟩
  statBusy := ⟨0, 1⟩
  statLocked := ⟨8, 1⟩
  intrMlostlock := ⟨2, 1⟩
  intrPlostlock := ⟨3, 1⟩
  gates :=
    { emaca := Config.tGate, emacb := Config.tGate, emacptp := Config.tGate, gpiodb := Config.tGate,
      s2fuser0 := Config.tGate, s2fuser1 := Config.tGate, psiref := Config.tGate, usb := Config.tGate,
      dsu := Config.tGate, core01 := Config.tGate, core23 := Config.tGate, core2 := Config.tGate,
      core3 := Config.tGate }
  pd := ⟨0, 1⟩
  rst := ⟨1, 1⟩
  psrc := ⟨16, 2⟩
  arefclkdiv := ⟨8, 4⟩
  drefclkdiv := ⟨12, 2⟩
  refclkdiv := ⟨20, 8⟩
  llbyp := ⟨29, 1⟩
  mdiv := ⟨0, 10⟩
  pllcCnt := ⟨0, 11⟩
  pllcEn := ⟨27, 1⟩
  hscnt := ⟨0, 10⟩
  mscnt := ⟨16, 8⟩
  lostlockLatch := ⟨0, 1⟩
  nocclkSrc := ⟨16, 3⟩
  nocdivL4mp := ⟨16, 2⟩
  nocdivL4sp := ⟨18, 2⟩
  emacctlSel0 := ⟨26, 1⟩
  emacctlSel1 := ⟨27, 1⟩
  emacctlSel2 := ⟨28, 1⟩

/-- The calibration table of configuration T (93 H5). -/
def Config.tCalTable : List CalEntry :=
  [⟨0x27, 0x80, 0x80⟩, ⟨0xB3, 0x01, 0x01⟩, ⟨0xE6, 0x01, 0x01⟩, ⟨0x03, 0x4A, 0x7F⟩, ⟨0x07, 0x4A, 0x7F⟩]

/-- Configuration T, the parameter set of the spec's test vectors: not normative, no statement rests on its values
(log 1). T gives no `P_ADDR_W` and no `P_CLKID`; 32 and the local tags stand for them. -/
def Config.paramsT : Params where
  base := 0
  addrW := 32
  offs := Config.tOffsets
  fields := Config.tFields
  membusBudget := 1000
  mscntConst := 100
  hscntConst := 4
  mbxReq := 0x01000000
  mbxWr := 0x02000000
  mbxWdatShift := 16
  mbxStart := 0x4000
  mbxAddrMask := 0x0000FFFF
  calW := 8
  calTable := Config.tCalTable
  psrc := ⟨0, 1, 2⟩
  sel := ⟨0, 1, 2, 3, 4⟩
  bypassAll := 0x00000007
  bootclkSel := 0
  allCntRst := 0x0000FFFF
  latchClr := .w1c
  slices :=
    { noc := ⟨.c3, .c3⟩, core01P := .c1, core23 := ⟨.c1, .c1⟩, emaca := ⟨.c2, .c2⟩, emacb := ⟨.c2, .c2⟩,
      emacptp := ⟨.c2, .c2⟩ }
  sdmmcDiv := 4
  sysfreeDivBoot := 2
  sysfreeDivRun := 4
  rateUsb := ⟨.l4mp, 1⟩
  rateNand := ⟨.l4mp, 4⟩
  rateNandx := ⟨.l4mp, 1⟩
  clkid := [0, 1, 2, 3, 4, 5, 6, 7, 8, 9, 10, 11, 12]
  oscHz := 25000000
  intoscHz := 400000000
  fpgaHz := 50000000

/-- The BringUpConfig of program L3-P3 (95_test_vectors.md), the only record the spec writes out (log 2). -/
def Config.cfgT : BringUpConfig where
  main := ⟨0x20100103, 0x50, 0, 0x3, 0x1, 0x9, 0x4⟩
  peri := ⟨0x20100103, 0x40, 0, 0x0, 0x3, 0x7, 0x0⟩
  nocclk := 0
  nocdiv := 0x00090000
  emacctl := 0x08000000
  gpiodiv := 0x00000001
  gates :=
    { emaca := 0x1, emacb := 0x00020000, emacptp := 0x00030003, gpiodb := 0, s2fuser0 := 0, s2fuser1 := 0,
      psiref := 0, usb := 0, dsu := 0, core01 := 0x3, core23 := 0x1, core2 := 0x4, core3 := 0x0 }

end Sys2Proof
end

