-- ==== Sys2Proof/Syntax.lean ====
section
/-!
DEFINITION. The commands of the CORE (R90 to R93), one constructor per row of spec/opcode_table.json.
-/

namespace Sys2Proof

/-- BRINGUP's `mode`, bit B (R91, R170). -/
inductive Mode where
  | real
  | emulation
  deriving DecidableEq, Repr

/-- BRINGUP's `stage`, bit S (R91, R170). -/
inductive Stage where
  | first
  | later
  deriving DecidableEq, Repr

/-- A command with its operands (R92, R93). Every field has exactly the width its encoding gives it (R91), so every
term is a command some words encode. -/
inductive Instr where
  /-- READ32 (R120). -/
  | read32 (off : Word)
  /-- WRITE32 (R121). -/
  | write32 (off value : Word)
  /-- SETBITS (R122). -/
  | setBits (off mask : Word)
  /-- CLRBITS (R123). -/
  | clrBits (off mask : Word)
  /-- WAITBIT (R124). -/
  | waitBit (wantSet : Bool) (off mask budget : Word)
  /-- MEMBUS_WRITE (R140). -/
  | membusWrite (b : Bank) (addrOffset wdat : Word)
  /-- MEMBUS_READ (R142). -/
  | membusRead (b : Bank) (addrOffset : Word)
  /-- APPLY_CALTABLE (R144). -/
  | applyCaltable (b : Bank)
  /-- VCOCALIB (R160). -/
  | vcocalib (pllm pllglob : Word)
  /-- BRINGUP (R170). -/
  | bringup (mode : Mode) (stage : Stage)
  /-- VCO_HZ (R220). -/
  | vcoHz (b : Bank)
  /-- CLKSRC_HZ (R221). -/
  | clksrcHz (sel mctr pctr : Word)
  /-- GET_RATE (R225). -/
  | getRate (core : BitVec 2) (tag : Word)
  /-- ENABLE (R241). -/
  | enable (tag : Word)
  deriving DecidableEq, Repr

end Sys2Proof
end

