-- ==== Sys2Proof/Machine/Operands.lean ====
section
/-!
DEFINITION. Operand forms: bit fields (R9), register files read and written by name, offsets and the register an
offset names (R22, R75), the operands of CLKSRC_HZ (R221), slices (R222) and clock tags (R97).
-/

namespace Sys2Proof

/-! ### Bit fields (R9) -/

/-- `mask(r.f)`: `(2^w - 1) << lsb` as a u32 (R9). -/
def Field.mask (f : Field) : Word := BitVec.ofNat 32 ((2 ^ f.width - 1) * 2 ^ f.lsb)

/-- `get(v, r.f)` (R9). -/
def Field.get (f : Field) (v : Word) : Word := (v &&& f.mask) >>> f.lsb

/-- `put(v, r.f, x)` (R9). -/
def Field.put (f : Field) (v x : Word) : Word := (v &&& ~~~ f.mask) ||| ((x <<< f.lsb) &&& f.mask)

/-- `2^k` as a u32, `1 << k` (R10): 0 for a `k` of 32 or more. -/
def pow2 (k : Word) : Word := if k.toNat < 32 then 1#32 <<< k.toNat else 0

/-- A field's value as a u64 (R10). -/
def toHz (v : Word) : Hz := v.setWidth 64

/-! ### Register files by name -/

/-- The value of one gate counter. -/
def GateFile.get {α : Type} (f : GateFile α) : Gate → α
  | .emaca => f.emaca
  | .emacb => f.emacb
  | .emacptp => f.emacptp
  | .gpiodb => f.gpiodb
  | .s2fuser0 => f.s2fuser0
  | .s2fuser1 => f.s2fuser1
  | .psiref => f.psiref
  | .usb => f.usb
  | .dsu => f.dsu
  | .core01 => f.core01
  | .core23 => f.core23
  | .core2 => f.core2
  | .core3 => f.core3

/-- Replace the value of one gate counter. -/
def GateFile.set {α : Type} (f : GateFile α) (g : Gate) (v : α) : GateFile α :=
  match g with
  | .emaca => { f with emaca := v }
  | .emacb => { f with emacb := v }
  | .emacptp => { f with emacptp := v }
  | .gpiodb => { f with gpiodb := v }
  | .s2fuser0 => { f with s2fuser0 := v }
  | .s2fuser1 => { f with s2fuser1 := v }
  | .psiref => { f with psiref := v }
  | .usb => { f with usb := v }
  | .dsu => { f with dsu := v }
  | .core01 => { f with core01 := v }
  | .core23 => { f with core23 := v }
  | .core2 => { f with core2 := v }
  | .core3 => { f with core3 := v }

/-- The word of one storage register of a bank. -/
def BankFile.get (f : BankFile) : BankReg → Word
  | .pllglob => f.pllglob
  | .pllm => f.pllm
  | .pllc .c0 => f.pllc0
  | .pllc .c1 => f.pllc1
  | .pllc .c2 => f.pllc2
  | .pllc .c3 => f.pllc3
  | .fdbck => f.fdbck
  | .vcocalib => f.vcocalib
  | .bypass => f.bypass

/-- Replace the word of one storage register of a bank. -/
def BankFile.set (f : BankFile) (r : BankReg) (v : Word) : BankFile :=
  match r with
  | .pllglob => { f with pllglob := v }
  | .pllm => { f with pllm := v }
  | .pllc .c0 => { f with pllc0 := v }
  | .pllc .c1 => { f with pllc1 := v }
  | .pllc .c2 => { f with pllc2 := v }
  | .pllc .c3 => { f with pllc3 := v }
  | .fdbck => { f with fdbck := v }
  | .vcocalib => { f with vcocalib := v }
  | .bypass => { f with bypass := v }

/-- The word of one storage register. -/
def StoreFile.get (f : StoreFile) : StoreReg → Word
  | .ctrl => f.ctrl
  | .cntrst => f.cntrst
  | .gate g => f.gates.get g
  | .bank .M r => f.main.get r
  | .bank .P r => f.peri.get r
  | .nocclk => f.nocclk
  | .nocdiv => f.nocdiv
  | .emacctl => f.emacctl
  | .gpiodiv => f.gpiodiv

/-- Replace the word of one storage register; every other keeps its word (R58). -/
def StoreFile.set (f : StoreFile) (r : StoreReg) (v : Word) : StoreFile :=
  match r with
  | .ctrl => { f with ctrl := v }
  | .cntrst => { f with cntrst := v }
  | .gate g => { f with gates := f.gates.set g v }
  | .bank .M r => { f with main := f.main.set r v }
  | .bank .P r => { f with peri := f.peri.set r v }
  | .nocclk => { f with nocclk := v }
  | .nocdiv => { f with nocdiv := v }
  | .emacctl => { f with emacctl := v }
  | .gpiodiv => { f with gpiodiv := v }

/-- BringUpConfig's slice value (R50). -/
def BankCfg.pllc (c : BankCfg) : Slice → Word
  | .c0 => c.pllc0
  | .c1 => c.pllc1
  | .c2 => c.pllc2
  | .c3 => c.pllc3

/-- BringUpConfig's values of one bank (R50). -/
def BringUpConfig.bank (c : BringUpConfig) : Bank → BankCfg
  | .M => c.main
  | .P => c.peri

/-- The class of a register (R22, R23). -/
def Reg.cls : Reg → RegClass
  | .store _ => .storage
  | .stat => .volatile
  | .intr => .latch
  | .lostlock _ => .latch
  | .mem _ => .mailbox
  | .mempoll _ => .volatile
  | .memstat _ => .volatile

/-! ### Offsets (R22, R75) -/

/-- The offsets of a bank's latch and membus registers. -/
def Offsets.channel (o : Offsets) : Bank → ChannelOffsets
  | .M => o.main
  | .P => o.peri

/-- `P_OFF(r)` (R22). -/
def Params.offset (p : Params) : Reg → Word
  | .store r => p.offs.store.get r
  | .stat => p.offs.stat
  | .intr => p.offs.intr
  | .lostlock b => (p.offs.channel b).lostlock
  | .mem b => (p.offs.channel b).mem
  | .mempoll b => (p.offs.channel b).mempoll
  | .memstat b => (p.offs.channel b).memstat

/-- `P_OFF(b.MEMPOLL) = P_OFF(b.MEM)`: the status mirror is the mailbox register itself (R22). -/
def Params.sharedPoll (p : Params) (b : Bank) : Bool :=
  (p.offs.channel b).mempoll == (p.offs.channel b).mem

/-- The 13 gate counters in the order of R184. -/
def allGates : List Gate :=
  [.emaca, .emacb, .emacptp, .gpiodb, .s2fuser0, .s2fuser1, .psiref, .usb, .dsu, .core01, .core23, .core2, .core3]

/-- The four slices in order. -/
def allSlices : List Slice := [.c0, .c1, .c2, .c3]

/-- The registers of one bank (R22). -/
def bankRegs (b : Bank) : List Reg :=
  [.store (.bank b .pllglob), .store (.bank b .pllm)] ++ allSlices.map (fun k => .store (.bank b (.pllc k)))
    ++ [.store (.bank b .fdbck), .store (.bank b .vcocalib), .store (.bank b .bypass), .lostlock b, .mem b, .mempoll b,
      .memstat b]

/-- The 47 registers of R22. A bank's mailbox stands before its status mirror, so an offset the two share names the
mailbox. -/
def allRegs : List Reg :=
  [.store .ctrl, .stat, .intr, .store .cntrst] ++ allGates.map (fun g => .store (.gate g)) ++ bankRegs .M ++ bankRegs .P
    ++ [.store .nocclk, .store .nocdiv, .store .emacctl, .store .gpiodiv]

/-- An offset is a multiple of 4 (R75). -/
def aligned (off : Word) : Bool := off.toNat % 4 == 0

/-- The register a valid offset names, none for an invalid one (R75): a multiple of 4 that is `P_OFF(r)` for some `r`. -/
def Params.regAt (p : Params) (off : Word) : Option Reg :=
  if aligned off then allRegs.find? (fun r => p.offset r == off) else none

/-- `P_BASE + off` on a bus of `P_ADDR_W` bits (R70, R72). -/
def Params.busAddr (p : Params) (off : Word) : Nat := (p.base + off.toNat) % 2 ^ p.addrW

/-! ### CLKSRC_HZ operands (R221) and slices (R222) -/

/-- A register with a `SRC` field: a gate counter or `M.NOCCLK` (R28, R40). -/
inductive SelReg where
  | gate (g : Gate)
  | nocclk
  deriving DecidableEq, Repr

/-- A register with a `CNT` field: a gate counter or a slice of a bank (R28, R32). -/
inductive CntReg where
  | gate (g : Gate)
  | slice (b : Bank) (k : Slice)
  deriving DecidableEq, Repr

/-- The window register of a selector operand. -/
def SelReg.reg : SelReg → StoreReg
  | .gate g => .gate g
  | .nocclk => .nocclk

/-- The `SRC` field of a selector operand (R28, R40). -/
def SelReg.field (p : Params) : SelReg → Field
  | .gate g => (p.fields.gates.get g).src
  | .nocclk => p.fields.nocclkSrc

/-- The window register of a counter operand. -/
def CntReg.reg : CntReg → StoreReg
  | .gate g => .gate g
  | .slice b k => .bank b (.pllc k)

/-- The `CNT` field of a counter operand (R28, R32). -/
def CntReg.field (p : Params) : CntReg → Field
  | .gate g => (p.fields.gates.get g).cnt
  | .slice _ _ => p.fields.pllcCnt

/-- The selector a register stands for, none without a `SRC` field (R221). -/
def Reg.asSel : Reg → Option SelReg
  | .store (.gate g) => some (.gate g)
  | .store .nocclk => some .nocclk
  | _ => none

/-- The counter a register stands for, none without a `CNT` field (R221). -/
def Reg.asCnt : Reg → Option CntReg
  | .store (.gate g) => some (.gate g)
  | .store (.bank b (.pllc k)) => some (.slice b k)
  | _ => none

/-- The selector operand of CLKSRC_HZ (R221). -/
def Params.selAt (p : Params) (off : Word) : Option SelReg := (p.regAt off).bind Reg.asSel

/-- A counter operand of CLKSRC_HZ (R221). -/
def Params.cntAt (p : Params) (off : Word) : Option CntReg := (p.regAt off).bind Reg.asCnt

/-- `P_SLICE(use)` (R222); `kM(CORE01) = 1`. -/
def Slices.of (s : Slices) : Use → SlicePair
  | .noc => s.noc
  | .core01 => ⟨.c1, s.core01P⟩
  | .core23 => s.core23
  | .emaca => s.emaca
  | .emacb => s.emacb
  | .emacptp => s.emacptp

/-- The main-bank counter of a use: `M.PLLC[kM(use)]` (R222). -/
def Params.mainCnt (p : Params) (u : Use) : CntReg := .slice .M (p.slices.of u).kM

/-- The peripheral-bank counter of a use: `P.PLLC[kP(use)]` (R222). -/
def Params.periCnt (p : Params) (u : Use) : CntReg := .slice .P (p.slices.of u).kP

/-! ### Source-select codes (R99) -/

/-- The five cases of the 5-way selector (R99, R221). -/
inductive ClockSource where
  | main
  | peri
  | eosc
  | intosc
  | fpga
  deriving DecidableEq, Repr

/-- The source a selector code names, none for an unrecognised code (R99, R221). -/
def Params.source (p : Params) (code : Word) : Option ClockSource :=
  if code = p.sel.main then some .main
  else if code = p.sel.peri then some .peri
  else if code = p.sel.eosc then some .eosc
  else if code = p.sel.intosc then some .intosc
  else if code = p.sel.fpga then some .fpga
  else none

/-- The oscillator rate a VCO source code names, none for an unrecognised code (R99, R220). -/
def Params.vcoSource (p : Params) (code : Word) : Option Hz :=
  if code = p.psrc.eosc then some p.oscHz
  else if code = p.psrc.intosc then some p.intoscHz
  else if code = p.psrc.fpga then some p.fpgaHz
  else none

/-! ### Clock identities (R97) -/

/-- The three data MACs (R237). -/
inductive Emac where
  | e0
  | e1
  | e2
  deriving DecidableEq, Repr

/-- The 13 supported clock identities (R97). -/
inductive Clock where
  | mpu
  | l4main
  | l4mp
  | l4sp
  | l4sysfree
  | sdmmc
  | emac (i : Emac)
  | emacptp
  | usb
  | nand
  | nandx
  deriving DecidableEq, Repr

/-- The identities in tag order (R97). -/
def allClocks : List Clock :=
  [.mpu, .l4main, .l4mp, .l4sp, .l4sysfree, .sdmmc, .emac .e0, .emac .e1, .emac .e2, .emacptp, .usb, .nand, .nandx]

/-- The identity of a tag, none above 12 (R97, R225). -/
def clockOfTag (tag : Word) : Option Clock := allClocks[tag.toNat]?

/-- The CORE's tag for a platform number, through `P_CLKID` (R97, D35): the position of the number in the catalog.
DESIGN CHOICE (log 27): the first position where two entries are equal, and a list of any length. No step reads it. -/
def Params.tagOfPlatform (p : Params) (n : Word) : Option Nat := p.clkid.findIdx? (· == n)

/-- The select bit of a data MAC (R42). -/
def Emac.selField (f : Fields) : Emac → Field
  | .e0 => f.emacctlSel0
  | .e1 => f.emacctlSel1
  | .e2 => f.emacctlSel2

/-! ### Mailbox words (R95, R96) -/

/-- The data field's value mask, `2^P_CAL_W - 1` (R53). -/
def Params.calMask (p : Params) : Word := BitVec.ofNat 32 (2 ^ p.calW - 1)

/-- The address term `(addr_offset | START) & ADDR_MASK` (R95). -/
def Params.calAddr (p : Params) (addrOffset : Word) : Word := (addrOffset ||| p.mbxStart) &&& p.mbxAddrMask

/-- `mbx_w(addr_offset, wdat)` (R95). -/
def Params.mbxW (p : Params) (addrOffset wdat : Word) : Word :=
  p.mbxReq ||| p.mbxWr ||| (wdat <<< p.mbxWdatShift) ||| p.calAddr addrOffset

/-- `mbx_r(addr_offset)` (R96). -/
def Params.mbxR (p : Params) (addrOffset : Word) : Word := p.mbxReq ||| p.calAddr addrOffset

end Sys2Proof
end

