-- ==== Sys2Proof/WellFormed.lean ====
section
/-!
DEFINITION. Well-formedness of a parameter set. `Params.accepted` is what the spec refuses a configuration for (R98,
R99, R161, R232, R233, R239, I14; checked at construction). `Params.laidOut` is what the spec takes of a register
layout without refusing the opposite (D3, R22, R24 to R29, R75). A command needs no check of its own: each operand of
`Instr` has exactly the width of its encoding (R91).
-/

namespace Sys2Proof

/-! ### What a configuration is refused for -/

/-- Exactly one bit is set. -/
def singleBit (w : Word) : Bool := (List.range 32).any fun i => w == 1#32 <<< i

/-- The data field of the mailbox word, as a mask (R98). -/
def Params.dataField (p : Params) : Word := p.calMask <<< p.mbxWdatShift

/-- REQ and WR are single distinct bits (R98). -/
def Params.mbxBitsOk (p : Params) : Bool := singleBit p.mbxReq && singleBit p.mbxWr && p.mbxReq != p.mbxWr

/-- Neither bit is inside the address mask or the data field (R98). -/
def Params.mbxBitsClear (p : Params) : Bool :=
  ((p.mbxReq ||| p.mbxWr) &&& (p.mbxAddrMask ||| p.dataField)) == 0

/-- The data field lies in the word and off the address mask (R98). -/
def Params.mbxDataOk (p : Params) : Bool :=
  decide (p.mbxWdatShift + p.calW ≤ 32) && (p.dataField &&& p.mbxAddrMask) == 0

/-- `P_FIELD(VCOCALIB.HSCNT).lsb = 0` (R161). -/
def Params.hscntOk (p : Params) : Bool := p.fields.hscnt.lsb == 0

/-- `P_MEMBUS_BUDGET < 20000` (R8, I14). -/
def Params.budgetOk (p : Params) : Bool := decide (p.membusBudget < 20000)

/-- The constant divisors are at least 1 (R232, R239, I14). -/
def Params.divisorsOk (p : Params) : Bool :=
  decide (1 ≤ p.sdmmcDiv) && decide (1 ≤ p.rateUsb.d) && decide (1 ≤ p.rateNand.d) && decide (1 ≤ p.rateNandx.d)

/-- `{P_SYSFREE_DIV_BOOT, P_SYSFREE_DIV_RUN} = {2, 4}` (R233, I14). -/
def Params.sysfreeOk (p : Params) : Bool :=
  (p.sysfreeDivBoot == 2 && p.sysfreeDivRun == 4) || (p.sysfreeDivBoot == 4 && p.sysfreeDivRun == 2)

/-- The source codes are pairwise distinct (R99, I14). -/
def Params.codesOk (p : Params) : Bool :=
  decide [p.sel.main, p.sel.peri, p.sel.eosc, p.sel.intosc, p.sel.fpga].Nodup
    && decide [p.psrc.eosc, p.psrc.intosc, p.psrc.fpga].Nodup

/-- The parameter set is not refused (R98, R283, I14). -/
def Params.accepted (p : Params) : Bool :=
  p.mbxBitsOk && p.mbxBitsClear && p.mbxDataOk && p.hscntOk && p.budgetOk && p.divisorsOk && p.sysfreeOk && p.codesOk

/-! ### What a register layout is taken to be -/

/-- Every `P_OFF(r)` is a multiple of 4 (R75). -/
def Params.offsetsAligned (p : Params) : Bool := allRegs.all fun r => aligned (p.offset r)

/-- Two registers that may have one offset: a bank's mailbox and its status mirror (R22). -/
def mayShare : Reg → Reg → Bool
  | .mem b, .mempoll b' => b == b'
  | .mempoll b, .mem b' => b == b'
  | r, r' => r == r'

/-- No other two registers have one offset (R22, R70). -/
def Params.offsetsDistinct (p : Params) : Bool :=
  allRegs.all fun r => allRegs.all fun r' => p.offset r != p.offset r' || mayShare r r'

/-- A field lies in its 32-bit register (R9). -/
def Field.fits (f : Field) : Bool := decide (f.lsb + f.width ≤ 32)

/-- Two fields have no bit in common (D3). -/
def Field.apart (f g : Field) : Bool := decide (f.lsb + f.width ≤ g.lsb) || decide (g.lsb + g.width ≤ f.lsb)

/-- The fields of one register fit and do not overlap (D3). -/
def fieldsOk (fs : List Field) : Bool := fs.all Field.fits && decide (fs.Pairwise (fun f g => f.apart g = true))

/-- The field layout of every register (D3, R24 to R42). -/
def Params.fieldsLaidOut (p : Params) : Bool :=
  let f := p.fields
  fieldsOk [f.ctrlBootmode, f.ctrlSwbtclken, f.ctrlSwbtclksel]
    && fieldsOk [f.statBusy, f.statLocked] && fieldsOk [f.intrMlostlock, f.intrPlostlock]
    && allGates.all (fun g => fieldsOk [(f.gates.get g).src, (f.gates.get g).cnt])
    && fieldsOk [f.pd, f.rst, f.psrc, f.arefclkdiv, f.drefclkdiv, f.refclkdiv, f.llbyp]
    && fieldsOk [f.mdiv] && fieldsOk [f.pllcCnt, f.pllcEn] && fieldsOk [f.hscnt, f.mscnt]
    && fieldsOk [f.lostlockLatch] && fieldsOk [f.nocclkSrc] && fieldsOk [f.nocdivL4mp, f.nocdivL4sp]
    && fieldsOk [f.emacctlSel0, f.emacctlSel1, f.emacctlSel2]

/-- The fields the spec gives 1 bit (R24 to R26, R29, R32, R36, R42), 2 bits or more (R29), 3 bits or more (R28). -/
def Params.widthsOk (p : Params) : Bool :=
  let f := p.fields
  [f.ctrlBootmode, f.ctrlSwbtclken, f.statBusy, f.statLocked, f.intrMlostlock, f.intrPlostlock, f.pd, f.rst, f.llbyp,
      f.pllcEn, f.lostlockLatch, f.emacctlSel0, f.emacctlSel1, f.emacctlSel2].all (fun g => g.width == 1)
    && decide (2 ≤ f.psrc.width) && allGates.all (fun g => decide (3 ≤ (f.gates.get g).src.width))
    && decide (3 ≤ f.nocclkSrc.width)

/-- The layout is as the spec takes it to be. -/
def Params.laidOut (p : Params) : Bool := p.offsetsAligned && p.offsetsDistinct && p.fieldsLaidOut && p.widthsOk

end Sys2Proof
end

