-- ==== Sys2Proof/Decode.lean ====
section
/-!
DEFINITION. The command decoder and encoder (R90 to R94). Commands are sequences of 32-bit words; the spec gives them
no byte order (R90), so the decoder reads words.
-/

namespace Sys2Proof

/-- The opcodes (R93). -/
inductive Opcode where
  | read32
  | write32
  | setBits
  | clrBits
  | waitBit
  | membusWrite
  | membusRead
  | applyCaltable
  | vcocalib
  | bringup
  | vcoHz
  | clksrcHz
  | getRate
  | enable
  deriving DecidableEq, Repr

/-- Why a word sequence is no command (R94). The first three make the command word illegal; the last says that the
words end before the command does. -/
inductive DecodeError where
  /-- `OP` is not in the opcode map. -/
  | reservedOpcode (w : Word)
  /-- `RSV` is not 0. -/
  | reservedBits (w : Word)
  /-- A field the opcode does not use is not 0. -/
  | unusedField (w : Word)
  /-- Words are missing. -/
  | incomplete
  deriving DecidableEq, Repr

/-- The opcode a byte stands for (R93); every other value is reserved (R94). -/
def opcodeOf (op : Byte) : Option Opcode :=
  match op.toNat with
  | 0x01 => some .read32
  | 0x02 => some .write32
  | 0x03 => some .setBits
  | 0x04 => some .clrBits
  | 0x05 => some .waitBit
  | 0x10 => some .membusWrite
  | 0x11 => some .membusRead
  | 0x12 => some .applyCaltable
  | 0x20 => some .vcocalib
  | 0x30 => some .bringup
  | 0x40 => some .vcoHz
  | 0x41 => some .clksrcHz
  | 0x42 => some .getRate
  | 0x43 => some .enable
  | _ => none

/-- The argument words of an opcode (R92, R93). -/
def Opcode.nargs : Opcode → Nat
  | .read32 => 1
  | .write32 => 2
  | .setBits => 2
  | .clrBits => 2
  | .waitBit => 3
  | .membusWrite => 2
  | .membusRead => 1
  | .applyCaltable => 0
  | .vcocalib => 2
  | .bringup => 0
  | .vcoHz => 0
  | .clksrcHz => 3
  | .getRate => 1
  | .enable => 1

/-- The bits of fields B, S and CORE an opcode uses (R91). -/
def Opcode.usedBits : Opcode → Word
  | .waitBit => 0x100
  | .membusWrite => 0x100
  | .membusRead => 0x100
  | .applyCaltable => 0x100
  | .bringup => 0x300
  | .vcoHz => 0x100
  | .getRate => 0xC00
  | .read32 => 0
  | .write32 => 0
  | .setBits => 0
  | .clrBits => 0
  | .vcocalib => 0
  | .clksrcHz => 0
  | .enable => 0

/-- Field `OP` (R91). -/
def cmdOp (w : Word) : Byte := w.extractLsb' 0 8

/-- Field `B` (R91). -/
def cmdB (w : Word) : Bool := w.getLsbD 8

/-- Field `S` (R91). -/
def cmdS (w : Word) : Bool := w.getLsbD 9

/-- Field `CORE` (R91). -/
def cmdCore (w : Word) : BitVec 2 := w.extractLsb' 10 2

/-- Field `RSV` (R91). -/
def cmdRsv (w : Word) : BitVec 20 := w.extractLsb' 12 20

/-- The bank of field `B` (R91). -/
def bankOf (b : Bool) : Bank := if b then .P else .M

/-- The mode of field `B` (R91). -/
def modeOf (b : Bool) : Mode := if b then .emulation else .real

/-- The stage of field `S` (R91). -/
def stageOf (b : Bool) : Stage := if b then .later else .first

/-- The opcode of a legal command word, or what makes the word illegal (R94). -/
def checkWord (w : Word) : Except DecodeError Opcode :=
  match opcodeOf (cmdOp w) with
  | none => .error (.reservedOpcode w)
  | some op =>
    if cmdRsv w ≠ 0 then .error (.reservedBits w)
    else if (w &&& 0xF00) &&& ~~~ op.usedBits ≠ 0 then .error (.unusedField w)
    else .ok op

/-- A command with one argument word (format C1), and the words after it. -/
def args1 (k : Word → Instr) : List Word → Except DecodeError (Instr × List Word)
  | a0 :: rest => .ok (k a0, rest)
  | _ => .error .incomplete

/-- A command with two argument words (format C2), and the words after it. -/
def args2 (k : Word → Word → Instr) : List Word → Except DecodeError (Instr × List Word)
  | a0 :: a1 :: rest => .ok (k a0 a1, rest)
  | _ => .error .incomplete

/-- A command with three argument words (format C3), and the words after it. -/
def args3 (k : Word → Word → Word → Instr) : List Word → Except DecodeError (Instr × List Word)
  | a0 :: a1 :: a2 :: rest => .ok (k a0 a1 a2, rest)
  | _ => .error .incomplete

/-- The operands of a legal command word `w` (R92, R93). -/
def decodeArgs (op : Opcode) (w : Word) (rest : List Word) : Except DecodeError (Instr × List Word) :=
  match op with
  | .read32 => args1 .read32 rest
  | .write32 => args2 .write32 rest
  | .setBits => args2 .setBits rest
  | .clrBits => args2 .clrBits rest
  | .waitBit => args3 (.waitBit (cmdB w)) rest
  | .membusWrite => args2 (.membusWrite (bankOf (cmdB w))) rest
  | .membusRead => args1 (.membusRead (bankOf (cmdB w))) rest
  | .applyCaltable => .ok (.applyCaltable (bankOf (cmdB w)), rest)
  | .vcocalib => args2 .vcocalib rest
  | .bringup => .ok (.bringup (modeOf (cmdB w)) (stageOf (cmdS w)), rest)
  | .vcoHz => .ok (.vcoHz (bankOf (cmdB w)), rest)
  | .clksrcHz => args3 .clksrcHz rest
  | .getRate => args1 (.getRate (cmdCore w)) rest
  | .enable => args1 .enable rest

/-- The first command of a word sequence and the words after it (R90). The command word is checked before its arguments
are looked for, so an illegal word is refused whatever follows it (R94). -/
def decode : List Word → Except DecodeError (Instr × List Word)
  | [] => .error .incomplete
  | w :: rest =>
    match checkWord w with
    | .error e => .error e
    | .ok op => decodeArgs op w rest

/-! ### Encoding -/

/-- Field `B` in place (R91). -/
def fieldB (b : Bool) : Word := if b then 0x100 else 0

/-- Field `S` in place (R91). -/
def fieldS (b : Bool) : Word := if b then 0x200 else 0

/-- The `B` bit of a bank (R91). -/
def bankBit : Bank → Bool
  | .M => false
  | .P => true

/-- The `B` bit of a mode (R91). -/
def modeBit : Mode → Bool
  | .real => false
  | .emulation => true

/-- The `S` bit of a stage (R91). -/
def stageBit : Stage → Bool
  | .first => false
  | .later => true

/-- The command word of a command (R91, R93). -/
def Instr.cmdWord : Instr → Word
  | .read32 _ => 0x01
  | .write32 _ _ => 0x02
  | .setBits _ _ => 0x03
  | .clrBits _ _ => 0x04
  | .waitBit wantSet _ _ _ => 0x05 ||| fieldB wantSet
  | .membusWrite b _ _ => 0x10 ||| fieldB (bankBit b)
  | .membusRead b _ => 0x11 ||| fieldB (bankBit b)
  | .applyCaltable b => 0x12 ||| fieldB (bankBit b)
  | .vcocalib _ _ => 0x20
  | .bringup mode stage => 0x30 ||| fieldB (modeBit mode) ||| fieldS (stageBit stage)
  | .vcoHz b => 0x40 ||| fieldB (bankBit b)
  | .clksrcHz _ _ _ => 0x41
  | .getRate core _ => 0x42 ||| (core.setWidth 32 <<< 10)
  | .enable _ => 0x43

/-- The argument words of a command (R92). -/
def Instr.argWords : Instr → List Word
  | .read32 off => [off]
  | .write32 off value => [off, value]
  | .setBits off mask => [off, mask]
  | .clrBits off mask => [off, mask]
  | .waitBit _ off mask budget => [off, mask, budget]
  | .membusWrite _ addrOffset wdat => [addrOffset, wdat]
  | .membusRead _ addrOffset => [addrOffset]
  | .applyCaltable _ => []
  | .vcocalib pllm pllglob => [pllm, pllglob]
  | .bringup _ _ => []
  | .vcoHz _ => []
  | .clksrcHz sel mctr pctr => [sel, mctr, pctr]
  | .getRate _ tag => [tag]
  | .enable tag => [tag]

/-- The words of a command (R90). -/
def encode (i : Instr) : List Word := i.cmdWord :: i.argWords

/-! ### The host's view of a table row -/

/-- The four words of a number, the first in its lowest 32 bits. -/
def wordsOfNat (w : Nat) : List Word :=
  [BitVec.ofNat 32 w, BitVec.ofNat 32 (w >>> 32), BitVec.ofNat 32 (w >>> 64), BitVec.ofNat 32 (w >>> 96)]

/-- The words of the command that the low `nbits` bits of `w` begin: as many as its opcode asks for, every bit above
`nbits` 0. A word that is no legal command word stands alone. -/
def tableWords (nbits w : Nat) : List Word :=
  match wordsOfNat (w % 2 ^ nbits) with
  | [] => []
  | c :: rest =>
    match checkWord c with
    | .error _ => [c]
    | .ok op => c :: rest.take op.nargs

/-- The command the decoder reads from the low `nbits` bits of `w`. -/
def decodeTableWord (nbits w : Nat) : Option Instr :=
  match decode (wordsOfNat (w % 2 ^ nbits)) with
  | .ok (i, _) => some i
  | .error _ => none

end Sys2Proof
end

