-- ==== Sys2Proof/Machine/State.lean ====
section
/-!
DEFINITION. The state of the CORE and of the environment behind its register window, the reasons a step stops, and the
state after reset (R20 to R61, R280 to R282).
-/

namespace Sys2Proof.Machine

open Sys2Proof

/-- The sequencer's states (R46). -/
inductive SeqState where
  | idle
  | e1
  | e2
  | e3
  | e4
  | s1
  | s2
  | s3
  | s4
  | s5
  | s6
  | s7
  | s8
  | s9
  | s10
  | s11
  | s12
  | s13
  | s14
  | done
  | skipped
  deriving DecidableEq, Repr

/-- What a diagnostic entry says timed out (R48, R175, R187). -/
inductive Wait where
  | busyWait
  | lockWait
  | applyCaltable (b : Bank)
  deriving DecidableEq, Repr

/-- An entry of `DIAG` (R48). -/
structure DiagEntry where
  seq : SeqState
  u : Nat
  what : Wait
  deriving DecidableEq, Repr

/-- The fault kinds (R263). -/
inductive FaultKind where
  /-- A command word breaks R94. -/
  | illegalCommand
  /-- An offset operand is no valid register offset (R75), or names a register without the needed field (R221). -/
  | invalidOffset
  /-- A division by zero (R160, R220). -/
  | divideByZero
  deriving DecidableEq, Repr

/-- The fault record (R49, R263). -/
structure FaultRecord where
  kind : FaultKind
  word : Word
  seq : SeqState
  u : Nat
  deriving DecidableEq, Repr

/-- The error kinds (R260). -/
inductive ErrorKind where
  | timeout
  | unsupportedClock
  | invalidAddress
  deriving DecidableEq, Repr

/-- A command's result (R11, R93): `Ok(())`, `Ok(u32)`, `Ok(u64)` or `Err(E)`. -/
inductive Result where
  | unit
  | word (v : Word)
  | hz (v : Hz)
  | err (e : ErrorKind)
  deriving DecidableEq, Repr

/-- A membus request `(wr, a, d)` (R53). -/
structure Request where
  wr : Bool
  a : Word
  d : Word
  deriving DecidableEq, Repr

/-- A bus transaction (R72): the address, and the word read or written. -/
inductive Txn where
  | read (addr : Nat) (v : Word)
  | write (addr : Nat) (v : Word)
  deriving DecidableEq, Repr

/-- A calibration memory (R52): the words other than the one an unlisted address reads as, by rising address. -/
abbrev Memory := List (Nat × Word)

/-- The membus side of a bank: its memstat word, calibration memory and pending request (R39, R52, R53). -/
structure Membus where
  memstat : Word
  cal : Memory
  pending : Option Request
  deriving DecidableEq, Repr

/-- Everything the spec gives the machine, and the model's own fields (INVENTORY.md, State). -/
structure State where
  /-- The parameters (R8), an input (R283). -/
  params : Params
  /-- BringUpConfig, an input (R50). -/
  cfg : BringUpConfig
  /-- The 37 storage registers (R22, R23). -/
  regs : StoreFile
  /-- The main bank's membus side. -/
  busM : Membus
  /-- The peripheral bank's membus side. -/
  busP : Membus
  /-- `SEQ` (R46). -/
  seq : SeqState
  /-- The micro-step index `u` (R46). -/
  u : Nat
  /-- `DIAG`, oldest entry first (R48). -/
  diag : List DiagEntry
  /-- `FAULT` (R49). -/
  fault : Option FaultRecord
  /-- The model's own: what the last command returned; none before the first and after a fault (R11, R264, R267). -/
  result : Option Result
  /-- The model's own: the command words the caller has issued and the CORE has not taken (R78, R280). -/
  cmds : List Word
  /-- The model's own: the environment's next draws (R57, log 5). -/
  tape : List Word
  /-- The model's own: how many draws came from `Config.draw` (R57, log 5). -/
  drawn : Nat
  /-- The model's own: the bus transactions performed, newest first (R72, R78). -/
  bus : List Txn
  deriving DecidableEq, Repr

/-- Why the machine stops. -/
inductive Fault where
  /-- Raised by `step` in a state whose `FAULT` holds a record: the CORE is stopped and executes no later command (R264).
  Safe: the spec says the same. -/
  | stopped (r : FaultRecord)
  deriving DecidableEq, Repr

/-- Why a meaning or a configuration is refused. -/
inductive Refusal where
  /-- Raised by `exec` for an instruction without a meaning; no arm of this model does. Safe. -/
  | notModelled (mnemonic : String)
  /-- Raised by `construct` for a parameter set the spec refuses (R98, I14). Safe: the spec says the same. -/
  | configuration
  deriving DecidableEq, Repr

/-- Every storage register 0: the model's value where the spec gives none (log 3). -/
def StoreFile.zero : StoreFile where
  ctrl := 0
  cntrst := 0
  gates :=
    { emaca := 0, emacb := 0, emacptp := 0, gpiodb := 0, s2fuser0 := 0, s2fuser1 := 0, psiref := 0, usb := 0, dsu := 0,
      core01 := 0, core23 := 0, core2 := 0, core3 := 0 }
  main := ⟨0, 0, 0, 0, 0, 0, 0, 0, 0⟩
  peri := ⟨0, 0, 0, 0, 0, 0, 0, 0, 0⟩
  nocclk := 0
  nocdiv := 0
  emacctl := 0
  gpiodiv := 0

/-- A bank's membus side after reset: `Pending_b` is none (R53, R281); memstat and memory by log 3 and log 4. -/
def Membus.reset : Membus where
  memstat := 0
  cal := []
  pending := none

/-- The CORE after reset with the given inputs (R280 to R282). -/
def State.resetWith (p : Params) (c : BringUpConfig) : State where
  params := p
  cfg := c
  regs := StoreFile.zero
  busM := Membus.reset
  busP := Membus.reset
  seq := .idle
  u := 0
  diag := []
  fault := none
  result := none
  cmds := []
  tape := []
  drawn := 0
  bus := []

/-- The machine right after reset (R280 to R282), with configuration T and the record of L3-P3 as inputs (log 1, log 2). -/
def State.reset : State := State.resetWith Config.paramsT Config.cfgT

/-- What construction answers (R262): a CORE, an error, or a refusal of the configuration. -/
inductive Construction where
  | core (s : State)
  | err (e : ErrorKind)
  | refused (why : Refusal)
  deriving DecidableEq, Repr

end Sys2Proof.Machine
end

