-- ==== Sys2Proof/Machine/Flags.lean ====
section
/-!
DEFINITION. Status bits and the conditions polled on them. The CORE has no flags of its own (R59); these are the bits
it reads (R24, R25, R38) and the condition of a wait (R124, R141).
-/

namespace Sys2Proof.Machine

open Sys2Proof

/-- `(v & mask)` is in the wanted sense: every masked bit set, or every masked bit clear (R124). -/
def senseMet (wantSet : Bool) (mask v : Word) : Bool :=
  if wantSet then (v &&& mask) == mask else (v &&& mask) == 0

/-- `mask(STAT.BUSY)`, polled clear by the busy-wait (R130). -/
def busyMask (p : Params) : Word := p.fields.statBusy.mask

/-- `mask(STAT.LOCKED)`, polled set by the lock wait (R132). -/
def lockedMask (p : Params) : Word := p.fields.statLocked.mask

/-- REQ reads 0 in a word of MEMPOLL (R38, R141). -/
def reqClear (p : Params) (v : Word) : Bool := (v &&& p.mbxReq) == 0

/-- `CTRL.BOOTMODE` of a CTRL word (R24). -/
def bootMode (p : Params) (ctrl : Word) : Word := p.fields.ctrlBootmode.get ctrl

/-- `PDRST = mask(PLLGLOB.PD) | mask(PLLGLOB.RST)` (R170's file). -/
def pdrst (p : Params) : Word := p.fields.pd.mask ||| p.fields.rst.mask

/-- Both lost-lock interrupt-latch bits (R26, R193). -/
def lostLockMask (p : Params) : Word := p.fields.intrMlostlock.mask ||| p.fields.intrPlostlock.mask

/-- The iteration budget of every busy-wait and lock wait (R125). -/
def waitBudget : Nat := 20000

end Sys2Proof.Machine
end

