-- ==== Sys2Proof/Machine/Memory.lean ====
section
/-!
DEFINITION. The calibration memories (R52) in one canonical form: addresses strictly rising, no entry equal to what an
unlisted address reads as (log 4).
-/

namespace Sys2Proof.Machine

open Sys2Proof

/-- What an unlisted address reads as (log 4). -/
def Memory.unlisted : Word := 0

/-- The word at an address. -/
def Memory.read : Memory → Nat → Word
  | [], _ => Memory.unlisted
  | (a, w) :: rest, addr => if addr = a then w else Memory.read rest addr

/-- Store a word at an address, keeping the canonical form. -/
def Memory.write : Memory → Nat → Word → Memory
  | [], addr, v => if v = Memory.unlisted then [] else [(addr, v)]
  | (a, w) :: rest, addr, v =>
    if addr < a then
      if v = Memory.unlisted then (a, w) :: rest else (addr, v) :: (a, w) :: rest
    else if addr = a then
      if v = Memory.unlisted then rest else (addr, v) :: rest
    else (a, w) :: Memory.write rest addr v

/-- Every address of the list is above `lo`, the list rises, and no entry is what an unlisted address reads as. -/
def Memory.wfAbove : Nat → Memory → Bool
  | _, [] => true
  | lo, (a, w) :: rest => decide (lo ≤ a) && w != Memory.unlisted && Memory.wfAbove (a + 1) rest

/-- The canonical form holds. -/
def Memory.wf (m : Memory) : Bool := Memory.wfAbove 0 m

end Sys2Proof.Machine
end

