-- ==== Sys2Proof/Machine/Ops.lean ====
section
/-!
DEFINITION. The named operations over the register window and its environment (R11, R23, R52 to R57, R72), the bounded
poll (R124, R141), taking a fault (R263, R264, R267), how a command ends (R11), and construction (R262, R283).
-/

namespace Sys2Proof.Machine

open Sys2Proof

/-! ### Parts of the state -/

/-- The membus side of a bank. -/
def State.chan (s : State) : Bank → Membus
  | .M => s.busM
  | .P => s.busP

/-- Replace the membus side of a bank. -/
def State.setChan (s : State) (b : Bank) (c : Membus) : State :=
  match b with
  | .M => { s with busM := c }
  | .P => { s with busP := c }

/-- Enter micro-step `u` of sequencer state `q` (R46). -/
def State.at (s : State) (q : SeqState) (u : Nat) : State := { s with seq := q, u := u }

/-- `Diag(SEQ, u, what)` (R48). -/
def State.note (s : State) (what : Wait) : State := { s with diag := s.diag ++ [⟨s.seq, s.u, what⟩] }

/-! ### Draws (R57) and bus transactions (R72) -/

/-- Take the environment's next draw (R57): from the tape while it lasts, then free (log 5). -/
def State.draw (s : State) : Word × State :=
  match s.tape with
  | v :: rest => (v, { s with tape := rest })
  | [] => (Config.draw s.drawn, { s with drawn := s.drawn + 1 })

/-- The bus address of a register (R72). -/
def State.addrOf (s : State) (r : Reg) : Nat := s.params.busAddr (s.params.offset r)

/-- Record a read transaction (R72). -/
def State.logRead (s : State) (r : Reg) (v : Word) : State := { s with bus := .read (s.addrOf r) v :: s.bus }

/-- Record a write transaction (R72). -/
def State.logWrite (s : State) (r : Reg) (v : Word) : State := { s with bus := .write (s.addrOf r) v :: s.bus }

/-- The four byte addresses and bytes of a transaction, little-endian (R74). DESIGN CHOICE (log 18): the word's address is
taken modulo `2^P_ADDR_W` (log 11), and its bytes stand at that address and the three after it, with no wrap of theirs. No
step reads this view. -/
def Txn.bytes : Txn → List (Nat × Byte)
  | .read addr v => (List.range 4).map fun k => (addr + k, v.extractLsb' (8 * k) 8)
  | .write addr v => (List.range 4).map fun k => (addr + k, v.extractLsb' (8 * k) 8)

/-! ### The membus responder (R52 to R54) -/

/-- Perform a bank's request and leave none pending (R54). -/
def State.perform (s : State) (b : Bank) (q : Request) : State :=
  if q.wr then s.setChan b { s.chan b with cal := (s.chan b).cal.write q.a.toNat q.d, pending := none }
  else s.setChan b { s.chan b with memstat := (s.chan b).cal.read q.a.toNat, pending := none }

/-- The request a mailbox word makes (R53). -/
def requestOf (p : Params) (w : Word) : Request where
  wr := (w &&& p.mbxWr) != 0
  a := w &&& p.mbxAddrMask
  d := (w >>> p.mbxWdatShift) &&& p.calMask

/-- A request still pending when a new one arrives is performed or dropped, as a draw (R53, log 7). -/
def State.settle (s : State) (b : Bank) : State :=
  match (s.chan b).pending with
  | none => s
  | some q =>
    match s.draw with
    | (w, s') => if w.getLsbD 0 then s'.perform b q else s'

/-- A mailbox write: with REQ set it starts a request, with REQ clear it starts none (R53). -/
def State.mailbox (s : State) (b : Bank) (w : Word) : State :=
  if reqClear s.params w then s
  else
    let s' := s.settle b
    s'.setChan b { s'.chan b with pending := some (requestOf s.params w) }

/-- A read of MEMPOLL (R54). One draw gives the word: with nothing pending its REQ bit is read as 0; with a request
pending, a drawn REQ of 0 is the environment's `done`, and the request is performed (log 6). -/
def State.answerPoll (s : State) (b : Bank) : Word × State :=
  match s.draw with
  | (w, s') =>
    match (s'.chan b).pending with
    | none => (w &&& ~~~ s'.params.mbxReq, s')
    | some q => if reqClear s'.params w then (w, s'.perform b q) else (w, s')

/-! ### Register access (R11, R23, R72) -/

/-- What a read of a register answers, by its class (R23, R54). -/
def State.valueOf (s : State) : Reg → Word × State
  | .store r => (s.regs.get r, s)
  | .stat => s.draw
  | .intr => s.draw
  | .lostlock _ => s.draw
  | .mem b => if s.params.sharedPoll b then s.answerPoll b else s.draw
  | .mempoll b => s.answerPoll b
  | .memstat b => ((s.chan b).memstat, s)

/-- `RegRead(r)`: one 32-bit read transaction (R11, R72). -/
def State.readReg (s : State) (r : Reg) : Word × State :=
  match s.valueOf r with
  | (v, s') => (v, s'.logRead r v)

/-- What a write of a register does, by its class (R23, R53). A write of a latch goes to the environment and is seen in
the bus log alone; a write of a volatile register has no effect. -/
def State.effectOf (s : State) (r : Reg) (v : Word) : State :=
  match r with
  | .store r => { s with regs := s.regs.set r v }
  | .stat => s
  | .intr => s
  | .lostlock _ => s
  | .mem b => s.mailbox b v
  | .mempoll _ => s
  | .memstat _ => s

/-- `RegWrite(r, v)`: one 32-bit write transaction (R11, R72). -/
def State.writeReg (s : State) (r : Reg) (v : Word) : State := (s.logWrite r v).effectOf r v

/-- Set the bits of a mask: a read and then a write (R122). -/
def State.setMask (s : State) (r : Reg) (m : Word) : State :=
  match s.readReg r with
  | (v, s') => s'.writeReg r (v ||| m)

/-- Clear the bits of a mask: a read and then a write (R123). -/
def State.clearMask (s : State) (r : Reg) (m : Word) : State :=
  match s.readReg r with
  | (v, s') => s'.writeReg r (v &&& ~~~ m)

/-- Poll a register at most `budget` times, one read an iteration, until a read meets `ok`; false is Timeout (R124,
R141). -/
def State.poll (r : Reg) (ok : Word → Bool) : (budget : Nat) → State → Bool × State
  | 0, s => (false, s)
  | n + 1, s =>
    match s.readReg r with
    | (v, s') => if ok v then (true, s') else State.poll r ok n s'

/-- `Ok(())`, or `Err(Timeout)` (R124). -/
def okOrTimeout (done : Bool) : Result := if done then .unit else .err .timeout

/-! ### Faults and the end of a command (R11, R263, R264, R267) -/

/-- A part of a command ends with a value, or raises a fault; the transactions made stay made (R264). -/
inductive Res (α : Type) where
  | ok (a : α) (s : State)
  | fault (k : FaultKind) (s : State)
  deriving Repr

/-- Go on with a value; a fault goes no further (R264, R268). -/
def Res.bind {α β : Type} (r : Res α) (f : α → State → Res β) : Res β :=
  match r with
  | .ok a s => f a s
  | .fault k s => .fault k s

/-- Taking a fault (R263, R264): `FAULT := (kind, command word, SEQ, u)`, nothing returned, nothing undone. Every later
step stops (`step`). -/
def State.takeFault (s : State) (k : FaultKind) (w : Word) : State :=
  { s with fault := some ⟨k, w, s.seq, s.u⟩, result := none }

/-- Returning a result (R11, R267): no other state changes. -/
def State.returns (s : State) (r : Result) : State := { s with result := some r }

/-- The state a command of command word `w` leaves. -/
def Res.final (w : Word) : Res Result → State
  | .ok r s => s.returns r
  | .fault k s => s.takeFault k w

/-- The outcome of a command: always a next state, a fault being recorded in it (log 8). -/
def finish (i : Instr) (r : Res Result) : Host.Outcome State Fault Refusal := .next (r.final i.cmdWord)

/-- The register a valid offset names, and InvalidOffset before any transaction otherwise (R75, R120). -/
def State.withReg {α : Type} (s : State) (off : Word) (f : Reg → Res α) : Res α :=
  match s.params.regAt off with
  | none => .fault .invalidOffset s
  | some r => f r

/-! ### Construction (R21, R262, R283) -/

/-- Construct the CORE: the base address first (R262, R266), then the parameters (R98, R283). -/
def construct (base : Option Nat) (p : Params) (c : BringUpConfig) : Construction :=
  match base with
  | none => .err .invalidAddress
  | some a => if p.accepted then .core (State.resetWith { p with base := a } c) else .refused .configuration

end Sys2Proof.Machine
end

