-- ==== Sys2Proof/Machine/Membus.lean ====
section
/-!
DEFINITION. Calibration side-channel commands: MEMBUS_WRITE, MEMBUS_READ, APPLY_CALTABLE (R140 to R146).
-/

namespace Sys2Proof.Machine

open Sys2Proof

/-- `MembusPoll(b)`: false is Timeout (R141). -/
def State.membusPoll (s : State) (b : Bank) : Bool × State :=
  State.poll (.mempoll b) (reqClear s.params) s.params.membusBudget s

/-- A membus write; false is Timeout (R140). -/
def State.membusWrite (s : State) (b : Bank) (addrOffset wdat : Word) : Bool × State :=
  (s.writeReg (.mem b) (s.params.mbxW addrOffset wdat)).membusPoll b

/-- A membus read; none is Timeout, and memstat is then not read (R142). -/
def State.membusRead (s : State) (b : Bank) (addrOffset : Word) : Option Word × State :=
  match (s.writeReg (.mem b) (s.params.mbxR addrOffset)).membusPoll b with
  | (false, s') => (none, s')
  | (true, s') =>
    match s'.readReg (.memstat b) with
    | (v, s'') => (some v, s'')

/-- The word APPLY_CALTABLE writes back: `(old & ~mask) | val` (R144). -/
def calUpdate (e : CalEntry) (old : Word) : Word := (old &&& ~~~ e.mask) ||| e.value

/-- Apply a table's entries in order; false is Timeout, the entries after the timed-out one skipped (R144). -/
def State.applyTable (b : Bank) : List CalEntry → State → Bool × State
  | [], s => (true, s)
  | e :: rest, s =>
    match s.membusRead b e.addrOffset with
    | (none, s') => (false, s')
    | (some old, s') =>
      match s'.membusWrite b e.addrOffset (calUpdate e old) with
      | (false, s'') => (false, s'')
      | (true, s'') => State.applyTable b rest s''

/-- Apply `P_CAL_TABLE` to a bank (R51, R144). -/
def State.applyCal (s : State) (b : Bank) : Bool × State := State.applyTable b s.params.calTable s

/-- MEMBUS_WRITE (R140). -/
def execMembusWrite (b : Bank) (addrOffset wdat : Word) (s : State) : Host.Outcome State Fault Refusal :=
  finish (.membusWrite b addrOffset wdat)
    (match s.membusWrite b addrOffset wdat with | (done, s') => .ok (okOrTimeout done) s')

/-- MEMBUS_READ (R142). -/
def execMembusRead (b : Bank) (addrOffset : Word) (s : State) : Host.Outcome State Fault Refusal :=
  finish (.membusRead b addrOffset)
    (match s.membusRead b addrOffset with
      | (none, s') => .ok (.err .timeout) s'
      | (some v, s') => .ok (.word v) s')

/-- APPLY_CALTABLE (R144). -/
def execApplyCaltable (b : Bank) (s : State) : Host.Outcome State Fault Refusal :=
  finish (.applyCaltable b) (match s.applyCal b with | (done, s') => .ok (okOrTimeout done) s')

end Sys2Proof.Machine
end

