-- ==== Sys2Proof/Machine/VcoCalib.lean ====
section
/-!
DEFINITION. The VCO calibration calculator: VCOCALIB (R160 to R163).
-/

namespace Sys2Proof.Machine

open Sys2Proof

/-- `mdiv * 2^drefclkdiv`, the divisor of the mscnt formula (R160). -/
def vcoDen (p : Params) (pllm pllglob : Word) : Word :=
  p.fields.mdiv.get pllm * pow2 (p.fields.drefclkdiv.get pllglob)

/-- `mscnt`, at least 1 (R160). -/
def vcoMscnt (p : Params) (pllm pllglob : Word) : Word :=
  let q := p.mscntConst / vcoDen p pllm pllglob
  if q = 0 then 1 else q

/-- `hscnt`: the product chain left to right, the subtraction wrapping (R160, D14, D18). -/
def vcoHscnt (p : Params) (pllm pllglob : Word) : Word :=
  p.fields.mdiv.get pllm * vcoMscnt p pllm pllglob * pow2 (p.fields.drefclkdiv.get pllglob)
      / p.fields.refclkdiv.get pllglob
    - p.hscntConst

/-- `pack(hscnt, mscnt)` (R161). -/
def vcoPack (p : Params) (hscnt mscnt : Word) : Word :=
  (hscnt &&& p.fields.hscnt.mask) ||| ((mscnt <<< p.fields.mscnt.lsb) &&& p.fields.mscnt.mask)

/-- `compute_vco_calibration(pllm, pllglob)`; none is DivideByZero (R160). -/
def vcoWord (p : Params) (pllm pllglob : Word) : Option Word :=
  if vcoDen p pllm pllglob = 0 ∨ p.fields.refclkdiv.get pllglob = 0 then none
  else some (vcoPack p (vcoHscnt p pllm pllglob) (vcoMscnt p pllm pllglob))

/-- VCOCALIB (R160): no bus transaction. -/
def execVcocalib (pllm pllglob : Word) (s : State) : Host.Outcome State Fault Refusal :=
  finish (.vcocalib pllm pllglob)
    (match vcoWord s.params pllm pllglob with
      | none => .fault .divideByZero s
      | some w => .ok (.word w) s)

end Sys2Proof.Machine
end

