-- ==== Sys2Proof/Machine/Bringup.lean ====
section
/-!
DEFINITION. The PLL bring-up sequencer: BRINGUP (R170 to R199). Every state is an ordered list of operations, as R170's
file writes it; the sequencer runs the lists.
-/

namespace Sys2Proof.Machine

open Sys2Proof

/-- The two read-modify-writes of CTRL (R177, R195). -/
inductive CtrlEdit where
  | enterBoot
  | exitBoot
  deriving DecidableEq, Repr

/-- An operation of a sequencer state (R171 to R195). -/
inductive SeqOp where
  /-- `RegWrite(r, v)`. -/
  | write (r : StoreReg) (v : Word)
  /-- `SETBITS(r, m)`. -/
  | setBits (r : StoreReg) (m : Word)
  /-- `CLRBITS(r, m)`. -/
  | clrBits (r : StoreReg) (m : Word)
  /-- `W(BusyWait())`. -/
  | busyWait
  /-- `W(LockWait())`. -/
  | lockWait
  /-- `ForceBypass(b)` (R175). -/
  | forceBypass (b : Bank)
  /-- `ClearBypass(b)` (R175). -/
  | clearBypass (b : Bank)
  /-- `ClearLatch(b.LOSTLOCK, mask(LOSTLOCK.LATCH))` (R190). -/
  | clearLostLock (b : Bank)
  /-- `ClearLatch(INTR, ...)` (R193). -/
  | clearIntr
  /-- `APPLY_CALTABLE(b)`, a timeout noted (R186, R187). -/
  | calTable (b : Bank)
  /-- The read of CTRL and the write of it edited, micro-steps `u0` and `u1` (R177, R195). -/
  | editCtrl (e : CtrlEdit)
  /-- `raise Fault(DivideByZero)` in place of a bank's staging (R180). -/
  | divideByZero
  deriving DecidableEq, Repr

/-- How many micro-steps an operation takes (R46; log 14). -/
def SeqOp.microSteps : SeqOp → Nat
  | .editCtrl _ => 2
  | .divideByZero => 0
  | _ => 1

/-- CTRL as step 1 writes it (R177). -/
def ctrlEnterBoot (p : Params) (v : Word) : Word :=
  p.fields.ctrlSwbtclksel.put (p.fields.ctrlSwbtclken.put (p.fields.ctrlBootmode.put v 1) 1) p.bootclkSel

/-- CTRL as step 14 writes it (R195). -/
def ctrlExitBoot (p : Params) (v : Word) : Word := p.fields.ctrlBootmode.put v 0

/-- CTRL edited (R177, R195). -/
def CtrlEdit.apply (e : CtrlEdit) (p : Params) (v : Word) : Word :=
  match e with
  | .enterBoot => ctrlEnterBoot p v
  | .exitBoot => ctrlExitBoot p v

/-! ### Running an operation -/

/-- A SETBITS, CLRBITS or WAITBIT of the sequencer: a misconfigured `P_OFF(r)` is an invalid offset (R75, R170; log
15). -/
def State.guarded (s : State) (r : Reg) (f : State → State) : Res Unit :=
  if aligned (s.params.offset r) then .ok () (f s) else .fault .invalidOffset s

/-- `W(op)`: a wait on STAT whose Timeout is noted and does not change the path (R133, R175, R196). -/
def State.waitStat (s : State) (wantSet : Bool) (mask : Word) (what : Wait) : Res Unit :=
  s.guarded .stat fun s =>
    match State.poll .stat (senseMet wantSet mask) waitBudget s with
    | (true, s') => s'
    | (false, s') => s'.note what

/-- `W(BusyWait())` (R130, R175). -/
def State.busyWait (s : State) : Res Unit := s.waitStat false (busyMask s.params) .busyWait

/-- `W(LockWait())` (R132, R175). -/
def State.lockWait (s : State) : Res Unit := s.waitStat true (lockedMask s.params) .lockWait

/-- `ClearLatch(r, m)` (R175). -/
def State.clearLatch (s : State) (r : Reg) (m : Word) : Res Unit :=
  match s.params.latchClr with
  | .w1c => .ok () (s.writeReg r m)
  | .clrbits => s.guarded r fun s => s.clearMask r m

/-- A bypass write and the busy-wait that always follows it (R131, R175). -/
def State.writeBypass (s : State) (b : Bank) (v : Word) : Res Unit :=
  (s.writeReg (.store (.bank b .bypass)) v).busyWait

/-- Run one operation (R171 to R195). -/
def State.runOp (s : State) : SeqOp → Res Unit
  | .write r v => .ok () (s.writeReg (.store r) v)
  | .setBits r m => s.guarded (.store r) fun s => s.setMask (.store r) m
  | .clrBits r m => s.guarded (.store r) fun s => s.clearMask (.store r) m
  | .busyWait => s.busyWait
  | .lockWait => s.lockWait
  | .forceBypass b => s.writeBypass b s.params.bypassAll
  | .clearBypass b => s.writeBypass b 0
  | .clearLostLock b => s.clearLatch (.lostlock b) s.params.fields.lostlockLatch.mask
  | .clearIntr => s.clearLatch .intr (lostLockMask s.params)
  | .calTable b =>
    match s.applyCal b with
    | (true, s') => .ok () s'
    | (false, s') => .ok () (s'.note (.applyCaltable b))
  | .editCtrl e =>
    match s.readReg (.store .ctrl) with
    | (v, s') => .ok () ((s'.at s'.seq (s'.u + 1)).writeReg (.store .ctrl) (e.apply s'.params v))
  | .divideByZero => .fault .divideByZero s

/-- Run a state's operations from micro-step `u` on (R46, R197). -/
def runOps : List SeqOp → (u : Nat) → State → Res Unit
  | [], _, s => .ok () s
  | op :: ops, u, s => ((s.at s.seq u).runOp op).bind fun _ s' => runOps ops (u + op.microSteps) s'

/-! ### The states (R171 to R195) -/

/-- Step 4 for a bank (R180, R181): its VCO calibration first, then the writes in the source's order. -/
def stageBank (p : Params) (c : BringUpConfig) (b : Bank) (extra : List SeqOp) : List SeqOp :=
  match vcoWord p (c.bank b).pllm (c.bank b).pllglob with
  | none => [.divideByZero]
  | some vc =>
    [.write (.bank b .pllglob) ((c.bank b).pllglob &&& ~~~ p.fields.rst.mask),
      .write (.bank b .fdbck) (c.bank b).fdbck,
      .write (.bank b .vcocalib) vc]
    ++ allSlices.map (fun k => .write (.bank b (.pllc k)) ((c.bank b).pllc k))
    ++ [.write (.bank b .pllm) (c.bank b).pllm]
    ++ extra

/-- The operations of a state (R171 to R174, R177 to R195). `S1` is the first-stage form (R177). -/
def program (p : Params) (c : BringUpConfig) : SeqState → List SeqOp
  | .idle => []
  | .e1 => [.setBits (.bank .M .pllglob) (pdrst p), .setBits (.bank .P .pllglob) (pdrst p)]
  | .e2 => [.lockWait]
  | .e3 => [.forceBypass .M, .forceBypass .P]
  | .e4 => [.clearBypass .M, .clearBypass .P]
  | .s1 => [.editCtrl .enterBoot, .busyWait]
  | .s2 => [.forceBypass .M, .forceBypass .P]
  | .s3 => [.clrBits (.bank .M .pllglob) (pdrst p), .clrBits (.bank .P .pllglob) (pdrst p)]
  | .s4 =>
    stageBank p c .M [.write .nocclk c.nocclk, .write .nocdiv c.nocdiv]
      ++ stageBank p c .P [.write .emacctl c.emacctl, .write .gpiodiv c.gpiodiv]
  | .s5 => allGates.map fun g => .write (.gate g) (c.gates.get g)
  | .s6 => [.setBits (.bank .M .pllglob) (pdrst p), .setBits (.bank .P .pllglob) (pdrst p)]
  | .s7 => [.calTable .M, .calTable .P]
  | .s8 =>
    allSlices.map (fun k => .setBits (.bank .M (.pllc k)) p.fields.pllcEn.mask)
      ++ allSlices.map (fun k => .setBits (.bank .P (.pllc k)) p.fields.pllcEn.mask)
  | .s9 => [.lockWait]
  | .s10 =>
    [.clearLostLock .M, .clearLostLock .P, .clrBits (.bank .M .pllglob) p.fields.llbyp.mask,
      .clrBits (.bank .P .pllglob) p.fields.llbyp.mask]
  | .s11 => [.clearBypass .M, .clearBypass .P]
  | .s12 => [.clearIntr]
  | .s13 => [.clrBits .cntrst p.allCntRst]
  | .s14 => [.editCtrl .exitBoot, .busyWait]
  | .done => []
  | .skipped => []

/-- Run states in order, each from its micro-step 0 (R170, R197). -/
def runStates : List SeqState → State → Res Unit
  | [], s => .ok () s
  | q :: qs, s => (runOps (program s.params s.cfg q) 0 (s.at q 0)).bind fun _ s' => runStates qs s'

/-- The states of the emulation path (R170). -/
def emulationPath : List SeqState := [.e1, .e2, .e3, .e4]

/-- The states of the real path after `S1` (R170). -/
def realPath : List SeqState := [.s2, .s3, .s4, .s5, .s6, .s7, .s8, .s9, .s10, .s11, .s12, .s13, .s14]

/-- `pc <- DONE; return Ok(())` (R170). -/
def bringupDone (r : Res Unit) : Res Result := r.bind fun _ s => .ok .unit (s.at .done 0)

/-- The sequence (R170). A later-stage real run skips unless CTRL.BOOTMODE is set (R176). -/
def State.bringup (s : State) (mode : Mode) (stage : Stage) : Res Result :=
  let s := { s with diag := [] }
  match mode, stage with
  | .emulation, _ => bringupDone (runStates emulationPath s)
  | .real, .first => bringupDone (runStates (.s1 :: realPath) s)
  | .real, .later =>
    match (s.at .s1 0).readReg (.store .ctrl) with
    | (v, s') =>
      if bootMode s'.params v = 0 then .ok .unit (s'.at .skipped 0) else bringupDone (runStates realPath s')

/-- BRINGUP (R170). -/
def execBringup (mode : Mode) (stage : Stage) (s : State) : Host.Outcome State Fault Refusal :=
  finish (.bringup mode stage) (s.bringup mode stage)

end Sys2Proof.Machine
end

