-- ==== Sys2Proof/Machine/Rate.lean ====
section
/-!
DEFINITION. The clock-rate derivation engine and the query surface: VCO_HZ, CLKSRC_HZ, GET_RATE, ENABLE (R220 to R242).
-/

namespace Sys2Proof.Machine

open Sys2Proof

/-- Division by a constant divisor (R232, R233, R239), at least 1 in an accepted configuration. -/
def divConst (v : Hz) (d : Nat) : Hz := BitVec.ofNat 64 (v.toNat / d)

/-- `vco_hz(b)` (R220). -/
def State.vcoHz (s : State) (b : Bank) : Res Hz :=
  match s.readReg (.store (.bank b .pllglob)) with
  | (g, s₁) =>
    match s₁.params.vcoSource (s₁.params.fields.psrc.get g) with
    | none => .ok 0 s₁
    | some f =>
      let a := s₁.params.fields.arefclkdiv.get g
      if a = 0 then .fault .divideByZero s₁
      else
        match s₁.readReg (.store (.bank b .pllm)) with
        | (m, s₂) => .ok (f / toHz a * toHz (s₂.params.fields.mdiv.get m)) s₂

/-- Divide by `1 + cnt(c)`, the counter register being read now (R221, R240). -/
def State.divCnt (s : State) (c : CntReg) (v : Hz) : Res Hz :=
  match s.readReg (.store c.reg) with
  | (w, s') => .ok (v / (1 + toHz ((c.field s'.params).get w))) s'

/-- `clksrc_hz(Gsel, Mctr, Pctr)` (R221). -/
def State.clksrcHz (s : State) (sel : SelReg) (mctr pctr : CntReg) : Res Hz :=
  match s.readReg (.store sel.reg) with
  | (w, s') =>
    match s'.params.source ((sel.field s'.params).get w) with
    | some .main => (s'.vcoHz .M).bind fun v s'' => s''.divCnt mctr v
    | some .peri => (s'.vcoHz .P).bind fun v s'' => s''.divCnt pctr v
    | some .eosc => .ok s'.params.oscHz s'
    | some .intosc => .ok s'.params.intoscHz s'
    | some .fpga => .ok s'.params.fpgaHz s'
    | none => .ok 0 s'

/-- `clksrc_hz` of a selector with the slices of a use (R222). -/
def State.clksrcUse (s : State) (sel : SelReg) (u : Use) : Res Hz :=
  s.clksrcHz sel (s.params.mainCnt u) (s.params.periCnt u)

/-- `clksrc_hz` of a gate counter with the slices of a use, over `1 + cnt` of the counter itself (R236 to R239). -/
def State.gateHz (s : State) (g : Gate) (u : Use) : Res Hz :=
  (s.clksrcUse (.gate g) u).bind fun v s' => s'.divCnt (.gate g) v

/-- The fabric clock (R228). -/
def State.fabricHz (s : State) : Res Hz := s.clksrcUse .nocclk .noc

/-- The fabric clock shifted by a field of `M.NOCDIV`, read after it (R230, R231). -/
def State.l4Hz (s : State) (fld : Fields → Field) : Res Hz :=
  s.fabricHz.bind fun v s' =>
    match s'.readReg (.store .nocdiv) with
    | (w, s'') => .ok (v >>> ((fld s''.params.fields).get w).toNat) s''

/-- `L4_MP` (R230). -/
def State.l4mpHz (s : State) : Res Hz := s.l4Hz Fields.nocdivL4mp

/-- `L4_SP` (R231). -/
def State.l4spHz (s : State) : Res Hz := s.l4Hz Fields.nocdivL4sp

/-- `SDMMC` (R232). -/
def State.sdmmcHz (s : State) : Res Hz := s.l4mpHz.bind fun v s' => .ok (divConst v s'.params.sdmmcDiv) s'

/-- `L4_SYS_FREE` (R233): CTRL is read first. -/
def State.sysFreeHz (s : State) : Res Hz :=
  match s.readReg (.store .ctrl) with
  | (w, s₁) =>
    s₁.fabricHz.bind fun f s₂ =>
      if bootMode s₂.params w = 1 then .ok (divConst f s₂.params.sysfreeDivBoot) s₂
      else .ok (divConst f s₂.params.sysfreeDivRun) s₂

/-- `MPU` for the asking core (R236). -/
def State.mpuHz (s : State) (core : BitVec 2) : Res Hz :=
  if core = 0 ∨ core = 1 then s.gateHz .core01 .core01
  else
    (s.gateHz .core23 .core23).bind fun v s' => s'.divCnt (.gate (if core = 2 then .core2 else .core3)) v

/-- `EMAC0`, `EMAC1`, `EMAC2` (R237). -/
def State.emacHz (s : State) (i : Emac) : Res Hz :=
  match s.readReg (.store .emacctl) with
  | (w, s') =>
    if (i.selField s'.params.fields).get w = 0 then s'.gateHz .emaca .emaca else s'.gateHz .emacb .emacb

/-- `EMAC_PTP` (R238). -/
def State.ptpHz (s : State) : Res Hz := s.gateHz .emacptp .emacptp

/-- The rate of a `P_RATE_*` parent (R239). -/
def State.parentHz (s : State) : RateParent → Res Hz
  | .fabric => s.fabricHz
  | .l4mp => s.l4mpHz
  | .l4sp => s.l4spHz
  | .gate g u => s.gateHz g u

/-- `USB`, `NAND`, `NAND_X` through their parameter (R239). -/
def State.rateDefHz (s : State) (r : RateDef) : Res Hz := (s.parentHz r.parent).bind fun v s' => .ok (divConst v r.d) s'

/-- `rate(tag, core)` (R225, R229 to R239). -/
def State.rateHz (s : State) (core : BitVec 2) : Clock → Res Hz
  | .mpu => s.mpuHz core
  | .l4main => s.fabricHz
  | .l4mp => s.l4mpHz
  | .l4sp => s.l4spHz
  | .l4sysfree => s.sysFreeHz
  | .sdmmc => s.sdmmcHz
  | .emac i => s.emacHz i
  | .emacptp => s.ptpHz
  | .usb => s.rateDefHz s.params.rateUsb
  | .nand => s.rateDefHz s.params.rateNand
  | .nandx => s.rateDefHz s.params.rateNandx

/-- `Ok(u64)` (R93). -/
def returnHz (r : Res Hz) : Res Result := r.bind fun v s => .ok (.hz v) s

/-- VCO_HZ (R220). -/
def execVcoHz (b : Bank) (s : State) : Host.Outcome State Fault Refusal := finish (.vcoHz b) (returnHz (s.vcoHz b))

/-- CLKSRC_HZ (R221): the operands are checked before any read. -/
def execClksrcHz (sel mctr pctr : Word) (s : State) : Host.Outcome State Fault Refusal :=
  finish (.clksrcHz sel mctr pctr)
    (match s.params.selAt sel, s.params.cntAt mctr, s.params.cntAt pctr with
      | some g, some m, some p => returnHz (s.clksrcHz g m p)
      | _, _, _ => .fault .invalidOffset s)

/-- GET_RATE (R225): an unsupported tag is answered before any register access. -/
def execGetRate (core : BitVec 2) (tag : Word) (s : State) : Host.Outcome State Fault Refusal :=
  finish (.getRate core tag)
    (match clockOfTag tag with
      | none => .ok (.err .unsupportedClock) s
      | some c => returnHz (s.rateHz core c))

/-- ENABLE (R241): `Ok(())` for every tag, no register access. -/
def execEnable (tag : Word) (s : State) : Host.Outcome State Fault Refusal := finish (.enable tag) (.ok .unit s)

end Sys2Proof.Machine
end

