-- ==== Sys2Proof/Machine/RegAccess.lean ====
section
/-!
DEFINITION. Register access and busy-wait commands: READ32, WRITE32, SETBITS, CLRBITS, WAITBIT (R120 to R125).
-/

namespace Sys2Proof.Machine

open Sys2Proof

/-- READ32 (R120). -/
def execRead32 (off : Word) (s : State) : Host.Outcome State Fault Refusal :=
  finish (.read32 off) (s.withReg off fun r => match s.readReg r with | (v, s') => .ok (.word v) s')

/-- WRITE32 (R121). -/
def execWrite32 (off value : Word) (s : State) : Host.Outcome State Fault Refusal :=
  finish (.write32 off value) (s.withReg off fun r => .ok .unit (s.writeReg r value))

/-- SETBITS (R122). -/
def execSetBits (off mask : Word) (s : State) : Host.Outcome State Fault Refusal :=
  finish (.setBits off mask) (s.withReg off fun r => .ok .unit (s.setMask r mask))

/-- CLRBITS (R123). -/
def execClrBits (off mask : Word) (s : State) : Host.Outcome State Fault Refusal :=
  finish (.clrBits off mask) (s.withReg off fun r => .ok .unit (s.clearMask r mask))

/-- WAITBIT (R124). -/
def execWaitBit (wantSet : Bool) (off mask budget : Word) (s : State) : Host.Outcome State Fault Refusal :=
  finish (.waitBit wantSet off mask budget)
    (s.withReg off fun r =>
      match State.poll r (senseMet wantSet mask) budget.toNat s with
      | (done, s') => .ok (okOrTimeout done) s')

end Sys2Proof.Machine
end

