-- ==== Sys2Proof/Machine/Dispatch.lean ====
section
/-!
DEFINITION. One arm per command, each a direct call of its meaning.
-/

namespace Sys2Proof.Machine

open Sys2Proof

def exec (i : Instr) (s : State) : Host.Outcome State Fault Refusal :=
  match i with
  | .read32 off => Sys2Proof.Machine.execRead32 off s
  | .write32 off value => Sys2Proof.Machine.execWrite32 off value s
  | .setBits off mask => Sys2Proof.Machine.execSetBits off mask s
  | .clrBits off mask => Sys2Proof.Machine.execClrBits off mask s
  | .waitBit wantSet off mask budget => Sys2Proof.Machine.execWaitBit wantSet off mask budget s
  | .membusWrite b addrOffset wdat => Sys2Proof.Machine.execMembusWrite b addrOffset wdat s
  | .membusRead b addrOffset => Sys2Proof.Machine.execMembusRead b addrOffset s
  | .applyCaltable b => Sys2Proof.Machine.execApplyCaltable b s
  | .vcocalib pllm pllglob => Sys2Proof.Machine.execVcocalib pllm pllglob s
  | .bringup mode stage => Sys2Proof.Machine.execBringup mode stage s
  | .vcoHz b => Sys2Proof.Machine.execVcoHz b s
  | .clksrcHz sel mctr pctr => Sys2Proof.Machine.execClksrcHz sel mctr pctr s
  | .getRate core tag => Sys2Proof.Machine.execGetRate core tag s
  | .enable tag => Sys2Proof.Machine.execEnable tag s

end Sys2Proof.Machine
end

