-- ==== Sys2Proof/Machine/Command.lean ====
section
/-!
DEFINITION. Taking the next command from the caller's queue and running it (R78, R90, R94, R264, R280): what `step`
calls.
-/

namespace Sys2Proof.Machine

open Sys2Proof

/-- Run the decoder's answer for the queued words: a whole command is taken off the queue and executed; an illegal
command word takes the fault IllegalCommand, the queue untouched (R94, R263); a command whose words are not all there
yet is waited for, and so is the first command (R280; log 9). -/
def runQueued (s : State) : Host.Outcome State Fault Refusal :=
  match s.cmds with
  | [] => .next s
  | w :: _ =>
    match decode s.cmds with
    | .ok (i, rest) => exec i { s with cmds := rest }
    | .error .incomplete => .next s
    | .error _ => .next (s.takeFault .illegalCommand w)

/-- One step: a CORE that has recorded a fault is stopped for good (R264); otherwise the next command runs. -/
def stepCore (s : State) : Host.Outcome State Fault Refusal :=
  match s.fault with
  | some r => .fault (.stopped r)
  | none => runQueued s

/-- Put a command's words where the next step takes its command (R90). -/
def State.issue (s : State) (words : List Word) : State := { s with cmds := words }

end Sys2Proof.Machine
end

