-- ==== Sys2Proof/Machine/Step.lean ====
section
/-!
DEFINITION. One step of the CORE, and the host's way to put a command before it.
-/

namespace Sys2Proof.Machine

open Sys2Proof

/-- One step: the next command of the caller runs to its end (R78). -/
def step (s : State) : Host.Outcome State Fault Refusal := stepCore s

/-- `s` with the command that the low `nbits` bits of `w` begin, its further words 0, as the next one to run. -/
def State.withFetchWord (s : State) (nbits w : Nat) : State := s.issue (tableWords nbits w)

end Sys2Proof.Machine
end

