-- ==== Sys2Proof/Machine/Asm.lean ====
section
/-!
DEFINITION. The pseudo-commands (R102) and the textual syntax (R101).
-/

namespace Sys2Proof.Machine

open Sys2Proof

/-! ### Pseudo-commands (R102) -/

/-- The pseudo-commands (R102). -/
inductive Pseudo where
  | busyWait
  | lockWait
  | forceBypass (b : Bank)
  | clearBypass (b : Bank)
  | clearLatch (off mask : Word)
  deriving DecidableEq, Repr

/-- `wait_bit STAT, mask(STAT.BUSY), clear, 20000` (R102, R130). -/
def busyWaitCmd (p : Params) : Instr := .waitBit false (p.offset .stat) (busyMask p) (BitVec.ofNat 32 waitBudget)

/-- `wait_bit STAT, mask(STAT.LOCKED), set, 20000` (R102, R132). -/
def lockWaitCmd (p : Params) : Instr := .waitBit true (p.offset .stat) (lockedMask p) (BitVec.ofNat 32 waitBudget)

/-- The commands a pseudo-command stands for (R102). -/
def expandPseudo (p : Params) : Pseudo → List Instr
  | .busyWait => [busyWaitCmd p]
  | .lockWait => [lockWaitCmd p]
  | .forceBypass b => [.write32 (p.offset (.store (.bank b .bypass))) p.bypassAll, busyWaitCmd p]
  | .clearBypass b => [.write32 (p.offset (.store (.bank b .bypass))) 0, busyWaitCmd p]
  | .clearLatch off mask =>
    match p.latchClr with
    | .w1c => [.write32 off mask]
    | .clrbits => [.clrBits off mask]

/-! ### Names (R22, R97) -/

/-- The name of a gate counter register (R22). -/
def gateName : Gate → String
  | .emaca => "EMACACTR"
  | .emacb => "EMACBCTR"
  | .emacptp => "EMACPTPCTR"
  | .gpiodb => "GPIODBCTR"
  | .s2fuser0 => "S2FUSER0CTR"
  | .s2fuser1 => "S2FUSER1CTR"
  | .psiref => "PSIREFCTR"
  | .usb => "USBCTR"
  | .dsu => "DSUCTR"
  | .core01 => "CORE01CTR"
  | .core23 => "CORE23CTR"
  | .core2 => "CORE2CTR"
  | .core3 => "CORE3CTR"

/-- The name of a bank (R12). -/
def bankName : Bank → String
  | .M => "M"
  | .P => "P"

/-- The name of a bank's storage register after its bank (R22). -/
def bankRegName : BankReg → String
  | .pllglob => "PLLGLOB"
  | .pllm => "PLLM"
  | .pllc .c0 => "PLLC0"
  | .pllc .c1 => "PLLC1"
  | .pllc .c2 => "PLLC2"
  | .pllc .c3 => "PLLC3"
  | .fdbck => "FDBCK"
  | .vcocalib => "VCOCALIB"
  | .bypass => "BYPASS"

/-- The name of a register (R22). -/
def regName : Reg → String
  | .store .ctrl => "CTRL"
  | .store .cntrst => "CNTRST"
  | .store (.gate g) => gateName g
  | .store (.bank b r) => bankName b ++ "." ++ bankRegName r
  | .store .nocclk => "M.NOCCLK"
  | .store .nocdiv => "M.NOCDIV"
  | .store .emacctl => "P.EMACCTL"
  | .store .gpiodiv => "P.GPIODIV"
  | .stat => "STAT"
  | .intr => "INTR"
  | .lostlock b => bankName b ++ ".LOSTLOCK"
  | .mem b => bankName b ++ ".MEM"
  | .mempoll b => bankName b ++ ".MEMPOLL"
  | .memstat b => bankName b ++ ".MEMSTAT"

/-- The names of the clock identities in tag order (R97). -/
def clockNames : List String :=
  ["MPU", "L4_MAIN", "L4_MP", "L4_SP", "L4_SYS_FREE", "SDMMC", "EMAC0", "EMAC1", "EMAC2", "EMAC_PTP", "USB", "NAND",
    "NAND_X"]

/-! ### Tokens and operands (R101) -/

/-- The value of a digit, in a base of at most 16. -/
def digitVal (base : Nat) (c : Char) : Option Nat :=
  let n := c.toNat
  let v :=
    if 48 ≤ n ∧ n ≤ 57 then n - 48
    else if 97 ≤ n ∧ n ≤ 102 then n - 87
    else if 65 ≤ n ∧ n ≤ 70 then n - 55
    else 16
  if v < base then some v else none

/-- A run of digits after the value read so far. -/
def digits (base : Nat) : List Char → Nat → Option Nat
  | [], acc => some acc
  | c :: cs, acc =>
    match digitVal base c with
    | none => none
    | some v => digits base cs (acc * base + v)

/-- A number, decimal or `0x` hexadecimal, that fits a u32 (R101). -/
def number (t : List Char) : Option Word :=
  let n :=
    match t with
    | [] => none
    | '0' :: 'x' :: d :: ds => digits 16 (d :: ds) 0
    | cs => digits 10 cs 0
  n.bind fun v => if v < 2 ^ 32 then some (BitVec.ofNat 32 v) else none

/-- The tokens of a line: a comma is one, blanks separate (R101). `cur` is the token being read, newest character
first. -/
def tokens : List Char → (cur : List Char) → List (List Char)
  | [], cur => if cur.isEmpty then [] else [cur.reverse]
  | c :: cs, cur =>
    let done := if cur.isEmpty then [] else [cur.reverse]
    if c == ' ' then done ++ tokens cs []
    else if c == ',' then done ++ [','] :: tokens cs []
    else tokens cs (c :: cur)

/-- An offset operand: a register's name or a number (R101). -/
def offsetOperand (p : Params) (t : List Char) : Option Word :=
  match allRegs.find? (fun r => (regName r).toList == t) with
  | some r => some (p.offset r)
  | none => number t

/-- A bank operand (R101). -/
def bankOperand (t : List Char) : Option Bank :=
  if t == ['M'] then some .M else if t == ['P'] then some .P else none

/-- A clock operand: an identity or a tag (R101). -/
def clockOperand (t : List Char) : Option Word :=
  match clockNames.findIdx? (fun n => n.toList == t) with
  | some k => some (BitVec.ofNat 32 k)
  | none => number t

/-- A `set|clear` operand (R101). -/
def senseOperand (t : List Char) : Option Bool :=
  if t == "set".toList then some true else if t == "clear".toList then some false else none

/-- A `real|emu` operand (R101). -/
def modeOperand (t : List Char) : Option Mode :=
  if t == "real".toList then some .real else if t == "emu".toList then some .emulation else none

/-- A `first|later` operand (R101). -/
def stageOperand (t : List Char) : Option Stage :=
  if t == "first".toList then some .first else if t == "later".toList then some .later else none

/-- A `core=<0..3>` operand (R101). DESIGN CHOICE (log 25): R101 does not say how its number is spelled; the model takes
every spelling of a number, so `core=0x3` and `core=03` too, as one token with no blank in it. -/
def coreOperand (t : List Char) : Option (BitVec 2) :=
  if t.take 5 == "core=".toList then
    (number (t.drop 5)).bind fun v => if v.toNat < 4 then some (v.setWidth 2) else none
  else none

/-- The operands of a line: the tokens between commas, none where commas and operands do not alternate. -/
def operands : List (List Char) → Option (List (List Char))
  | [] => some []
  | [t] => if t == [','] then none else some [t]
  | t :: c :: rest => if t == [','] || c != [','] || rest.isEmpty then none else (operands rest).map (t :: ·)

/-- A command with its operands (R101). -/
def parseCommand (p : Params) (name : List Char) (ops : List (List Char)) : Option Instr :=
  match ops with
  | [] => none
  | [a] =>
    if name == "read32".toList then (offsetOperand p a).map .read32
    else if name == "apply_cal".toList then (bankOperand a).map .applyCaltable
    else if name == "vco_hz".toList then (bankOperand a).map .vcoHz
    else if name == "get_rate".toList then (clockOperand a).map (.getRate 0)
    else if name == "enable".toList then (clockOperand a).map .enable
    else none
  | [a, b] =>
    if name == "write32".toList then (offsetOperand p a).bind fun o => (number b).map (.write32 o)
    else if name == "set_bits".toList then (offsetOperand p a).bind fun o => (number b).map (.setBits o)
    else if name == "clear_bits".toList then (offsetOperand p a).bind fun o => (number b).map (.clrBits o)
    else if name == "membus_read".toList then (bankOperand a).bind fun k => (number b).map (.membusRead k)
    else if name == "vcocalib".toList then (number a).bind fun m => (number b).map (.vcocalib m)
    else if name == "bringup".toList then (modeOperand a).bind fun m => (stageOperand b).map (.bringup m)
    else if name == "get_rate".toList then (clockOperand a).bind fun t => (coreOperand b).map (.getRate · t)
    else none
  | [a, b, c] =>
    if name == "membus_write".toList then
      (bankOperand a).bind fun k => (number b).bind fun o => (number c).map (.membusWrite k o)
    else if name == "clksrc_hz".toList then
      (offsetOperand p a).bind fun g => (offsetOperand p b).bind fun m => (offsetOperand p c).map (.clksrcHz g m)
    else none
  | [a, b, c, d] =>
    if name == "wait_bit".toList then
      (offsetOperand p a).bind fun o => (number b).bind fun m =>
        (senseOperand c).bind fun w => (number d).map (.waitBit w o m)
    else none
  | _ => none

/-- A pseudo-command with its operands (R102). -/
def parsePseudo (name : List Char) (p : Params) (ops : List (List Char)) : Option Pseudo :=
  match ops with
  | [] =>
    if name == "busy_wait".toList then some .busyWait
    else if name == "lock_wait".toList then some .lockWait
    else none
  | [a] =>
    if name == "force_bypass".toList then (bankOperand a).map .forceBypass
    else if name == "clear_bypass".toList then (bankOperand a).map .clearBypass
    else none
  | [a, b] =>
    if name == "clear_latch".toList then (offsetOperand p a).bind fun o => (number b).map (.clearLatch o) else none
  | _ => none

/-- The commands one line of text stands for (R101, R102). -/
def assembleLine (p : Params) (line : List Char) : Option (List Instr) :=
  match tokens line [] with
  | [] => some []
  | name :: rest =>
    (operands rest).bind fun ops =>
      match parseCommand p name ops with
      | some i => some [i]
      | none => (parsePseudo name p ops).map (expandPseudo p)

/-- The command words of a program's lines (R101). -/
def assemble (p : Params) : List (List Char) → Option (List Word)
  | [] => some []
  | l :: ls => (assembleLine p l).bind fun is => (assemble p ls).map fun ws => is.flatMap encode ++ ws

end Sys2Proof.Machine
end

