-- ==== Sys2Proof/Machine/Reference.lean ====
section
/-!
DEFINITION. Reference functions that statements compare the machine with: the sequence of draws, the rates as plain
arithmetic over register contents, the calibration table as a function of the memory, and the bring-up's register values
and bus traffic. No meaning calls them.
-/

namespace Sys2Proof.Machine

open Sys2Proof

/-! ### The draws to come (R57) -/

/-- The draw that comes after `k` others. -/
def State.drawAt (s : State) (k : Nat) : Word :=
  match s.tape[k]? with
  | some v => v
  | none => Config.draw (s.drawn + (k - s.tape.length))

/-- The state with the next `n` draws taken. -/
def State.skip (s : State) (n : Nat) : State :=
  { s with tape := s.tape.drop n, drawn := s.drawn + (n - s.tape.length) }

/-- The state after `n` reads of a register each of which answers the next draw. -/
def State.afterReads (s : State) (r : Reg) (n : Nat) : State :=
  { s.skip n with
    bus := (List.range n).reverse.map (fun j => .read (s.addrOf r) (s.drawAt j)) ++ s.bus }

/-- A transaction is a read. -/
def Txn.isRead : Txn → Bool
  | .read _ _ => true
  | .write _ _ => false

/-! ### Rates as arithmetic over register contents (R220 to R239) -/

/-- `vco_hz(b)`; none is DivideByZero (R220). -/
def vcoRef (p : Params) (f : StoreFile) (b : Bank) : Option Nat :=
  match p.vcoSource (p.fields.psrc.get (f.get (.bank b .pllglob))) with
  | none => some 0
  | some osc =>
    let a := (p.fields.arefclkdiv.get (f.get (.bank b .pllglob))).toNat
    if a = 0 then none
    else some (osc.toNat / a * (p.fields.mdiv.get (f.get (.bank b .pllm))).toNat % 2 ^ 64)

/-- `1 + cnt(c)` (R221). -/
def divisorRef (p : Params) (f : StoreFile) (c : CntReg) : Nat := 1 + ((c.field p).get (f.get c.reg)).toNat

/-- `clksrc_hz` (R221). -/
def clksrcRef (p : Params) (f : StoreFile) (sel : SelReg) (mctr pctr : CntReg) : Option Nat :=
  match p.source ((sel.field p).get (f.get sel.reg)) with
  | some .main => (vcoRef p f .M).map (· / divisorRef p f mctr)
  | some .peri => (vcoRef p f .P).map (· / divisorRef p f pctr)
  | some .eosc => some p.oscHz.toNat
  | some .intosc => some p.intoscHz.toNat
  | some .fpga => some p.fpgaHz.toNat
  | none => some 0

/-- `clksrc_hz` with the slices of a use (R222). -/
def clksrcUseRef (p : Params) (f : StoreFile) (sel : SelReg) (u : Use) : Option Nat :=
  clksrcRef p f sel (.slice .M (p.slices.of u).kM) (.slice .P (p.slices.of u).kP)

/-- A gate counter's clock over its own divisor (R236 to R239). -/
def gateRef (p : Params) (f : StoreFile) (g : Gate) (u : Use) : Option Nat :=
  (clksrcUseRef p f (.gate g) u).map (· / divisorRef p f (.gate g))

/-- The fabric clock (R228). -/
def fabricRef (p : Params) (f : StoreFile) : Option Nat := clksrcUseRef p f .nocclk .noc

/-- A second-level bus clock (R230, R231). -/
def l4Ref (p : Params) (f : StoreFile) (fld : Field) : Option Nat :=
  (fabricRef p f).map (· / 2 ^ (fld.get f.nocdiv).toNat)

/-- A `P_RATE_*` parent (R239). -/
def parentRef (p : Params) (f : StoreFile) : RateParent → Option Nat
  | .fabric => fabricRef p f
  | .l4mp => l4Ref p f p.fields.nocdivL4mp
  | .l4sp => l4Ref p f p.fields.nocdivL4sp
  | .gate g u => gateRef p f g u

/-- The rate of a clock identity (R229 to R239); none is DivideByZero. -/
def rateRef (p : Params) (f : StoreFile) (core : BitVec 2) : Clock → Option Nat
  | .mpu =>
    if core.toNat < 2 then gateRef p f .core01 .core01
    else (gateRef p f .core23 .core23).map (· / divisorRef p f (.gate (if core.toNat = 2 then .core2 else .core3)))
  | .l4main => fabricRef p f
  | .l4mp => l4Ref p f p.fields.nocdivL4mp
  | .l4sp => l4Ref p f p.fields.nocdivL4sp
  | .l4sysfree =>
    (fabricRef p f).map (· / if p.fields.ctrlBootmode.get f.ctrl = 1 then p.sysfreeDivBoot else p.sysfreeDivRun)
  | .sdmmc => (l4Ref p f p.fields.nocdivL4mp).map (· / p.sdmmcDiv)
  | .emac i =>
    if (i.selField p.fields).get f.emacctl = 0 then gateRef p f .emaca .emaca else gateRef p f .emacb .emacb
  | .emacptp => gateRef p f .emacptp .emacptp
  | .usb => (parentRef p f p.rateUsb.parent).map (· / p.rateUsb.d)
  | .nand => (parentRef p f p.rateNand.parent).map (· / p.rateNand.d)
  | .nandx => (parentRef p f p.rateNandx.parent).map (· / p.rateNandx.d)

/-! ### The registers a rate reads, in order (R220 to R239) -/

/-- The registers `vco_hz(b)` reads (R220). -/
def vcoReads (p : Params) (f : StoreFile) (b : Bank) : List StoreReg :=
  match p.vcoSource (p.fields.psrc.get (f.get (.bank b .pllglob))) with
  | none => [.bank b .pllglob]
  | some _ =>
    if p.fields.arefclkdiv.get (f.get (.bank b .pllglob)) = 0 then [.bank b .pllglob]
    else [.bank b .pllglob, .bank b .pllm]

/-- What is read after a derivation: nothing if it divided by zero. -/
def readsAfter (o : Option Nat) (l : List StoreReg) : List StoreReg := if o.isSome then l else []

/-- The registers `clksrc_hz` reads: the selector first, the counter last (R221). -/
def clksrcReads (p : Params) (f : StoreFile) (sel : SelReg) (mctr pctr : CntReg) : List StoreReg :=
  sel.reg ::
    match p.source ((sel.field p).get (f.get sel.reg)) with
    | some .main => vcoReads p f .M ++ readsAfter (vcoRef p f .M) [mctr.reg]
    | some .peri => vcoReads p f .P ++ readsAfter (vcoRef p f .P) [pctr.reg]
    | _ => []

/-- `clksrc_hz` with the slices of a use (R222). -/
def clksrcUseReads (p : Params) (f : StoreFile) (sel : SelReg) (u : Use) : List StoreReg :=
  clksrcReads p f sel (.slice .M (p.slices.of u).kM) (.slice .P (p.slices.of u).kP)

/-- A gate counter's clock: the source first, then the counter itself (R236 to R239). -/
def gateReads (p : Params) (f : StoreFile) (g : Gate) (u : Use) : List StoreReg :=
  clksrcUseReads p f (.gate g) u ++ readsAfter (clksrcUseRef p f (.gate g) u) [.gate g]

/-- The fabric clock (R228). -/
def fabricReads (p : Params) (f : StoreFile) : List StoreReg := clksrcUseReads p f .nocclk .noc

/-- A second-level bus clock: the fabric clock first, then `M.NOCDIV` (R230, R231). -/
def l4Reads (p : Params) (f : StoreFile) : List StoreReg := fabricReads p f ++ readsAfter (fabricRef p f) [.nocdiv]

/-- A `P_RATE_*` parent (R239). -/
def parentReads (p : Params) (f : StoreFile) : RateParent → List StoreReg
  | .fabric => fabricReads p f
  | .l4mp => l4Reads p f
  | .l4sp => l4Reads p f
  | .gate g u => gateReads p f g u

/-- The registers the rate of a clock identity reads (R229 to R239). -/
def rateReads (p : Params) (f : StoreFile) (core : BitVec 2) : Clock → List StoreReg
  | .mpu =>
    if core.toNat < 2 then gateReads p f .core01 .core01
    else gateReads p f .core23 .core23
      ++ readsAfter (gateRef p f .core23 .core23) [.gate (if core.toNat = 2 then .core2 else .core3)]
  | .l4main => fabricReads p f
  | .l4mp => l4Reads p f
  | .l4sp => l4Reads p f
  | .l4sysfree => .ctrl :: fabricReads p f
  | .sdmmc => l4Reads p f
  | .emac i =>
    .emacctl ::
      if (i.selField p.fields).get f.emacctl = 0 then gateReads p f .emaca .emaca else gateReads p f .emacb .emacb
  | .emacptp => gateReads p f .emacptp .emacptp
  | .usb => parentReads p f p.rateUsb.parent
  | .nand => parentReads p f p.rateNand.parent
  | .nandx => parentReads p f p.rateNandx.parent

/-- The bus log after reading storage registers in order (R72, R78). -/
def State.busAfter (s : State) (l : List StoreReg) : List Txn :=
  (l.map fun r => Txn.read (s.addrOf (.store r)) (s.regs.get r)).reverse ++ s.bus

/-- The state a derivation ends in, its registers read: a rate returned, or DivideByZero taken (R93, R263). -/
def State.rated (s : State) (i : Instr) (o : Option Nat) (l : List StoreReg) : State :=
  match o with
  | some n => { s with bus := s.busAfter l, result := some (.hz (BitVec.ofNat 64 n)) }
  | none => { s with bus := s.busAfter l, result := none, fault := some ⟨.divideByZero, i.cmdWord, s.seq, s.u⟩ }

/-! ### The membus responder as a function (R53, R54) -/

/-- A membus side with a request performed (R54). -/
def Membus.performed (c : Membus) (q : Request) : Membus :=
  if q.wr then { c with cal := c.cal.write q.a.toNat q.d, pending := none }
  else { c with memstat := c.cal.read q.a.toNat, pending := none }

/-- The request a mailbox word starts, its three parts as R53 writes them. -/
def requestRef (p : Params) (w : Word) : Request :=
  ⟨decide (w &&& p.mbxWr ≠ 0), w &&& p.mbxAddrMask, (w >>> p.mbxWdatShift) &&& BitVec.ofNat 32 (2 ^ p.calW - 1)⟩

/-! ### The calibration table as a function of the memory (R144, R145) -/

/-- Every value of the table fits a calibration word (R144). -/
def tableFits (p : Params) : Bool := p.calTable.all fun e => (e.value &&& ~~~ p.calMask) == 0

/-- What a list of entries does to a calibration memory, each entry `x -> (x & ~m) | val` under the word's mask (R145). -/
def tableRef (p : Params) : List CalEntry → Memory → Memory
  | [], m => m
  | e :: es, m =>
    let a := (p.calAddr e.addrOffset).toNat
    tableRef p es (m.write a (((m.read a &&& ~~~ e.mask) ||| e.value) &&& p.calMask))

/-- What a list of entries does to a calibration memory through the mailbox words it makes, whatever its values (R53,
R95, R144). -/
def tableImage (p : Params) : List CalEntry → Memory → Memory
  | [], m => m
  | e :: es, m =>
    let q := requestRef p (p.mbxW e.addrOffset ((m.read (p.calAddr e.addrOffset).toNat &&& ~~~ e.mask) ||| e.value))
    tableImage p es (m.write q.a.toNat q.d)

/-- APPLY_CALTABLE of the entries `es` from `s` stops at a Timeout and leaves `t` (R144, R146; V-MB-7). The entries before
the one it stops at are applied to `m₀`, and the ones after it are untouched. The request that timed out, that entry's read
or its write, is still pending (R61). Its mailbox write is followed by the whole budget of polls, every one with REQ set,
and by nothing more; the mailbox writes before it are two for each entry applied, and one more for a read that came first. -/
def State.tableStops (s : State) (b : Bank) (es : List CalEntry) (m₀ : Memory) (t : State) : Prop :=
  ∃ (done : List CalEntry) (e : CalEntry) (rest : List CalEntry) (w : Word) (polls l : List Txn),
    es = done ++ e :: rest ∧ (t.chan b).cal = tableImage s.params done m₀ ∧
      (t.chan b).pending = some (requestRef s.params w) ∧
      t.bus = polls ++ .write (s.addrOf (.mem b)) w :: l ++ s.bus ∧ polls.length = s.params.membusBudget ∧
      (∀ x ∈ polls, ∃ v, x = .read (s.addrOf (.mempoll b)) v ∧ v &&& s.params.mbxReq ≠ 0) ∧
      ((w = s.params.mbxR e.addrOffset ∧ (l.filter fun x => !x.isRead).length = 2 * done.length) ∨
        (w = s.params.mbxW e.addrOffset
            (((tableImage s.params done m₀).read (s.params.calAddr e.addrOffset).toNat &&& ~~~ e.mask) ||| e.value) ∧
          (l.filter fun x => !x.isRead).length = 2 * done.length + 1))

/-! ### What the bring-up leaves in the storage registers (R171 to R199) -/

/-- One bank's storage registers after a real-path run (R199). -/
def bankEnd (p : Params) (c : BankCfg) (vc : Word) : BankFile where
  pllglob := (c.pllglob &&& ~~~ p.fields.rst.mask &&& ~~~ p.fields.llbyp.mask) ||| pdrst p
  pllm := c.pllm
  pllc0 := c.pllc0 ||| p.fields.pllcEn.mask
  pllc1 := c.pllc1 ||| p.fields.pllcEn.mask
  pllc2 := c.pllc2 ||| p.fields.pllcEn.mask
  pllc3 := c.pllc3 ||| p.fields.pllcEn.mask
  fdbck := c.fdbck
  vcocalib := vc
  bypass := 0

/-- The storage registers after a real-path run (R177, R194, R195, R199); `enter` says that step 1 wrote CTRL. -/
def realEnd (p : Params) (c : BringUpConfig) (vcM vcP : Word) (enter : Bool) (f : StoreFile) : StoreFile where
  ctrl := ctrlExitBoot p (if enter then ctrlEnterBoot p f.ctrl else f.ctrl)
  cntrst := f.cntrst &&& ~~~ p.allCntRst
  gates := c.gates
  main := bankEnd p c.main vcM
  peri := bankEnd p c.peri vcP
  nocclk := c.nocclk
  nocdiv := c.nocdiv
  emacctl := c.emacctl
  gpiodiv := c.gpiodiv

/-- The storage registers after an emulation run (R171, R173, R174). -/
def emulationEnd (p : Params) (f : StoreFile) : StoreFile :=
  { f with
    main := { f.main with pllglob := f.main.pllglob ||| pdrst p, bypass := 0 }
    peri := { f.peri with pllglob := f.peri.pllglob ||| pdrst p, bypass := 0 } }

/-! ### The bus traffic of a bring-up (R171 to R195) -/

/-- A stretch of a bring-up's bus traffic. -/
inductive Stretch where
  /-- A read of a storage register, answering `v`. -/
  | read (r : StoreReg) (v : Word)
  /-- A write of a storage register. -/
  | write (r : StoreReg) (v : Word)
  /-- `ClearLatch(r, m)` (R175). -/
  | clearLatch (r : Reg) (m : Word)
  /-- A wait on STAT (R130, R132). -/
  | wait (wantSet : Bool) (mask : Word)
  /-- `APPLY_CALTABLE(b)` (R144). -/
  | table (b : Bank)
  deriving DecidableEq, Repr

/-- The transactions, oldest first, that make up a stretch: one each for a read and a write; one or two for a latch, by
`P_LATCH_CLR` (R175); for a wait, reads of STAT up to the first that meets it or 20000 of them (R124, R125); for a table,
those of some run of APPLY_CALTABLE. -/
def Stretch.made (s : State) : Stretch → List Txn → Prop
  | .read r v, l => l = [.read (s.addrOf (.store r)) v]
  | .write r v, l => l = [.write (s.addrOf (.store r)) v]
  | .clearLatch r m, l =>
    (s.params.latchClr = .w1c → l = [.write (s.addrOf r) m]) ∧
      (s.params.latchClr = .clrbits → ∃ v, l = [.read (s.addrOf r) v, .write (s.addrOf r) (v &&& ~~~ m)])
  | .wait wantSet m, l =>
    ∃ vs : List Word, l = vs.map (Txn.read (s.addrOf .stat)) ∧ 0 < vs.length ∧ vs.length ≤ 20000 ∧
      (∀ x ∈ vs.dropLast, x &&& m ≠ if wantSet then m else 0) ∧
      (vs.length = 20000 ∨ ∃ x, vs.getLast? = some x ∧ x &&& m = if wantSet then m else 0)
  | .table b, l =>
    ∃ x y : State, x.params = s.params ∧ exec (.applyCaltable b) x = .next y ∧ y.bus = l.reverse ++ x.bus

/-- Transactions, oldest first, that are the given stretches one after the other (R197). -/
def State.made (s : State) : List Stretch → List Txn → Prop
  | [], l => l = []
  | e :: es, l => ∃ l₁ l₂, l = l₁ ++ l₂ ∧ e.made s l₁ ∧ s.made es l₂

/-- A read of a storage register that holds `v`, and a write of `w` to it (R122, R123). -/
def rewrite (r : StoreReg) (v w : Word) : List Stretch := [.read r v, .write r w]

/-- A bypass write and its busy-wait (R131, R175). -/
def bypassStretch (p : Params) (b : Bank) (v : Word) : List Stretch :=
  [.write (.bank b .bypass) v, .wait false p.fields.statBusy.mask]

/-- `mask(PLLGLOB.PD) | mask(PLLGLOB.RST)` (R179, R185). -/
def resetMask (p : Params) : Word := p.fields.pd.mask ||| p.fields.rst.mask

/-- CTRL as step 1 writes it (R177). -/
def enteredCtrl (p : Params) (v : Word) : Word :=
  p.fields.ctrlSwbtclksel.put (p.fields.ctrlSwbtclken.put (p.fields.ctrlBootmode.put v 1) 1) p.bootclkSel

/-- PLLGLOB as step 4 stages it (R181). -/
def stagedGlob (p : Params) (c : BankCfg) : Word := c.pllglob &&& ~~~ p.fields.rst.mask

/-- Step 4 for a bank, before its extra registers, in the order of R181. -/
def stageStretch (p : Params) (b : Bank) (c : BankCfg) (vc : Word) : List Stretch :=
  [.write (.bank b .pllglob) (stagedGlob p c), .write (.bank b .fdbck) c.fdbck,
    .write (.bank b .vcocalib) vc, .write (.bank b (.pllc .c0)) c.pllc0, .write (.bank b (.pllc .c1)) c.pllc1,
    .write (.bank b (.pllc .c2)) c.pllc2, .write (.bank b (.pllc .c3)) c.pllc3, .write (.bank b .pllm) c.pllm]

/-- Step 8 for a bank (R188). -/
def enableStretch (p : Params) (b : Bank) (c : BankCfg) : List Stretch :=
  rewrite (.bank b (.pllc .c0)) c.pllc0 (c.pllc0 ||| p.fields.pllcEn.mask)
    ++ rewrite (.bank b (.pllc .c1)) c.pllc1 (c.pllc1 ||| p.fields.pllcEn.mask)
    ++ rewrite (.bank b (.pllc .c2)) c.pllc2 (c.pllc2 ||| p.fields.pllcEn.mask)
    ++ rewrite (.bank b (.pllc .c3)) c.pllc3 (c.pllc3 ||| p.fields.pllcEn.mask)

/-- Step 1 of a real-path run that goes on: CTRL read and, in the first stage, written (R176, R177). -/
def enterStretch (p : Params) (first : Bool) (ctrl : Word) : List Stretch :=
  if first then rewrite .ctrl ctrl (enteredCtrl p ctrl) ++ [.wait false p.fields.statBusy.mask] else [.read .ctrl ctrl]

/-- Steps 2 and 3 from the banks' PLLGLOB (R178, R179). -/
def resetStretch (p : Params) (gM gP : Word) : List Stretch :=
  bypassStretch p .M p.bypassAll ++ bypassStretch p .P p.bypassAll ++ rewrite (.bank .M .pllglob) gM (gM &&& ~~~ resetMask p)
    ++ rewrite (.bank .P .pllglob) gP (gP &&& ~~~ resetMask p)

/-- Step 5, in the order of R184. -/
def gateStretch (g : GateFile Word) : List Stretch :=
  [.write (.gate .emaca) g.emaca, .write (.gate .emacb) g.emacb, .write (.gate .emacptp) g.emacptp,
    .write (.gate .gpiodb) g.gpiodb, .write (.gate .s2fuser0) g.s2fuser0, .write (.gate .s2fuser1) g.s2fuser1,
    .write (.gate .psiref) g.psiref, .write (.gate .usb) g.usb, .write (.gate .dsu) g.dsu,
    .write (.gate .core01) g.core01, .write (.gate .core23) g.core23, .write (.gate .core2) g.core2,
    .write (.gate .core3) g.core3]

/-- Steps 4 and 5 (R181 to R184). -/
def stagingStretch (p : Params) (c : BringUpConfig) (vcM vcP : Word) : List Stretch :=
  stageStretch p .M c.main vcM ++ [.write .nocclk c.nocclk, .write .nocdiv c.nocdiv]
    ++ stageStretch p .P c.peri vcP ++ [.write .emacctl c.emacctl, .write .gpiodiv c.gpiodiv] ++ gateStretch c.gates

/-- Steps 6 to 8 from the banks' staged PLLGLOB (R185 to R188). -/
def releaseStretch (p : Params) (c : BringUpConfig) (gM gP : Word) : List Stretch :=
  rewrite (.bank .M .pllglob) gM (gM ||| resetMask p) ++ rewrite (.bank .P .pllglob) gP (gP ||| resetMask p)
    ++ [.table .M, .table .P] ++ enableStretch p .M c.main ++ enableStretch p .P c.peri

/-- Steps 9 to 12 from the banks' released PLLGLOB (R189 to R193). -/
def lockStretch (p : Params) (gM gP : Word) : List Stretch :=
  [.wait true p.fields.statLocked.mask, .clearLatch (.lostlock .M) p.fields.lostlockLatch.mask,
    .clearLatch (.lostlock .P) p.fields.lostlockLatch.mask]
    ++ rewrite (.bank .M .pllglob) gM (gM &&& ~~~ p.fields.llbyp.mask)
    ++ rewrite (.bank .P .pllglob) gP (gP &&& ~~~ p.fields.llbyp.mask)
    ++ bypassStretch p .M 0 ++ bypassStretch p .P 0
    ++ [.clearLatch .intr (p.fields.intrMlostlock.mask ||| p.fields.intrPlostlock.mask)]

/-- Steps 13 and 14 (R194, R195). -/
def leaveStretch (p : Params) (cntrst ctrl : Word) : List Stretch :=
  rewrite .cntrst cntrst (cntrst &&& ~~~ p.allCntRst) ++ rewrite .ctrl ctrl (p.fields.ctrlBootmode.put ctrl 0)
    ++ [.wait false p.fields.statBusy.mask]

/-- The bus traffic of a real-path run from storage registers `f` (R176 to R195); `vcM` and `vcP` are the banks' VCO
calibration words, and `first` says that step 1 enters boot mode (R177). -/
def realStretches (p : Params) (c : BringUpConfig) (vcM vcP : Word) (first : Bool) (f : StoreFile) : List Stretch :=
  enterStretch p first f.ctrl ++ (resetStretch p f.main.pllglob f.peri.pllglob ++ (stagingStretch p c vcM vcP
    ++ (releaseStretch p c (stagedGlob p c.main) (stagedGlob p c.peri)
    ++ (lockStretch p (stagedGlob p c.main ||| resetMask p) (stagedGlob p c.peri ||| resetMask p)
    ++ leaveStretch p f.cntrst (if first then enteredCtrl p f.ctrl else f.ctrl)))))

/-- A bank's storage registers after steps 2 and 3 (R178, R179). -/
def bankReset (p : Params) (f : BankFile) : BankFile :=
  { f with pllglob := f.pllglob &&& ~~~ resetMask p, bypass := p.bypassAll }

/-- A bank's storage registers after its writes of step 4 (R178, R181). -/
def bankStaged (p : Params) (c : BankCfg) (vc : Word) : BankFile where
  pllglob := stagedGlob p c
  pllm := c.pllm
  pllc0 := c.pllc0
  pllc1 := c.pllc1
  pllc2 := c.pllc2
  pllc3 := c.pllc3
  fdbck := c.fdbck
  vcocalib := vc
  bypass := p.bypassAll

/-- The storage registers after steps 1 to 3 of a real-path run that goes on (R177 to R179). -/
def resetEnd (p : Params) (first : Bool) (f : StoreFile) : StoreFile :=
  { f with
    ctrl := if first then enteredCtrl p f.ctrl else f.ctrl
    main := bankReset p f.main
    peri := bankReset p f.peri }

/-- The bus traffic of steps 1 to 3 (R176 to R179). -/
def resetTraffic (p : Params) (first : Bool) (f : StoreFile) : List Stretch :=
  enterStretch p first f.ctrl ++ resetStretch p f.main.pllglob f.peri.pllglob

/-- Step 4 for the main bank, its extra registers too (R181, R182). -/
def mainStretch (p : Params) (c : BringUpConfig) (vc : Word) : List Stretch :=
  stageStretch p .M c.main vc ++ [.write .nocclk c.nocclk, .write .nocdiv c.nocdiv]

/-- The bus traffic of an emulation run from storage registers `f` (R171 to R174). -/
def emulationStretches (p : Params) (f : StoreFile) : List Stretch :=
  rewrite (.bank .M .pllglob) f.main.pllglob (f.main.pllglob ||| resetMask p)
    ++ rewrite (.bank .P .pllglob) f.peri.pllglob (f.peri.pllglob ||| resetMask p)
    ++ [.wait true p.fields.statLocked.mask]
    ++ bypassStretch p .M p.bypassAll ++ bypassStretch p .P p.bypassAll
    ++ bypassStretch p .M 0 ++ bypassStretch p .P 0

/-! ### Command words and results (R93, R94) -/

/-- The values of `OP` that are commands (R93). -/
def commandOps : List Word := [0x01, 0x02, 0x03, 0x04, 0x05, 0x10, 0x11, 0x12, 0x20, 0x30, 0x40, 0x41, 0x42, 0x43]

/-- What makes a command word illegal (R94): its `OP` is no command, its `RSV` field is not 0, or it sets a field its
opcode does not use. -/
abbrev illegalWord (w : Word) : Prop :=
  w &&& 0xFF ∉ commandOps ∨ w &&& 0xFFFFF000 ≠ 0 ∨
    (w &&& 0x100 ≠ 0 ∧ w &&& 0xFF ∉ ([0x05, 0x10, 0x11, 0x12, 0x30, 0x40] : List Word)) ∨
    (w &&& 0x200 ≠ 0 ∧ w &&& 0xFF ≠ 0x30) ∨ (w &&& 0xC00 ≠ 0 ∧ w &&& 0xFF ≠ 0x42)

/-- `Ok(u32)` (R93). -/
def Result.isWord : Result → Bool
  | .word _ => true
  | .unit => false
  | .hz _ => false
  | .err _ => false

/-- `Ok(u64)` (R93). -/
def Result.isHz : Result → Bool
  | .hz _ => true
  | .unit => false
  | .word _ => false
  | .err _ => false

/-- The results a command may return (R93). -/
def resultAllowed (i : Instr) (r : Result) : Bool :=
  match i with
  | .read32 _ => r.isWord
  | .write32 _ _ => r == .unit
  | .setBits _ _ => r == .unit
  | .clrBits _ _ => r == .unit
  | .waitBit _ _ _ _ => r == .unit || r == .err .timeout
  | .membusWrite _ _ _ => r == .unit || r == .err .timeout
  | .membusRead _ _ => r.isWord || r == .err .timeout
  | .applyCaltable _ => r == .unit || r == .err .timeout
  | .vcocalib _ _ => r.isWord
  | .bringup _ _ => r == .unit
  | .vcoHz _ => r.isHz
  | .clksrcHz _ _ _ => r.isHz
  | .getRate _ _ => r.isHz || r == .err .unsupportedClock
  | .enable _ => r == .unit

/-- The state a fault leaves when nothing else has happened (R263, R264). -/
def State.faulted (s : State) (k : FaultKind) (i : Instr) : State :=
  { s with fault := some ⟨k, i.cmdWord, s.seq, s.u⟩, result := none }

/-! ### Diagnostics and bypass (R131, R175, R187) -/

/-- What a run may note in `DIAG`, in order (R172 to R174, R177, R178, R187, R189, R192, R195). -/
def mayNoteReal : List DiagEntry :=
  [⟨.s1, 2, .busyWait⟩, ⟨.s2, 0, .busyWait⟩, ⟨.s2, 1, .busyWait⟩, ⟨.s7, 0, .applyCaltable .M⟩,
    ⟨.s7, 1, .applyCaltable .P⟩, ⟨.s9, 0, .lockWait⟩, ⟨.s11, 0, .busyWait⟩, ⟨.s11, 1, .busyWait⟩, ⟨.s14, 2, .busyWait⟩]

/-- What an emulation run may note in `DIAG`, in order (R172 to R174). -/
def mayNoteEmulation : List DiagEntry :=
  [⟨.e2, 0, .lockWait⟩, ⟨.e3, 0, .busyWait⟩, ⟨.e3, 1, .busyWait⟩, ⟨.e4, 0, .busyWait⟩, ⟨.e4, 1, .busyWait⟩]

/-- No two registers of different offsets share a bus address (R70). -/
abbrev State.busDistinct (s : State) : Prop := ∀ r r', s.addrOf r = s.addrOf r' → s.params.offset r = s.params.offset r'

/-- The registers a write of which starts a transition (R131, R285). -/
def transitionRegs : List Reg := [.store .ctrl, .store (.bank .M .bypass), .store (.bank .P .bypass)]

end Sys2Proof.Machine
end

