-- ==== Sys2Proof/Safety.lean ====
section
/-!
DEFINITION. The conditions claims are stated in: the invariant every step keeps, the bank states of R44 and R47, and
which states a run may rest in.
-/

namespace Sys2Proof.Machine

open Sys2Proof

/-- The states the sequencer rests in between commands (R46). -/
def SeqState.resting : SeqState → Bool
  | .idle => true
  | .done => true
  | .skipped => true
  | _ => false

/-- A bank is "in reset": powered down, reset asserted, bypass forced (R30, R44). -/
abbrev State.inReset (s : State) (b : Bank) : Prop :=
  s.params.fields.pd.get (s.regs.get (.bank b .pllglob)) = 0 ∧
    s.params.fields.rst.get (s.regs.get (.bank b .pllglob)) = 0 ∧
    s.regs.get (.bank b .bypass) = s.params.bypassAll

/-- A bank is "running" as far as its registers say: powered up, reset released, bypass cleared (R30, R44). The lock bit
is a draw of STAT. -/
abbrev State.runningRegs (s : State) (b : Bank) : Prop :=
  s.params.fields.pd.get (s.regs.get (.bank b .pllglob)) = 1 ∧
    s.params.fields.rst.get (s.regs.get (.bank b .pllglob)) = 1 ∧
    s.regs.get (.bank b .bypass) = 0

/-- The conceptual states of a bank (R47). -/
inductive BankPhase where
  | unknown
  | bypassedReset
  | configuredReset
  | lockedBypassed
  | lockedRunning
  deriving DecidableEq, Repr

/-- The lock wait of `S9` timed out in the run `DIAG` is about (R48, R189). -/
def lockTimedOut (diag : List DiagEntry) : Bool := diag.contains ⟨.s9, 0, .lockWait⟩

/-- The conceptual state a bank is in at the end of a state of the real path, as `SEQ` and `DIAG` tell it (R47): locked and
bypassed from the end of `S9` only if the lock wait succeeded; locked and running from the end of `S11`, on which R47 puts
no condition (R44 warns that a bank need not run after a wait that timed out). DESIGN CHOICE (log 26): after a lock wait that timed out R47 names nothing for the ends of `S9` and `S10`, and the model keeps configured and
in reset; R47 names none either between `S2` and the end of `S3`, for the emulation path or for a skipped run, and the model
says unknown at the end of `S2`, `E1` to `E4` and `SKIPPED`, and locked and running at `DONE` whichever path reached it, an
emulation run too. No step reads it. -/
def SeqState.phaseAtEnd (q : SeqState) (diag : List DiagEntry) : BankPhase :=
  match q with
  | .s3 => .bypassedReset
  | .s4 => .bypassedReset
  | .s5 => .configuredReset
  | .s6 => .configuredReset
  | .s7 => .configuredReset
  | .s8 => .configuredReset
  | .s9 => if lockTimedOut diag then .configuredReset else .lockedBypassed
  | .s10 => if lockTimedOut diag then .configuredReset else .lockedBypassed
  | .s11 => .lockedRunning
  | .s12 => .lockedRunning
  | .s13 => .lockedRunning
  | .s14 => .lockedRunning
  | .done => .lockedRunning
  | .idle => .unknown
  | .skipped => .unknown
  | .e1 => .unknown
  | .e2 => .unknown
  | .e3 => .unknown
  | .e4 => .unknown
  | .s1 => .unknown
  | .s2 => .unknown

/-- Every word of a calibration memory fits `P_CAL_W` bits (R52). -/
def calFits (p : Params) (m : Memory) : Bool := m.all fun e => (e.2 &&& ~~~ p.calMask) == 0

/-- A pending request's address and data are as R53 makes them. -/
def pendingFits (p : Params) : Option Request → Bool
  | none => true
  | some q => (q.a &&& ~~~ p.mbxAddrMask) == 0 && (q.d &&& ~~~ p.calMask) == 0

/-- One bank's membus side is as the spec describes it (R52, R53). -/
def Membus.ok (p : Params) (c : Membus) : Bool := c.cal.wf && calFits p c.cal && pendingFits p c.pending

/-- The invariant every step keeps: an accepted configuration (R98), canonical calibration memories of words that fit
(R52), pending requests as R53 makes them, and a resting sequencer unless a fault stopped it (R46, R264). The canonical form
is the model's (log 18), and so is that a resting sequencer stands at micro-step 0 (log 14): R280 says it of reset alone. -/
abbrev State.Inv (s : State) : Prop :=
  s.params.accepted = true ∧ Membus.ok s.params s.busM = true ∧ Membus.ok s.params s.busP = true ∧
    (s.fault = none → s.seq.resting = true ∧ s.u = 0)

/-- A safe state: the CORE has recorded no fault, so its next step does not stop (R264). -/
abbrev State.Safe (s : State) : Prop := s.fault = none

end Sys2Proof.Machine
end

