-- ==== Sys2Proof/Certificates/Slice0/Obligations.lean ====
section
/-!
DEFINITION. The statements for the provers. Where a statement leans on a choice of the model (a draw's place in the
tape, the record of a fault in a next state), its docstring names the log entry.
-/

section

open Sys2Proof Sys2Proof.Machine

/-! ### Commands and their words (R90 to R94) -/

/-- Every command's words decode to it and leave the words after it (R90 to R93). -/
def Obligations.DecodeOfEncode : Prop :=
  ∀ (i : Instr) (rest : List Word), decode (encode i ++ rest) = .ok (i, rest)

/-- Words that decode to a command are that command's words: no bit of a command word is dropped (R91, R94). -/
def Obligations.DecodedWordsAreEncoding : Prop :=
  ∀ (ws : List Word) (i : Instr) (rest : List Word), decode ws = .ok (i, rest) → encode i ++ rest = ws

/-- R94: an illegal command word raises IllegalCommand before any bus transaction, nothing else changed but the queue of
command words; no other word does, and a tag outside R97 makes no command illegal. -/
def Obligations.IllegalCommandFaults : Prop :=
  ∀ (s : State) (w : Word) (rest : List Word), s.fault = none → s.cmds = w :: rest →
    (illegalWord w → ∃ t, step s = .next t ∧
      t = { s with fault := some ⟨.illegalCommand, w, s.seq, s.u⟩, result := none, cmds := t.cmds }) ∧
    (¬ illegalWord w → ∀ t r, step s = .next t → t.fault = some r → r.kind ≠ .illegalCommand) ∧
    (∀ (core : BitVec 2) (tag : Word), 12 < tag.toNat →
      decode (encode (.getRate core tag)) = .ok (.getRate core tag, []) ∧
      decode (encode (.enable tag)) = .ok (.enable tag, []) ∧
      exec (.getRate core tag) s = .next { s with result := some (.err .unsupportedClock) } ∧
      exec (.enable tag) s = .next { s with result := some .unit })

/-- A few words written out from R91 and R93 decode to the commands they stand for (the words of V-EN). -/
def Obligations.WrittenWordsDecode : Prop :=
  decode [0x00000002, 0x00000104, 0x00000050] = .ok (.write32 0x104 0x50, []) ∧
  decode [0x00000105, 0x00000004, 0x00000100, 0x00004E20] = .ok (.waitBit true 0x4 0x100 20000, []) ∧
  decode [0x00000110, 0x00000027, 0x00000080] = .ok (.membusWrite .P 0x27 0x80, []) ∧
  decode [0x00000020, 0x00000050, 0x00100100] = .ok (.vcocalib 0x50 0x00100100, []) ∧
  decode [0x00000130] = .ok (.bringup .emulation .first, []) ∧
  decode [0x00000230, 0x00000140] = .ok (.bringup .real .later, [0x00000140]) ∧
  decode [0x00000C42, 0x00000000] = .ok (.getRate 3 0, [])

/-- A step runs the decoded command: when the words the caller has issued begin with a command, the step of a CORE
with no fault is that command's meaning, its words taken off the queue (R78, R90). -/
def Obligations.StepRunsDecodedCommand : Prop :=
  ∀ (s : State) (i : Instr) (rest : List Word), s.fault = none → decode s.cmds = .ok (i, rest) →
    step s = exec i { s with cmds := rest }

/-- The CORE starts nothing by itself: with no command, or with a command whose words are not all there, a step changes
nothing (R280; waiting for missing words is the model's choice, log 9). -/
def Obligations.WaitsForACommand : Prop :=
  ∀ s : State, s.fault = none →
    (s.cmds = [] → step s = .next s) ∧
    ∀ (i : Instr) (k : Nat), k < (encode i).length → s.cmds = (encode i).take k → step s = .next s

/-! ### Faults and results (R11, R93, R263, R264, R267) -/

/-- R264: a command that faults returns nothing, records its own command word with the `SEQ` and `u` it stopped in, and
undoes no bus transaction; a CORE that holds a fault record executes no later command and never clears the record. -/
def Obligations.FaultStopsTheCore : Prop :=
  (∀ (s : State) (r : FaultRecord), s.fault = some r → step s = .fault (.stopped r)) ∧
  ∀ (i : Instr) (s t : State) (r : FaultRecord), s.fault = none → exec i s = .next t → t.fault = some r →
    t.result = none ∧ r.word = i.cmdWord ∧ r.seq = t.seq ∧ r.u = t.u ∧ r.kind ≠ .illegalCommand ∧
    (∃ l, t.bus = l ++ s.bus) ∧ ∀ words, step { t with cmds := words } = .fault (.stopped r)

/-- Every command of a CORE with no fault either returns a result its opcode allows or records a fault, and takes no
words from the queue; a fault already recorded is never cleared (R93, R267). -/
def Obligations.ResultsAreTheOpcodesOwn : Prop :=
  ∀ (i : Instr) (s : State), ∃ t, exec i s = .next t ∧ t.cmds = s.cmds ∧
    (s.fault = none → (t.fault = none ∧ ∃ r, t.result = some r ∧ resultAllowed i r = true) ∨
      (t.fault ≠ none ∧ t.result = none)) ∧
    (s.fault ≠ none → t.fault ≠ none)

/-! ### Register access (R22, R23, R53, R54, R75, R120 to R124) -/

/-- What READ32 answers, by the class of the register its offset names, and InvalidOffset for every other offset
(R120). The clause on MEMSTAT is the model's reading: it answers the word the last completed read request left (R54) and
takes no draw, where R23 alone would make a read of a volatile register a draw (log 13). That one draw answers a read of
MEMPOLL whole, and which draw a read takes, is the model's choice too (log 5, log 6). -/
def Obligations.Read32ByRegisterClass : Prop :=
  ∀ s : State, s.params.laidOut = true →
    (∀ r : StoreReg, exec (.read32 (s.params.offset (.store r))) s = .next
      { s with bus := .read (s.addrOf (.store r)) (s.regs.get r) :: s.bus, result := some (.word (s.regs.get r)) }) ∧
    (∀ r : Reg, (r = .stat ∨ r = .intr ∨ (∃ b, r = .lostlock b) ∨ ∃ b, r = .mem b ∧ s.params.sharedPoll b = false) →
      exec (.read32 (s.params.offset r)) s = .next
        { s.skip 1 with bus := .read (s.addrOf r) (s.drawAt 0) :: s.bus, result := some (.word (s.drawAt 0)) }) ∧
    (∀ b : Bank, exec (.read32 (s.params.offset (.memstat b))) s = .next
      { s with
        bus := .read (s.addrOf (.memstat b)) (s.chan b).memstat :: s.bus
        result := some (.word (s.chan b).memstat) }) ∧
    (∀ b : Bank, (s.chan b).pending = none →
      let v := s.drawAt 0 &&& ~~~ s.params.mbxReq
      exec (.read32 (s.params.offset (.mempoll b))) s = .next
        { s.skip 1 with bus := .read (s.addrOf (.mempoll b)) v :: s.bus, result := some (.word v) }) ∧
    (∀ (b : Bank) (q : Request), (s.chan b).pending = some q →
      let v := s.drawAt 0
      let c := if v &&& s.params.mbxReq = 0 then (s.chan b).performed q else s.chan b
      exec (.read32 (s.params.offset (.mempoll b))) s = .next
        { (s.skip 1).setChan b c with
          bus := .read (s.addrOf (.mempoll b)) v :: s.bus
          result := some (.word v) }) ∧
    ∀ off : Word, (off.toNat % 4 ≠ 0 ∨ ∀ r, s.params.offset r ≠ off) →
      exec (.read32 off) s = .next (s.faulted .invalidOffset (.read32 off))

/-- R121: what WRITE32 does, by the class of the register its offset names, and InvalidOffset for every other offset. A
request met pending is performed or dropped, as a draw (R53). -/
def Obligations.Write32ByRegisterClass : Prop :=
  ∀ (s : State) (v : Word), s.params.laidOut = true →
    (∀ r : StoreReg, exec (.write32 (s.params.offset (.store r)) v) s = .next
      { s with regs := s.regs.set r v, bus := .write (s.addrOf (.store r)) v :: s.bus, result := some .unit }) ∧
    (∀ r : Reg, (r = .stat ∨ r = .intr ∨ (∃ b, r = .lostlock b) ∨ (∃ b, r = .memstat b) ∨
        ∃ b, r = .mempoll b ∧ s.params.sharedPoll b = false) →
      exec (.write32 (s.params.offset r) v) s = .next
        { s with bus := .write (s.addrOf r) v :: s.bus, result := some .unit }) ∧
    (∀ b : Bank, v &&& s.params.mbxReq = 0 → exec (.write32 (s.params.offset (.mem b)) v) s = .next
      { s with bus := .write (s.addrOf (.mem b)) v :: s.bus, result := some .unit }) ∧
    (∀ b : Bank, v &&& s.params.mbxReq ≠ 0 → (s.chan b).pending = none →
      exec (.write32 (s.params.offset (.mem b)) v) s = .next
        { s.setChan b { s.chan b with pending := some (requestRef s.params v) } with
          bus := .write (s.addrOf (.mem b)) v :: s.bus
          result := some .unit }) ∧
    (∀ (b : Bank) (q : Request), v &&& s.params.mbxReq ≠ 0 → (s.chan b).pending = some q →
      ∃ t c, exec (.write32 (s.params.offset (.mem b)) v) s = .next t ∧
        (c = (s.chan b).performed q ∨ c = s.chan b) ∧
        t = { s.setChan b { c with pending := some (requestRef s.params v) } with
          bus := .write (s.addrOf (.mem b)) v :: s.bus
          result := some .unit
          tape := t.tape
          drawn := t.drawn }) ∧
    ∀ off : Word, (off.toNat % 4 ≠ 0 ∨ ∀ r, s.params.offset r ≠ off) →
      exec (.write32 off v) s = .next (s.faulted .invalidOffset (.write32 off v))

/-- R122: at every valid offset SETBITS is READ32 and then WRITE32 of what was read with the mask's bits set. -/
def Obligations.SetBitsIsReadThenWrite : Prop :=
  ∀ (s : State) (off mask : Word),
    (∀ r : Reg, off.toNat % 4 = 0 → s.params.offset r = off → ∃ t v, exec (.read32 off) s = .next t ∧
      t.result = some (.word v) ∧ exec (.setBits off mask) s = exec (.write32 off (v ||| mask)) t) ∧
    ((off.toNat % 4 ≠ 0 ∨ ∀ r, s.params.offset r ≠ off) →
      exec (.setBits off mask) s = .next (s.faulted .invalidOffset (.setBits off mask)))

/-- R123: at every valid offset CLRBITS is READ32 and then WRITE32 of what was read with the mask's bits cleared. -/
def Obligations.ClrBitsIsReadThenWrite : Prop :=
  ∀ (s : State) (off mask : Word),
    (∀ r : Reg, off.toNat % 4 = 0 → s.params.offset r = off → ∃ t v, exec (.read32 off) s = .next t ∧
      t.result = some (.word v) ∧ exec (.clrBits off mask) s = exec (.write32 off (v &&& ~~~ mask)) t) ∧
    ((off.toNat % 4 ≠ 0 ∨ ∀ r, s.params.offset r ≠ off) →
      exec (.clrBits off mask) s = .next (s.faulted .invalidOffset (.clrBits off mask)))

/-- SETBITS and CLRBITS of a storage register: one read, one write, that register alone changed (R23, R58, R122, R123).
-/
def Obligations.SetClrBitsOfStorage : Prop :=
  ∀ (s : State) (r : StoreReg) (mask : Word), s.params.laidOut = true →
    exec (.setBits (s.params.offset (.store r)) mask) s = .next
      { s with
        regs := s.regs.set r (s.regs.get r ||| mask)
        bus := .write (s.addrOf (.store r)) (s.regs.get r ||| mask)
          :: .read (s.addrOf (.store r)) (s.regs.get r) :: s.bus
        result := some .unit } ∧
    exec (.clrBits (s.params.offset (.store r)) mask) s = .next
      { s with
        regs := s.regs.set r (s.regs.get r &&& ~~~ mask)
        bus := .write (s.addrOf (.store r)) (s.regs.get r &&& ~~~ mask)
          :: .read (s.addrOf (.store r)) (s.regs.get r) :: s.bus
        result := some .unit }

/-- A storage register reads back all 32 bits last written to it, whatever is written to another in between (R23, R45,
R58). -/
def Obligations.StorageReadsBack : Prop :=
  ∀ (s : State) (r r' : StoreReg) (v w : Word), s.params.laidOut = true → r' ≠ r →
    ∃ t₁ t₂ t₃, exec (.write32 (s.params.offset (.store r)) v) s = .next t₁ ∧
      exec (.write32 (s.params.offset (.store r')) w) t₁ = .next t₂ ∧
      exec (.read32 (s.params.offset (.store r))) t₂ = .next t₃ ∧ t₃.result = some (.word v) ∧
      ∀ x : StoreReg, x ≠ r → x ≠ r' → t₃.regs.get x = s.regs.get x

/-- R75: offsets are multiples of 4 in a layout the spec describes, and a register-access command whose offset is no
multiple of 4, or no register's, raises InvalidOffset before any bus transaction, all else unchanged. -/
def Obligations.InvalidOffsetFaults : Prop :=
  ∀ s : State,
    (s.params.laidOut = true → ∀ r, (s.params.offset r).toNat % 4 = 0) ∧
    ∀ off : Word, (off.toNat % 4 ≠ 0 ∨ ∀ r, s.params.offset r ≠ off) →
      ∀ (i : Instr) (v k : Word) (w : Bool),
        (i = .read32 off ∨ i = .write32 off v ∨ i = .setBits off v ∨ i = .clrBits off v ∨ i = .waitBit w off v k) →
        exec i s = .next { s with fault := some ⟨.invalidOffset, i.cmdWord, s.seq, s.u⟩, result := none }

/-- R124: WAITBIT with budget 0 is Timeout with no read; with a budget of one more it reads once, and returns if the
read meets its sense, else it goes on with the rest of the budget; an invalid offset raises InvalidOffset. -/
def Obligations.WaitBitIsABoundedPoll : Prop :=
  ∀ (s : State) (w : Bool) (off mask : Word),
    (∀ r : Reg, off.toNat % 4 = 0 → s.params.offset r = off →
      exec (.waitBit w off mask 0) s = .next { s with result := some (.err .timeout) } ∧
      ∀ n : Word, n ≠ 0 → ∃ t v, exec (.read32 off) s = .next t ∧ t.result = some (.word v) ∧
        (v &&& mask = (if w then mask else 0) →
          exec (.waitBit w off mask n) s = .next { t with result := some .unit }) ∧
        (v &&& mask ≠ (if w then mask else 0) →
          exec (.waitBit w off mask n) s = exec (.waitBit w off mask (n - 1)) t)) ∧
    ∀ n : Word, (off.toNat % 4 ≠ 0 ∨ ∀ r, s.params.offset r ≠ off) →
      exec (.waitBit w off mask n) s = .next (s.faulted .invalidOffset (.waitBit w off mask n))

/-- A WAITBIT on STAT, INTR or LOSTLOCK whose sense the draws first meet at the `k`-th read makes `k + 1` reads and
returns Ok; one whose sense no draw of its budget meets makes exactly its budget of reads and returns Timeout (R23,
R124; the draws' order by log 5). -/
def Obligations.WaitBitCountsItsReads : Prop :=
  ∀ (s : State) (r : Reg) (w : Bool) (mask n : Word), s.params.laidOut = true →
    (r = .stat ∨ r = .intr ∨ ∃ b, r = .lostlock b) →
    (∀ k : Nat, k < n.toNat → (∀ j, j < k → s.drawAt j &&& mask ≠ (if w then mask else 0)) →
      s.drawAt k &&& mask = (if w then mask else 0) →
      exec (.waitBit w (s.params.offset r) mask n) s = .next { s.afterReads r (k + 1) with result := some .unit }) ∧
    ((∀ j, j < n.toNat → s.drawAt j &&& mask ≠ (if w then mask else 0)) →
      exec (.waitBit w (s.params.offset r) mask n) s =
        .next { s.afterReads r n.toNat with result := some (.err .timeout) })

/-! ### The membus (R53, R54, R95, R96, R140 to R146) -/

/-- R95, R141: MEMBUS_WRITE (R140) writes the word of R95 to the mailbox and then polls the status mirror for REQ clear
within the membus budget, whatever was pending. -/
def Obligations.MembusWriteIsMailboxThenPoll : Prop :=
  ∀ (s : State) (b : Bank) (a d : Word), s.params.accepted = true → s.params.laidOut = true →
    ∃ t, exec (.write32 (s.params.offset (.mem b)) (s.params.mbxReq ||| s.params.mbxWr |||
        (d <<< s.params.mbxWdatShift) ||| ((a ||| s.params.mbxStart) &&& s.params.mbxAddrMask))) s = .next t ∧
      exec (.membusWrite b a d) s =
        exec (.waitBit false (s.params.offset (.mempoll b)) s.params.mbxReq
          (BitVec.ofNat 32 s.params.membusBudget)) t

/-- R96: MEMBUS_READ (R142) writes the word of R96 to the mailbox, polls, and reads memstat only when the poll ends in time. -/
def Obligations.MembusReadIsMailboxPollMemstat : Prop :=
  ∀ (s : State) (b : Bank) (a : Word), s.params.accepted = true → s.params.laidOut = true →
    ∃ t u, exec (.write32 (s.params.offset (.mem b))
        (s.params.mbxReq ||| ((a ||| s.params.mbxStart) &&& s.params.mbxAddrMask))) s = .next t ∧
      exec (.waitBit false (s.params.offset (.mempoll b)) s.params.mbxReq
        (BitVec.ofNat 32 s.params.membusBudget)) t = .next u ∧
      (u.result = some (.err .timeout) → exec (.membusRead b a) s = .next u) ∧
      (u.result = some .unit → exec (.membusRead b a) s = exec (.read32 (s.params.offset (.memstat b))) u) ∧
      (u.result = some (.err .timeout) ∨ u.result = some .unit)

/-- A MEMBUS_WRITE with nothing pending whose `k`-th poll is the first to read REQ clear stores its request's data and
returns Ok after `k + 1` polls; data that fit `P_CAL_W` bits are stored at the address of R95 (R53, R54, R140; the
draws' order and the drawn REQ as `done` by log 5 and log 6). -/
def Obligations.MembusWriteStores : Prop :=
  ∀ (s : State) (b : Bank) (a d : Word) (k : Nat), s.params.accepted = true → (s.chan b).pending = none →
    k < s.params.membusBudget → (∀ j, j < k → s.drawAt j &&& s.params.mbxReq ≠ 0) →
    s.drawAt k &&& s.params.mbxReq = 0 →
    let w := s.params.mbxW a d
    let q := requestRef s.params w
    exec (.membusWrite b a d) s = .next
      { (s.skip (k + 1)).setChan b { s.chan b with cal := (s.chan b).cal.write q.a.toNat q.d, pending := none } with
        bus := (List.range (k + 1)).reverse.map (fun j => .read (s.addrOf (.mempoll b)) (s.drawAt j))
          ++ .write (s.addrOf (.mem b)) w :: s.bus
        result := some .unit } ∧
    (d &&& ~~~ s.params.calMask = 0 → q = ⟨true, (a ||| s.params.mbxStart) &&& s.params.mbxAddrMask, d⟩)

/-- A MEMBUS_READ with nothing pending whose `k`-th poll is the first to read REQ clear returns the calibration word at
its address, which memstat then holds (R54, R96, R142; draws by log 5 and log 6). -/
def Obligations.MembusReadReturns : Prop :=
  ∀ (s : State) (b : Bank) (a : Word) (k : Nat), s.params.accepted = true → (s.chan b).pending = none →
    k < s.params.membusBudget → (∀ j, j < k → s.drawAt j &&& s.params.mbxReq ≠ 0) →
    s.drawAt k &&& s.params.mbxReq = 0 →
    let v := (s.chan b).cal.read ((a ||| s.params.mbxStart) &&& s.params.mbxAddrMask).toNat
    exec (.membusRead b a) s = .next
      { (s.skip (k + 1)).setChan b { s.chan b with memstat := v, pending := none } with
        bus := .read (s.addrOf (.memstat b)) v
          :: (List.range (k + 1)).reverse.map (fun j => .read (s.addrOf (.mempoll b)) (s.drawAt j))
          ++ .write (s.addrOf (.mem b)) (s.params.mbxR a) :: s.bus
        result := some (.word v) }

/-- A membus request met by no done within its budget returns Timeout after exactly that many polls and stays pending;
memstat is not read and the calibration memory is untouched (R61, R140, R142; draws by log 5 and log 6). -/
def Obligations.MembusTimeoutLeavesRequestPending : Prop :=
  ∀ (s : State) (b : Bank) (a d : Word), s.params.accepted = true → (s.chan b).pending = none →
    (∀ j, j < s.params.membusBudget → s.drawAt j &&& s.params.mbxReq ≠ 0) →
    let n := s.params.membusBudget
    let polls := (List.range n).reverse.map (fun j => Txn.read (s.addrOf (.mempoll b)) (s.drawAt j))
    exec (.membusWrite b a d) s = .next
      { (s.skip n).setChan b { s.chan b with pending := some (requestRef s.params (s.params.mbxW a d)) } with
        bus := polls ++ .write (s.addrOf (.mem b)) (s.params.mbxW a d) :: s.bus
        result := some (.err .timeout) } ∧
    exec (.membusRead b a) s = .next
      { (s.skip n).setChan b { s.chan b with
          pending := some ⟨false, (a ||| s.params.mbxStart) &&& s.params.mbxAddrMask, 0⟩ } with
        bus := polls ++ .write (s.addrOf (.mem b)) (s.params.mbxR a) :: s.bus
        result := some (.err .timeout) }

/-- What a membus command leaves alone: everything but its bank's membus side, the draws, the bus log and the result.
It writes only its bank's mailbox (R71, R146). -/
def Obligations.MembusCommandsTouchOneBank : Prop :=
  ∀ (s : State) (b b' : Bank) (a d : Word) (i : Instr),
    (i = .membusWrite b a d ∨ i = .membusRead b a ∨ i = .applyCaltable b) → b' ≠ b →
    ∃ t, exec i s = .next t ∧ t.params = s.params ∧ t.cfg = s.cfg ∧ t.regs = s.regs ∧ t.chan b' = s.chan b' ∧
      t.seq = s.seq ∧ t.u = s.u ∧ t.diag = s.diag ∧ t.fault = s.fault ∧ t.cmds = s.cmds ∧
      ∃ l, t.bus = l ++ s.bus ∧ ∀ x ∈ l, x.isRead = false → ∃ v, x = .write (s.addrOf (.mem b)) v

/-- APPLY_CALTABLE with every poll done at its first read: two mailbox writes for each entry, the table's words stored
in order, Ok returned (R144; draws by log 5 and log 6). -/
def Obligations.ApplyCaltableAppliesTheTable : Prop :=
  ∀ (s : State) (b : Bank), s.params.accepted = true → (s.chan b).pending = none → 0 < s.params.membusBudget →
    (∀ j, j < 2 * s.params.calTable.length → s.drawAt j &&& s.params.mbxReq = 0) →
    ∃ t, exec (.applyCaltable b) s = .next t ∧ t.result = some .unit ∧
      (t.chan b).cal = tableImage s.params s.params.calTable (s.chan b).cal ∧ (t.chan b).pending = none ∧
      t.tape = (s.skip (2 * s.params.calTable.length)).tape ∧
      t.drawn = (s.skip (2 * s.params.calTable.length)).drawn ∧ t.regs = s.regs ∧
      ∃ l, t.bus = l ++ s.bus ∧ l.length = 5 * s.params.calTable.length ∧
        (l.filter (fun x => !x.isRead)).length = 2 * s.params.calTable.length

/-- How APPLY_CALTABLE ends, whatever the draws and whatever was pending. An empty table is applied with no access. A
table is either applied whole, with nothing left pending, or stopped at its first timed-out request, a read or a write:
the entries before it applied, the ones after it untouched, that request pending and its poll the last thing on the bus
(R144, R146, R61; V-MB-7). `m₀` is the memory the first request finds: a request pending before it is performed or dropped
(R53). A first read met by no done ends the command as that read does (draws by log 5 and log 6). -/
def Obligations.ApplyCaltableStopsAtATimeout : Prop :=
  ∀ (s : State) (b : Bank), s.params.accepted = true →
    (s.params.calTable = [] → exec (.applyCaltable b) s = .next { s with result := some .unit }) ∧
    (∀ (e : CalEntry) (es : List CalEntry), s.params.calTable = e :: es → (s.chan b).pending = none →
      (∀ j, j < s.params.membusBudget → s.drawAt j &&& s.params.mbxReq ≠ 0) →
      exec (.applyCaltable b) s = exec (.membusRead b e.addrOffset) s) ∧
    ∃ (t : State) (m₀ : Memory), exec (.applyCaltable b) s = .next t ∧ t.regs = s.regs ∧
      ((s.chan b).pending = none → m₀ = (s.chan b).cal) ∧
      (∀ q, (s.chan b).pending = some q → m₀ = (s.chan b).cal ∨ m₀ = ((s.chan b).performed q).cal) ∧
      ((t.result = some .unit ∧ (s.params.calTable ≠ [] →
          (t.chan b).cal = tableImage s.params s.params.calTable m₀ ∧ (t.chan b).pending = none)) ∨
        (t.result = some (.err .timeout) ∧ (t.chan b).pending ≠ none ∧ s.tableStops b s.params.calTable m₀ t))

/-- Applying the table twice, every request in time, leaves the calibration memory as applying it once does, for tables
whose values fit a calibration word (R145, which the spec derives from R140, R142 and R144). -/
def Obligations.TableIsIdempotent : Prop :=
  ∀ (s t u : State) (b : Bank), s.params.accepted = true → tableFits s.params = true →
    Membus.ok s.params (s.chan b) = true → (s.chan b).pending = none →
    exec (.applyCaltable b) s = .next t → t.result = some .unit →
    exec (.applyCaltable b) t = .next u → u.result = some .unit →
    (t.chan b).cal = tableRef s.params s.params.calTable (s.chan b).cal ∧ (u.chan b).cal = (t.chan b).cal

/-! ### The VCO calibration calculator (R160 to R163) -/

/-- VCOCALIB's calibration word, or DivideByZero, with no bus transaction (R160, R161). A configuration whose HSCNT field
is not at bit 0 is refused, which the spec derives (R161); that only construction refuses it, and the formula is stated
for such a configuration too, is the model's reading (log 16). -/
def Obligations.VcocalibComputes : Prop :=
  (∀ (p : Params) (c : BringUpConfig) (a : Nat), p.fields.hscnt.lsb ≠ 0 →
    construct (some a) p c = .refused .configuration) ∧
  ∀ (s : State) (pllm pllglob : Word),
    let f := s.params.fields
    let mdiv := f.mdiv.get pllm
    let two := BitVec.ofNat 32 (2 ^ (f.drefclkdiv.get pllglob).toNat)
    let ref := f.refclkdiv.get pllglob
    let mscnt := BitVec.ofNat 32 (max 1 (s.params.mscntConst.toNat / (mdiv * two).toNat))
    let hscnt := BitVec.ofNat 32 ((mdiv * mscnt * two).toNat / ref.toNat) - s.params.hscntConst
    ((mdiv * two = 0 ∨ ref = 0) →
      exec (.vcocalib pllm pllglob) s = .next (s.faulted .divideByZero (.vcocalib pllm pllglob))) ∧
    (mdiv * two ≠ 0 → ref ≠ 0 → exec (.vcocalib pllm pllglob) s = .next
      { s with
        result := some (.word ((hscnt &&& f.hscnt.mask) ||| ((mscnt <<< f.mscnt.lsb) &&& f.mscnt.mask))) })

/-- VCOCALIB depends on its operands and the parameters alone; for every valid input it returns a word and its `mscnt` is
at least 1 (R163, which the spec derives from R160). -/
def Obligations.VcocalibIsPure : Prop :=
  ∀ (s s' : State) (pllm pllglob : Word), s'.params = s.params →
    (∀ t t', exec (.vcocalib pllm pllglob) s = .next t → exec (.vcocalib pllm pllglob) s' = .next t' →
      t'.result = t.result) ∧
    ((s.params.fields.mdiv.get pllm * BitVec.ofNat 32 (2 ^ (s.params.fields.drefclkdiv.get pllglob).toNat)) ≠ 0 →
      s.params.fields.refclkdiv.get pllglob ≠ 0 →
      (∃ v, exec (.vcocalib pllm pllglob) s = .next { s with result := some (.word v) }) ∧
      1 ≤ (vcoMscnt s.params pllm pllglob).toNat)

/-- The A-ref divider has no effect on VCOCALIB's result (R160's corner case, which the spec derives from the formula). -/
def Obligations.VcocalibIgnoresAref : Prop :=
  ∀ (s t t' : State) (pllm pllglob x : Word), s.params.laidOut = true →
    exec (.vcocalib pllm pllglob) s = .next t →
    exec (.vcocalib pllm (s.params.fields.arefclkdiv.put pllglob x)) s = .next t' → t' = t

/-! ### The bring-up sequencer (R170 to R199) -/

/-- A run that raises no fault completes, whatever the waits returned (R196). The premise on the calibration is that step
4 does not divide by zero (R180). Every timeout noted is one of the run's own waits, in order (R48, R133, R187). The
micro-step at the end is the model's choice (log 14). -/
def Obligations.BringupCompletesWhateverTheWaits : Prop :=
  ∀ (s : State) (mode : Mode) (stage : Stage), s.params.laidOut = true →
    (mode = .real → ∀ b, vcoWord s.params (s.cfg.bank b).pllm (s.cfg.bank b).pllglob ≠ none) →
    ∃ t, exec (.bringup mode stage) s = .next t ∧ t.result = some .unit ∧ t.fault = s.fault ∧ t.u = 0 ∧
      t.params = s.params ∧ t.cfg = s.cfg ∧ t.cmds = s.cmds ∧
      (t.seq = .done ∨ (t.seq = .skipped ∧ mode = .real ∧ stage = .later)) ∧
      t.diag.Sublist (match mode with | .real => mayNoteReal | .emulation => mayNoteEmulation)

/-- R176: a later-stage run with boot mode off reads CTRL once, writes nothing and skips; with boot mode on it runs from
`S2`, CTRL as it was until step 14. -/
def Obligations.LaterStageSkipsOutsideBootMode : Prop :=
  ∀ s : State,
    (s.params.fields.ctrlBootmode.get s.regs.ctrl = 0 → ∃ t, exec (.bringup .real .later) s = .next t ∧
      t = { s with
        seq := .skipped
        u := t.u
        diag := []
        bus := .read (s.addrOf (.store .ctrl)) s.regs.ctrl :: s.bus
        result := some .unit }) ∧
    (s.params.fields.ctrlBootmode.get s.regs.ctrl ≠ 0 → ∀ v,
      runStates [.s2, .s3, .s4, .s5, .s6, .s7, .s8, .s9, .s10, .s11, .s12, .s13, .s14]
        { s with
          seq := .s1
          u := 0
          diag := []
          bus := .read (s.addrOf (.store .ctrl)) s.regs.ctrl :: s.bus } = .ok () v →
      ∃ t, exec (.bringup .real .later) s = .next t ∧ t = { v with seq := .done, u := t.u, result := some .unit })

/-- The storage registers after a real-path run, for a first stage and for a later stage in boot mode; CTRL keeps its
other fields as R177 and R195 leave them, and boot mode and the hold-in-reset bits are off (R199, which the spec derives
from R179 to R195). -/
def Obligations.RealPathEndState : Prop :=
  ∀ (s t : State) (stage : Stage) (vcM vcP : Word), s.params.laidOut = true →
    (stage = .later → s.params.fields.ctrlBootmode.get s.regs.ctrl ≠ 0) →
    vcoWord s.params s.cfg.main.pllm s.cfg.main.pllglob = some vcM →
    vcoWord s.params s.cfg.peri.pllm s.cfg.peri.pllglob = some vcP →
    exec (.bringup .real stage) s = .next t →
    t.regs = realEnd s.params s.cfg vcM vcP (decide (stage = .first)) s.regs ∧
    s.params.fields.ctrlBootmode.get t.regs.ctrl = 0 ∧ t.regs.cntrst &&& s.params.allCntRst = 0 ∧ t.seq = .done

/-- R171, R173, R174: what an emulation run leaves, whatever the waits returned and whichever the stage: both banks
powered up and out of reset, bypass clear, no other storage register and no calibration memory touched. -/
def Obligations.EmulationEndState : Prop :=
  ∀ (s : State) (stage : Stage), s.params.laidOut = true →
    ∃ t, exec (.bringup .emulation stage) s = .next t ∧ t.regs = emulationEnd s.params s.regs ∧
      (∀ b, t.chan b = s.chan b) ∧ t.seq = .done ∧ t.result = some .unit ∧
      exec (.bringup .emulation .first) s = .next t

/-- An emulation run whose five waits are met at their first reads makes the 13 transactions of R171 to R174, in order,
and notes nothing (R131, R170; V-BU-1; the draws' order by log 5, the micro-step at the end by log 14). -/
def Obligations.EmulationTransactions : Prop :=
  ∀ (s : State) (stage : Stage), s.params.laidOut = true →
    s.drawAt 0 &&& s.params.fields.statLocked.mask = s.params.fields.statLocked.mask →
    (∀ j, 1 ≤ j → j < 5 → s.drawAt j &&& s.params.fields.statBusy.mask = 0) →
    let rst := s.params.fields.pd.mask ||| s.params.fields.rst.mask
    let gM := s.regs.get (.bank .M .pllglob)
    let gP := s.regs.get (.bank .P .pllglob)
    let stat := s.addrOf .stat
    let byp := fun b => s.addrOf (.store (.bank b .bypass))
    exec (.bringup .emulation stage) s = .next
      { s.skip 5 with
        regs := emulationEnd s.params s.regs
        seq := .done
        u := 0
        diag := []
        result := some .unit
        bus := [.read stat (s.drawAt 4), .write (byp .P) 0, .read stat (s.drawAt 3), .write (byp .M) 0,
          .read stat (s.drawAt 2), .write (byp .P) s.params.bypassAll, .read stat (s.drawAt 1),
          .write (byp .M) s.params.bypassAll, .read stat (s.drawAt 0),
          .write (s.addrOf (.store (.bank .P .pllglob))) (gP ||| rst),
          .read (s.addrOf (.store (.bank .P .pllglob))) gP,
          .write (s.addrOf (.store (.bank .M .pllglob))) (gM ||| rst),
          .read (s.addrOf (.store (.bank .M .pllglob))) gM] ++ s.bus }

/-- Determinism (R198, which the spec derives from R176 to R195): two runs with the same parameters, BringUpConfig and storage registers leave the same storage registers, end
in the same sequencer state and agree on result and fault, whatever the draws, the calibration memories and the pending
requests. -/
def Obligations.BringupIsDeterministic : Prop :=
  ∀ (s s' t t' : State) (mode : Mode) (stage : Stage), s'.params = s.params → s'.cfg = s.cfg → s'.regs = s.regs →
    s'.fault = s.fault → exec (.bringup mode stage) s = .next t → exec (.bringup mode stage) s' = .next t' →
    t'.regs = t.regs ∧ t'.seq = t.seq ∧ t'.u = t.u ∧ t'.result = t.result ∧ t'.fault = t.fault

/-- Steps 2 and 3 put both banks into reset: powered down, reset asserted, bypass forced, before step 4 writes a
divider (R44, R178, R179, R284). -/
def Obligations.BanksEnterReset : Prop :=
  ∀ s : State, s.params.laidOut = true →
    ∃ t, runStates [.s2, .s3] s = .ok () t ∧ t.params = s.params ∧ t.inReset .M ∧ t.inReset .P

/-- From any state that steps 2 to 5 complete in, both banks are still held in reset, and their VCO calibration,
multiplier, feedback and slice values are staged (R162, R180, R181, R286, R287). -/
def Obligations.StagedBeforeReset : Prop :=
  ∀ (s t : State) (b : Bank) (vc : Word), s.params.laidOut = true →
    runStates [.s2, .s3, .s4, .s5] s = .ok () t →
    vcoWord s.params (s.cfg.bank b).pllm (s.cfg.bank b).pllglob = some vc →
    s.params.fields.rst.get (t.regs.get (.bank b .pllglob)) = 0 ∧
      t.regs.get (.bank b .bypass) = s.params.bypassAll ∧ t.regs.get (.bank b .vcocalib) = vc ∧
      t.regs.get (.bank b .pllm) = (s.cfg.bank b).pllm ∧ t.regs.get (.bank b .fdbck) = (s.cfg.bank b).fdbck ∧
      (∀ k, t.regs.get (.bank b (.pllc k)) = (s.cfg.bank b).pllc k) ∧
      ∀ g, t.regs.get (.gate g) = s.cfg.gates.get g

/-- A run that ends at DONE leaves both banks powered up, out of reset and with bypass clear (R44, R47, R199). -/
def Obligations.BanksRunAtTheEnd : Prop :=
  ∀ (s t : State) (mode : Mode) (stage : Stage) (b : Bank), s.params.laidOut = true → s.fault = none →
    exec (.bringup mode stage) s = .next t → t.fault = none → t.seq = .done → t.runningRegs b

/-- A configuration whose calibration divides by zero stops a real-path run in `S4`, in either stage, before any write of
that bank (R180, R264). When it is the main bank's, every storage register is as steps 1 to 3 leave it and they alone are
on the bus; when it is the peripheral bank's, the main bank's ten writes of `S4` stand and no other does. Nothing is
returned, no membus side is touched, no transaction is undone, and a bank that is not staged is still in reset. The
micro-step the record holds counts the writes made in `S4` (log 14). -/
def Obligations.UndefinedCalibrationStopsStepFour : Prop :=
  ∀ (s : State) (stage : Stage), s.params.laidOut = true → s.fault = none →
    (stage = .later → s.params.fields.ctrlBootmode.get s.regs.ctrl ≠ 0) →
    let first := decide (stage = .first)
    let before := resetEnd s.params first s.regs
    let stops := fun (u : Nat) (regs : StoreFile) (made : List Stretch) (inReset : List Bank) =>
      ∃ t l, exec (.bringup .real stage) s = .next t ∧
        t.fault = some ⟨.divideByZero, if first then 0x30 else 0x230, .s4, u⟩ ∧ t.seq = .s4 ∧ t.u = u ∧
        t.result = none ∧ t.regs = regs ∧ (∀ b, t.chan b = s.chan b) ∧ (∀ b ∈ inReset, t.inReset b) ∧
        t.bus = l.reverse ++ s.bus ∧ s.made made l
    (vcoWord s.params s.cfg.main.pllm s.cfg.main.pllglob = none →
      stops 0 before (resetTraffic s.params first s.regs) [.M, .P]) ∧
    (∀ vc, vcoWord s.params s.cfg.main.pllm s.cfg.main.pllglob = some vc →
      vcoWord s.params s.cfg.peri.pllm s.cfg.peri.pllglob = none →
      stops 10
        { before with main := bankStaged s.params s.cfg.main vc, nocclk := s.cfg.nocclk, nocdiv := s.cfg.nocdiv }
        (resetTraffic s.params first s.regs ++ mainStretch s.params s.cfg vc) [.P])

/-- R131: in the bus traffic of every bring-up, a write of a bypass register or of CTRL is followed at once by a busy
wait: reads of STAT, at least one and at most 20000, every one but the last with BUSY set, and the last with BUSY clear
unless there are 20000 of them. -/
def Obligations.BypassAndControlWritesAreWaitedFor : Prop :=
  ∀ (s t : State) (mode : Mode) (stage : Stage) (l : List Txn), s.params.laidOut = true → s.busDistinct →
    exec (.bringup mode stage) s = .next t → t.bus = l ++ s.bus →
    ∀ (k : Nat) (r : Reg) (v : Word), r ∈ transitionRegs → l.reverse[k]? = some (.write (s.addrOf r) v) →
      ∃ (vs : List Word) (rest : List Txn),
        l.reverse.drop (k + 1) = vs.map (Txn.read (s.addrOf .stat)) ++ rest ∧ 0 < vs.length ∧ vs.length ≤ 20000 ∧
        (∀ x ∈ vs.dropLast, x &&& s.params.fields.statBusy.mask ≠ 0) ∧
        (vs.length = 20000 ∨ ∃ x, vs.getLast? = some x ∧ x &&& s.params.fields.statBusy.mask = 0)

/-- R130, R132, R133: the sequencer's busy-wait and lock wait are the WAITBIT commands of R130 and R132; a Timeout is
noted in `DIAG` and the sequencer goes on. -/
def Obligations.SequencerWaitsAreWaitBits : Prop :=
  ∀ s : State, s.params.laidOut = true →
    (∃ t, exec (.waitBit false (s.params.offset .stat) s.params.fields.statBusy.mask 20000) s = .next t ∧
      (t.result = some .unit → s.busyWait = .ok () { t with result := s.result }) ∧
      (t.result = some (.err .timeout) →
        s.busyWait = .ok () { t with result := s.result, diag := s.diag ++ [⟨s.seq, s.u, .busyWait⟩] }) ∧
      (t.result = some .unit ∨ t.result = some (.err .timeout))) ∧
    (∃ t, exec (.waitBit true (s.params.offset .stat) s.params.fields.statLocked.mask 20000) s = .next t ∧
      (t.result = some .unit → s.lockWait = .ok () { t with result := s.result }) ∧
      (t.result = some (.err .timeout) →
        s.lockWait = .ok () { t with result := s.result, diag := s.diag ++ [⟨s.seq, s.u, .lockWait⟩] }) ∧
      (t.result = some .unit ∨ t.result = some (.err .timeout)))

/-! ### The rate engine (R220 to R242) -/

/-- R220: VCO_HZ, its reads and its value, 0 for an unrecognised source, DivideByZero for a zero A-ref divider. -/
def Obligations.VcoHzComputes : Prop :=
  ∀ (s : State) (b : Bank),
    let f := s.params.fields
    let g := s.regs.get (.bank b .pllglob)
    let src := f.psrc.get g
    let a := (f.arefclkdiv.get g).toNat
    let m := s.regs.get (.bank b .pllm)
    let readG := Txn.read (s.addrOf (.store (.bank b .pllglob))) g
    let readM := Txn.read (s.addrOf (.store (.bank b .pllm))) m
    (src ≠ s.params.psrc.eosc → src ≠ s.params.psrc.intosc → src ≠ s.params.psrc.fpga →
      exec (.vcoHz b) s = .next { s with bus := readG :: s.bus, result := some (.hz 0) }) ∧
    ∀ osc : Hz,
      (src = s.params.psrc.eosc ∧ osc = s.params.oscHz ∨
        src = s.params.psrc.intosc ∧ src ≠ s.params.psrc.eosc ∧ osc = s.params.intoscHz ∨
        src = s.params.psrc.fpga ∧ src ≠ s.params.psrc.eosc ∧ src ≠ s.params.psrc.intosc ∧ osc = s.params.fpgaHz) →
      (a = 0 → exec (.vcoHz b) s = .next
        { s with
          bus := readG :: s.bus
          result := none
          fault := some ⟨.divideByZero, Instr.cmdWord (.vcoHz b), s.seq, s.u⟩ }) ∧
      (a ≠ 0 → exec (.vcoHz b) s = .next
        { s with
          bus := readM :: readG :: s.bus
          result := some (.hz (BitVec.ofNat 64 (osc.toNat / a * (f.mdiv.get m).toNat))) })

/-- CLKSRC_HZ of a selector and two counters: its reads in order, its value or DivideByZero, and InvalidOffset before any
read for an operand that names no register with the needed field (R221; which registers have the field by log 17). -/
def Obligations.ClksrcHzComputes : Prop :=
  ∀ s : State, s.params.laidOut = true →
    (∀ (sel : SelReg) (m c : CntReg),
      let i : Instr := .clksrcHz (s.params.offset (.store sel.reg)) (s.params.offset (.store m.reg))
        (s.params.offset (.store c.reg))
      exec i s = .next (s.rated i (clksrcRef s.params s.regs sel m c) (clksrcReads s.params s.regs sel m c))) ∧
    ∀ a0 a1 a2 : Word,
      ((∀ sel : SelReg, s.params.offset (.store sel.reg) ≠ a0) ∨ (∀ m : CntReg, s.params.offset (.store m.reg) ≠ a1) ∨
        ∀ c : CntReg, s.params.offset (.store c.reg) ≠ a2) →
      exec (.clksrcHz a0 a1 a2) s = .next (s.faulted .invalidOffset (.clksrcHz a0 a1 a2))

/-- R225 and R228 to R239: GET_RATE of every tag. A tag above 12 is UnsupportedClock before any access; every other one
answers the rate of its identity, reading exactly the registers its derivation names, in order, and writing nothing. -/
def Obligations.GetRateRefinesTheDerivations : Prop :=
  ∀ (s : State) (core : BitVec 2) (tag : Word),
    (12 < tag.toNat →
      exec (.getRate core tag) s = .next { s with result := some (.err .unsupportedClock) }) ∧
    ∀ (k : Nat) (c : Clock), tag.toNat = k → [Clock.mpu, .l4main, .l4mp, .l4sp, .l4sysfree, .sdmmc, .emac .e0, .emac .e1,
        .emac .e2, .emacptp, .usb, .nand, .nandx][k]? = some c →
      exec (.getRate core tag) s =
        .next (s.rated (.getRate core tag) (rateRef s.params s.regs core c) (rateReads s.params s.regs core c))

/-- The commands that write nothing: VCO_HZ, CLKSRC_HZ and GET_RATE only read the register window, VCOCALIB and ENABLE
make no access at all, and none changes a register, a membus side, a draw or the sequencer (R71). -/
def Obligations.QueriesOnlyRead : Prop :=
  ∀ (s : State) (i : Instr),
    ((∃ b, i = .vcoHz b) ∨ (∃ x y z, i = .clksrcHz x y z) ∨ (∃ c x, i = .getRate c x) ∨ (∃ x y, i = .vcocalib x y) ∨
      ∃ x, i = .enable x) →
    ∃ t l, exec i s = .next t ∧ t = { s with bus := l ++ s.bus, result := t.result, fault := t.fault } ∧
      (∀ x ∈ l, x.isRead = true) ∧ (((∃ x y, i = .vcocalib x y) ∨ ∃ x, i = .enable x) → l = [])

/-- Every divisor of the rate engine but the A-ref divider is at least 1, in the machine's own arithmetic too, and a query
faults only where a recognised source meets a zero A-ref divider (R240, which the spec derives from R220 to R239). -/
def Obligations.RateDivisorsAreSafe : Prop :=
  ∀ s : State, s.params.accepted = true →
    (∀ cnt : Word, 1 ≤ (1 + toHz cnt).toNat) ∧
    1 ≤ s.params.sdmmcDiv ∧ 1 ≤ s.params.sysfreeDivBoot ∧ 1 ≤ s.params.sysfreeDivRun ∧ 1 ≤ s.params.rateUsb.d ∧
    1 ≤ s.params.rateNand.d ∧ 1 ≤ s.params.rateNandx.d ∧
    ∀ (core : BitVec 2) (tag : Word) (t : State), s.fault = none → exec (.getRate core tag) s = .next t →
      t.fault ≠ none →
      ∃ b, s.params.vcoSource (s.params.fields.psrc.get (s.regs.get (.bank b .pllglob))) ≠ none ∧
        s.params.fields.arefclkdiv.get (s.regs.get (.bank b .pllglob)) = 0

/-- CLKSRC_HZ, code by code: each of the five selector codes reaches its own case, and every other code the
0 result (R242, which the spec derives from R221). A PLL code divides what VCO_HZ of its bank answers by `1 + cnt` of its
counter, read last, or takes VCO_HZ's fault; an oscillator code answers its oscillator's rate with no further read. -/
def Obligations.EverySelectorCodeHasItsCase : Prop :=
  ∀ (s : State) (sel : SelReg) (m c : CntReg), s.params.accepted = true → s.params.laidOut = true →
    let i : Instr := .clksrcHz (s.params.offset (.store sel.reg)) (s.params.offset (.store m.reg))
      (s.params.offset (.store c.reg))
    let w := s.regs.get sel.reg
    let code := (sel.field s.params).get w
    let asked : State := { s with bus := .read (s.addrOf (.store sel.reg)) w :: s.bus }
    let pll := fun (b : Bank) (k : CntReg) => ∃ t, exec (.vcoHz b) asked = .next t ∧
      ((t.result = none ∧ exec i s = .next { t with fault := some ⟨.divideByZero, i.cmdWord, s.seq, s.u⟩ }) ∨
        ∃ f, t.result = some (.hz f) ∧ exec i s = .next
          { t with
            bus := .read (s.addrOf (.store k.reg)) (s.regs.get k.reg) :: t.bus
            result := some (.hz
              (BitVec.ofNat 64 (f.toNat / (1 + ((k.field s.params).get (s.regs.get k.reg)).toNat)))) })
    (code = s.params.sel.main → pll .M m) ∧ (code = s.params.sel.peri → pll .P c) ∧
    (code = s.params.sel.eosc → exec i s = .next { asked with result := some (.hz s.params.oscHz) }) ∧
    (code = s.params.sel.intosc → exec i s = .next { asked with result := some (.hz s.params.intoscHz) }) ∧
    (code = s.params.sel.fpga → exec i s = .next { asked with result := some (.hz s.params.fpgaHz) }) ∧
    (code ∉ [s.params.sel.main, s.params.sel.peri, s.params.sel.eosc, s.params.sel.intosc, s.params.sel.fpga] →
      exec i s = .next { asked with result := some (.hz 0) })

/-- R241: ENABLE returns Ok for every tag and changes nothing else. -/
def Obligations.EnableAlwaysSucceeds : Prop :=
  ∀ (s : State) (tag : Word), exec (.enable tag) s = .next { s with result := some .unit }

/-! ### The machine (R20, R21, R46, R58, R78, R81, R98, R262, R280) -/

/-- R280: the CORE after reset, whatever its inputs; it starts no operation by itself, and the first thing it does is the
first command the caller issues. -/
def Obligations.ResetLeavesAnIdleCore : Prop :=
  ∀ s : State, (s = State.reset ∨ ∃ p c, s = State.resetWith p c) →
    s.seq = .idle ∧ s.u = 0 ∧ s.diag = [] ∧ s.fault = none ∧ s.bus = [] ∧ step s = .next s ∧
    ∀ (words rest : List Word) (i : Instr), decode words = .ok (i, rest) →
      step { s with cmds := words } = exec i { s with cmds := rest }

/-- R98, R262: construction without a base address answers InvalidAddress and no CORE; a configuration whose mailbox
parameters overlap is refused; an accepted one answers a CORE with the base it was given. -/
def Obligations.ConstructionChecksItsInputs : Prop :=
  ∀ (p : Params) (c : BringUpConfig) (a : Nat),
    construct none p c = .err .invalidAddress ∧
    (((∀ k : Nat, k < 32 → p.mbxReq ≠ 1#32 <<< k) ∨ (∀ k : Nat, k < 32 → p.mbxWr ≠ 1#32 <<< k) ∨ p.mbxReq = p.mbxWr ∨
        p.mbxReq &&& p.mbxAddrMask ≠ 0 ∨ p.mbxWr &&& p.mbxAddrMask ≠ 0 ∨ p.mbxReq &&& p.dataField ≠ 0 ∨ p.mbxWr &&& p.dataField ≠ 0 ∨ p.dataField &&& p.mbxAddrMask ≠ 0) →
      construct (some a) p c = .refused .configuration) ∧
    (p.accepted = true → construct (some a) p c = .core (State.resetWith { p with base := a } c))

/-- The invariant of Sys2Proof/Safety.lean: canonical calibration memories of words that fit, pending requests as R53
makes them, an accepted configuration, and a sequencer at rest between commands. Every step keeps it. The canonical form of
a memory is the model's choice (log 18), and so is that `u` is 0 at `DONE` and `SKIPPED` (log 14). -/
def Obligations.StepKeepsInv : Prop := ∀ s t : State, s.Inv → step s = .next t → t.Inv

/-- The invariant holds right after reset, with whatever inputs construction accepts (R98, R280, R281; the canonical form of
a memory by log 18). -/
def Obligations.ResetHasInv : Prop :=
  State.reset.Inv ∧ ∀ (p : Params) (c : BringUpConfig), p.accepted = true → (State.resetWith p c).Inv

/-- No step changes the parameters or the BringUpConfig, or undoes a bus transaction (R21, R78, R81, R282). -/
def Obligations.StepKeepsInputsAndTraffic : Prop :=
  ∀ s t : State, step s = .next t → t.params = s.params ∧ t.cfg = s.cfg ∧ ∃ l, t.bus = l ++ s.bus

/-- Only BRINGUP moves the sequencer or touches its log: every other command keeps `SEQ`, `u` and `DIAG` (R20, R46,
R48). -/
def Obligations.OnlyBringupMovesTheSequencer : Prop :=
  ∀ (s : State) (i : Instr), (∀ m g, i ≠ .bringup m g) →
    ∃ t, exec i s = .next t ∧ t.seq = s.seq ∧ t.u = s.u ∧ t.diag = s.diag

/-- Only WRITE32, SETBITS, CLRBITS and BRINGUP change a storage register, and the first three change the one their
offset names alone (R58, R71). -/
def Obligations.OnlyWritesChangeStorage : Prop :=
  ∀ (s t : State) (i : Instr) (r : StoreReg), exec i s = .next t → t.regs.get r ≠ s.regs.get r →
    (∃ v, i = .write32 (s.params.offset (.store r)) v) ∨ (∃ v, i = .setBits (s.params.offset (.store r)) v) ∨
      (∃ v, i = .clrBits (s.params.offset (.store r)) v) ∨ ∃ m g, i = .bringup m g

/-- Lines of text of R101 and R102 assemble to the words of R91 to R93, in configuration T (V-EN; tokens by log 25). -/
def Obligations.LinesAssemble : Prop :=
  assemble Config.paramsT ["wait_bit STAT, 0x100, set, 20000".toList, "bringup real, later".toList] =
    some [0x105, 0x4, 0x100, 0x4E20, 0x230] ∧
  assemble Config.paramsT ["get_rate MPU, core=3".toList, "force_bypass P".toList] =
    some [0xC42, 0x0, 0x2, 0x220, 0x7, 0x5, 0x4, 0x1, 0x4E20] ∧
  assemble Config.paramsT ["clksrc_hz CORE01CTR, M.PLLC1, 0x20C".toList, "enable USB".toList] =
    some [0x41, 0x34, 0x10C, 0x20C, 0x43, 0xA]

/-! ### The membus sides and the bus traffic of a bring-up (R171 to R195) -/

/-- R186, R187: step 7 is APPLY_CALTABLE of the main bank and then of the peripheral bank, each from where the one before
it left the machine; a Timeout of either is noted and the sequencer goes on. -/
def Obligations.StepSevenAppliesBothTables : Prop :=
  ∀ s : State,
    let noted := fun (u : Nat) (b : Bank) (t : State) =>
      if t.result = some (.err .timeout) then [(⟨.s7, u, .applyCaltable b⟩ : DiagEntry)] else []
    ∃ tM tP, exec (.applyCaltable .M) { s with seq := .s7, u := 0 } = .next tM ∧
      exec (.applyCaltable .P) { tM with result := s.result, u := 1, diag := s.diag ++ noted 0 .M tM } = .next tP ∧
      ∀ rest, runStates (.s7 :: rest) s =
        runStates rest { tP with result := s.result, diag := s.diag ++ noted 0 .M tM ++ noted 1 .P tP }

/-- What a real-path run does to the membus sides: APPLY_CALTABLE of the main bank and then of the peripheral bank, once
each, and nothing else touches them; the run notes exactly the tables that timed out, and the peripheral bank's table runs
whatever became of the main bank's (R186, R187, R196; V-BU-7). `x` is the state step 7 is entered in and `y` the one its
second table starts in. -/
def Obligations.BringupTouchesMembusOnlyInStepSeven : Prop :=
  ∀ (s : State) (stage : Stage), s.params.laidOut = true →
    (stage = .later → s.params.fields.ctrlBootmode.get s.regs.ctrl ≠ 0) →
    (∀ b, vcoWord s.params (s.cfg.bank b).pllm (s.cfg.bank b).pllglob ≠ none) →
    ∃ t x tM y tP, exec (.bringup .real stage) s = .next t ∧
      x.params = s.params ∧ x.cfg = s.cfg ∧ (∀ b, x.chan b = s.chan b) ∧ exec (.applyCaltable .M) x = .next tM ∧
      y.params = s.params ∧ y.cfg = s.cfg ∧ (∀ b, y.chan b = tM.chan b) ∧ y.tape = tM.tape ∧ y.drawn = tM.drawn ∧
      exec (.applyCaltable .P) y = .next tP ∧ (∀ b, t.chan b = tP.chan b) ∧
      (⟨.s7, 0, .applyCaltable .M⟩ ∈ t.diag ↔ tM.result = some (.err .timeout)) ∧
      (⟨.s7, 1, .applyCaltable .P⟩ ∈ t.diag ↔ tP.result = some (.err .timeout))

/-- The whole bus traffic of a run that raises no fault, in order, whatever the waits returned: every read and write of a
storage register with its value, every wait as the reads of STAT it makes, every latch cleared as `P_LATCH_CLR` says, and
each calibration table as a run of APPLY_CALTABLE. The real path's writes of step 4 are in the order of R181 to R183, and
the latches of R190 and R193 are cleared once each; the emulation path makes R171 to R174 and no more. -/
def Obligations.BringupTraffic : Prop :=
  ∀ (s : State) (stage : Stage), s.params.laidOut = true →
    (∀ vcM vcP, (stage = .later → s.params.fields.ctrlBootmode.get s.regs.ctrl ≠ 0) →
      vcoWord s.params s.cfg.main.pllm s.cfg.main.pllglob = some vcM →
      vcoWord s.params s.cfg.peri.pllm s.cfg.peri.pllglob = some vcP →
      ∃ t l, exec (.bringup .real stage) s = .next t ∧ t.bus = l.reverse ++ s.bus ∧
        s.made (realStretches s.params s.cfg vcM vcP (decide (stage = .first)) s.regs) l) ∧
    ∃ t l, exec (.bringup .emulation stage) s = .next t ∧ t.bus = l.reverse ++ s.bus ∧
      s.made (emulationStretches s.params s.regs) l

end
end

