-- ==== Sys2Proof/Laws/State.lean ====
section
/-!
SUPPORT. One lemma per field per update of the state (true by unfolding), and the two banks' membus sides.
-/

namespace Sys2Proof.Machine

open Sys2Proof

/-! ### `State.at` -/

@[simp] theorem State.at_params (s : State) (q : SeqState) (n : Nat) : (s.at q n).params = s.params := (rfl)
@[simp] theorem State.at_cfg (s : State) (q : SeqState) (n : Nat) : (s.at q n).cfg = s.cfg := (rfl)
@[simp] theorem State.at_regs (s : State) (q : SeqState) (n : Nat) : (s.at q n).regs = s.regs := (rfl)
@[simp] theorem State.at_busM (s : State) (q : SeqState) (n : Nat) : (s.at q n).busM = s.busM := (rfl)
@[simp] theorem State.at_busP (s : State) (q : SeqState) (n : Nat) : (s.at q n).busP = s.busP := (rfl)
@[simp] theorem State.at_seq (s : State) (q : SeqState) (n : Nat) : (s.at q n).seq = q := (rfl)
@[simp] theorem State.at_u (s : State) (q : SeqState) (n : Nat) : (s.at q n).u = n := (rfl)
@[simp] theorem State.at_diag (s : State) (q : SeqState) (n : Nat) : (s.at q n).diag = s.diag := (rfl)
@[simp] theorem State.at_fault (s : State) (q : SeqState) (n : Nat) : (s.at q n).fault = s.fault := (rfl)
@[simp] theorem State.at_result (s : State) (q : SeqState) (n : Nat) : (s.at q n).result = s.result := (rfl)
@[simp] theorem State.at_cmds (s : State) (q : SeqState) (n : Nat) : (s.at q n).cmds = s.cmds := (rfl)
@[simp] theorem State.at_tape (s : State) (q : SeqState) (n : Nat) : (s.at q n).tape = s.tape := (rfl)
@[simp] theorem State.at_drawn (s : State) (q : SeqState) (n : Nat) : (s.at q n).drawn = s.drawn := (rfl)
@[simp] theorem State.at_bus (s : State) (q : SeqState) (n : Nat) : (s.at q n).bus = s.bus := (rfl)

@[simp] theorem State.at_chan (s : State) (q : SeqState) (n : Nat) (b : Bank) : (s.at q n).chan b = s.chan b := by cases b <;> rfl

/-! ### `State.note` -/

@[simp] theorem State.note_params (s : State) (w : Wait) : (s.note w).params = s.params := (rfl)
@[simp] theorem State.note_cfg (s : State) (w : Wait) : (s.note w).cfg = s.cfg := (rfl)
@[simp] theorem State.note_regs (s : State) (w : Wait) : (s.note w).regs = s.regs := (rfl)
@[simp] theorem State.note_busM (s : State) (w : Wait) : (s.note w).busM = s.busM := (rfl)
@[simp] theorem State.note_busP (s : State) (w : Wait) : (s.note w).busP = s.busP := (rfl)
@[simp] theorem State.note_seq (s : State) (w : Wait) : (s.note w).seq = s.seq := (rfl)
@[simp] theorem State.note_u (s : State) (w : Wait) : (s.note w).u = s.u := (rfl)
@[simp] theorem State.note_diag (s : State) (w : Wait) : (s.note w).diag = s.diag ++ [⟨s.seq, s.u, w⟩] := (rfl)
@[simp] theorem State.note_fault (s : State) (w : Wait) : (s.note w).fault = s.fault := (rfl)
@[simp] theorem State.note_result (s : State) (w : Wait) : (s.note w).result = s.result := (rfl)
@[simp] theorem State.note_cmds (s : State) (w : Wait) : (s.note w).cmds = s.cmds := (rfl)
@[simp] theorem State.note_tape (s : State) (w : Wait) : (s.note w).tape = s.tape := (rfl)
@[simp] theorem State.note_drawn (s : State) (w : Wait) : (s.note w).drawn = s.drawn := (rfl)
@[simp] theorem State.note_bus (s : State) (w : Wait) : (s.note w).bus = s.bus := (rfl)

@[simp] theorem State.note_chan (s : State) (w : Wait) (b : Bank) : (s.note w).chan b = s.chan b := by cases b <;> rfl

/-! ### `State.logRead` -/

@[simp] theorem State.logRead_params (s : State) (r : Reg) (v : Word) : (s.logRead r v).params = s.params := (rfl)
@[simp] theorem State.logRead_cfg (s : State) (r : Reg) (v : Word) : (s.logRead r v).cfg = s.cfg := (rfl)
@[simp] theorem State.logRead_regs (s : State) (r : Reg) (v : Word) : (s.logRead r v).regs = s.regs := (rfl)
@[simp] theorem State.logRead_busM (s : State) (r : Reg) (v : Word) : (s.logRead r v).busM = s.busM := (rfl)
@[simp] theorem State.logRead_busP (s : State) (r : Reg) (v : Word) : (s.logRead r v).busP = s.busP := (rfl)
@[simp] theorem State.logRead_seq (s : State) (r : Reg) (v : Word) : (s.logRead r v).seq = s.seq := (rfl)
@[simp] theorem State.logRead_u (s : State) (r : Reg) (v : Word) : (s.logRead r v).u = s.u := (rfl)
@[simp] theorem State.logRead_diag (s : State) (r : Reg) (v : Word) : (s.logRead r v).diag = s.diag := (rfl)
@[simp] theorem State.logRead_fault (s : State) (r : Reg) (v : Word) : (s.logRead r v).fault = s.fault := (rfl)
@[simp] theorem State.logRead_result (s : State) (r : Reg) (v : Word) : (s.logRead r v).result = s.result := (rfl)
@[simp] theorem State.logRead_cmds (s : State) (r : Reg) (v : Word) : (s.logRead r v).cmds = s.cmds := (rfl)
@[simp] theorem State.logRead_tape (s : State) (r : Reg) (v : Word) : (s.logRead r v).tape = s.tape := (rfl)
@[simp] theorem State.logRead_drawn (s : State) (r : Reg) (v : Word) : (s.logRead r v).drawn = s.drawn := (rfl)
@[simp] theorem State.logRead_bus (s : State) (r : Reg) (v : Word) : (s.logRead r v).bus = .read (s.addrOf r) v :: s.bus := (rfl)

@[simp] theorem State.logRead_chan (s : State) (r : Reg) (v : Word) (b : Bank) : (s.logRead r v).chan b = s.chan b := by cases b <;> rfl

/-! ### `State.logWrite` -/

@[simp] theorem State.logWrite_params (s : State) (r : Reg) (v : Word) : (s.logWrite r v).params = s.params := (rfl)
@[simp] theorem State.logWrite_cfg (s : State) (r : Reg) (v : Word) : (s.logWrite r v).cfg = s.cfg := (rfl)
@[simp] theorem State.logWrite_regs (s : State) (r : Reg) (v : Word) : (s.logWrite r v).regs = s.regs := (rfl)
@[simp] theorem State.logWrite_busM (s : State) (r : Reg) (v : Word) : (s.logWrite r v).busM = s.busM := (rfl)
@[simp] theorem State.logWrite_busP (s : State) (r : Reg) (v : Word) : (s.logWrite r v).busP = s.busP := (rfl)
@[simp] theorem State.logWrite_seq (s : State) (r : Reg) (v : Word) : (s.logWrite r v).seq = s.seq := (rfl)
@[simp] theorem State.logWrite_u (s : State) (r : Reg) (v : Word) : (s.logWrite r v).u = s.u := (rfl)
@[simp] theorem State.logWrite_diag (s : State) (r : Reg) (v : Word) : (s.logWrite r v).diag = s.diag := (rfl)
@[simp] theorem State.logWrite_fault (s : State) (r : Reg) (v : Word) : (s.logWrite r v).fault = s.fault := (rfl)
@[simp] theorem State.logWrite_result (s : State) (r : Reg) (v : Word) : (s.logWrite r v).result = s.result := (rfl)
@[simp] theorem State.logWrite_cmds (s : State) (r : Reg) (v : Word) : (s.logWrite r v).cmds = s.cmds := (rfl)
@[simp] theorem State.logWrite_tape (s : State) (r : Reg) (v : Word) : (s.logWrite r v).tape = s.tape := (rfl)
@[simp] theorem State.logWrite_drawn (s : State) (r : Reg) (v : Word) : (s.logWrite r v).drawn = s.drawn := (rfl)
@[simp] theorem State.logWrite_bus (s : State) (r : Reg) (v : Word) : (s.logWrite r v).bus = .write (s.addrOf r) v :: s.bus := (rfl)

@[simp] theorem State.logWrite_chan (s : State) (r : Reg) (v : Word) (b : Bank) : (s.logWrite r v).chan b = s.chan b := by cases b <;> rfl

/-! ### `State.takeFault` -/

@[simp] theorem State.takeFault_params (s : State) (k : FaultKind) (w : Word) : (s.takeFault k w).params = s.params := (rfl)
@[simp] theorem State.takeFault_cfg (s : State) (k : FaultKind) (w : Word) : (s.takeFault k w).cfg = s.cfg := (rfl)
@[simp] theorem State.takeFault_regs (s : State) (k : FaultKind) (w : Word) : (s.takeFault k w).regs = s.regs := (rfl)
@[simp] theorem State.takeFault_busM (s : State) (k : FaultKind) (w : Word) : (s.takeFault k w).busM = s.busM := (rfl)
@[simp] theorem State.takeFault_busP (s : State) (k : FaultKind) (w : Word) : (s.takeFault k w).busP = s.busP := (rfl)
@[simp] theorem State.takeFault_seq (s : State) (k : FaultKind) (w : Word) : (s.takeFault k w).seq = s.seq := (rfl)
@[simp] theorem State.takeFault_u (s : State) (k : FaultKind) (w : Word) : (s.takeFault k w).u = s.u := (rfl)
@[simp] theorem State.takeFault_diag (s : State) (k : FaultKind) (w : Word) : (s.takeFault k w).diag = s.diag := (rfl)
@[simp] theorem State.takeFault_fault (s : State) (k : FaultKind) (w : Word) : (s.takeFault k w).fault = some ⟨k, w, s.seq, s.u⟩ := (rfl)
@[simp] theorem State.takeFault_result (s : State) (k : FaultKind) (w : Word) : (s.takeFault k w).result = none := (rfl)
@[simp] theorem State.takeFault_cmds (s : State) (k : FaultKind) (w : Word) : (s.takeFault k w).cmds = s.cmds := (rfl)
@[simp] theorem State.takeFault_tape (s : State) (k : FaultKind) (w : Word) : (s.takeFault k w).tape = s.tape := (rfl)
@[simp] theorem State.takeFault_drawn (s : State) (k : FaultKind) (w : Word) : (s.takeFault k w).drawn = s.drawn := (rfl)
@[simp] theorem State.takeFault_bus (s : State) (k : FaultKind) (w : Word) : (s.takeFault k w).bus = s.bus := (rfl)

@[simp] theorem State.takeFault_chan (s : State) (k : FaultKind) (w : Word) (b : Bank) : (s.takeFault k w).chan b = s.chan b := by cases b <;> rfl

/-! ### `State.returns` -/

@[simp] theorem State.returns_params (s : State) (x : Result) : (s.returns x).params = s.params := (rfl)
@[simp] theorem State.returns_cfg (s : State) (x : Result) : (s.returns x).cfg = s.cfg := (rfl)
@[simp] theorem State.returns_regs (s : State) (x : Result) : (s.returns x).regs = s.regs := (rfl)
@[simp] theorem State.returns_busM (s : State) (x : Result) : (s.returns x).busM = s.busM := (rfl)
@[simp] theorem State.returns_busP (s : State) (x : Result) : (s.returns x).busP = s.busP := (rfl)
@[simp] theorem State.returns_seq (s : State) (x : Result) : (s.returns x).seq = s.seq := (rfl)
@[simp] theorem State.returns_u (s : State) (x : Result) : (s.returns x).u = s.u := (rfl)
@[simp] theorem State.returns_diag (s : State) (x : Result) : (s.returns x).diag = s.diag := (rfl)
@[simp] theorem State.returns_fault (s : State) (x : Result) : (s.returns x).fault = s.fault := (rfl)
@[simp] theorem State.returns_result (s : State) (x : Result) : (s.returns x).result = some x := (rfl)
@[simp] theorem State.returns_cmds (s : State) (x : Result) : (s.returns x).cmds = s.cmds := (rfl)
@[simp] theorem State.returns_tape (s : State) (x : Result) : (s.returns x).tape = s.tape := (rfl)
@[simp] theorem State.returns_drawn (s : State) (x : Result) : (s.returns x).drawn = s.drawn := (rfl)
@[simp] theorem State.returns_bus (s : State) (x : Result) : (s.returns x).bus = s.bus := (rfl)

@[simp] theorem State.returns_chan (s : State) (x : Result) (b : Bank) : (s.returns x).chan b = s.chan b := by cases b <;> rfl

/-! ### `State.issue` -/

@[simp] theorem State.issue_params (s : State) (ws : List Word) : (s.issue ws).params = s.params := (rfl)
@[simp] theorem State.issue_cfg (s : State) (ws : List Word) : (s.issue ws).cfg = s.cfg := (rfl)
@[simp] theorem State.issue_regs (s : State) (ws : List Word) : (s.issue ws).regs = s.regs := (rfl)
@[simp] theorem State.issue_busM (s : State) (ws : List Word) : (s.issue ws).busM = s.busM := (rfl)
@[simp] theorem State.issue_busP (s : State) (ws : List Word) : (s.issue ws).busP = s.busP := (rfl)
@[simp] theorem State.issue_seq (s : State) (ws : List Word) : (s.issue ws).seq = s.seq := (rfl)
@[simp] theorem State.issue_u (s : State) (ws : List Word) : (s.issue ws).u = s.u := (rfl)
@[simp] theorem State.issue_diag (s : State) (ws : List Word) : (s.issue ws).diag = s.diag := (rfl)
@[simp] theorem State.issue_fault (s : State) (ws : List Word) : (s.issue ws).fault = s.fault := (rfl)
@[simp] theorem State.issue_result (s : State) (ws : List Word) : (s.issue ws).result = s.result := (rfl)
@[simp] theorem State.issue_cmds (s : State) (ws : List Word) : (s.issue ws).cmds = ws := (rfl)
@[simp] theorem State.issue_tape (s : State) (ws : List Word) : (s.issue ws).tape = s.tape := (rfl)
@[simp] theorem State.issue_drawn (s : State) (ws : List Word) : (s.issue ws).drawn = s.drawn := (rfl)
@[simp] theorem State.issue_bus (s : State) (ws : List Word) : (s.issue ws).bus = s.bus := (rfl)

/-! ### `State.setChan` -/

@[simp] theorem State.setChan_params (s : State) (b : Bank) (c : Membus) : (s.setChan b c).params = s.params := by
  cases b <;> rfl
@[simp] theorem State.setChan_cfg (s : State) (b : Bank) (c : Membus) : (s.setChan b c).cfg = s.cfg := by
  cases b <;> rfl
@[simp] theorem State.setChan_regs (s : State) (b : Bank) (c : Membus) : (s.setChan b c).regs = s.regs := by
  cases b <;> rfl
@[simp] theorem State.setChan_seq (s : State) (b : Bank) (c : Membus) : (s.setChan b c).seq = s.seq := by
  cases b <;> rfl
@[simp] theorem State.setChan_u (s : State) (b : Bank) (c : Membus) : (s.setChan b c).u = s.u := by
  cases b <;> rfl
@[simp] theorem State.setChan_diag (s : State) (b : Bank) (c : Membus) : (s.setChan b c).diag = s.diag := by
  cases b <;> rfl
@[simp] theorem State.setChan_fault (s : State) (b : Bank) (c : Membus) : (s.setChan b c).fault = s.fault := by
  cases b <;> rfl
@[simp] theorem State.setChan_result (s : State) (b : Bank) (c : Membus) : (s.setChan b c).result = s.result := by
  cases b <;> rfl
@[simp] theorem State.setChan_cmds (s : State) (b : Bank) (c : Membus) : (s.setChan b c).cmds = s.cmds := by
  cases b <;> rfl
@[simp] theorem State.setChan_tape (s : State) (b : Bank) (c : Membus) : (s.setChan b c).tape = s.tape := by
  cases b <;> rfl
@[simp] theorem State.setChan_drawn (s : State) (b : Bank) (c : Membus) : (s.setChan b c).drawn = s.drawn := by
  cases b <;> rfl
@[simp] theorem State.setChan_bus (s : State) (b : Bank) (c : Membus) : (s.setChan b c).bus = s.bus := by
  cases b <;> rfl

@[simp] theorem State.setChan_chan_self (s : State) (b : Bank) (c : Membus) : (s.setChan b c).chan b = c := by
  cases b <;> rfl

theorem State.setChan_chan (s : State) (b b' : Bank) (c : Membus) :
    (s.setChan b c).chan b' = if b' = b then c else s.chan b' := by cases b <;> cases b' <;> rfl

@[simp] theorem State.setChan_chan_of_ne (s : State) {b b' : Bank} (c : Membus) (h : b' ≠ b) :
    (s.setChan b c).chan b' = s.chan b' := by rw [State.setChan_chan, if_neg h]

/-! ### `State.draw` -/

@[simp] theorem State.draw_params (s : State) : s.draw.2.params = s.params := by unfold State.draw; split <;> rfl
@[simp] theorem State.draw_cfg (s : State) : s.draw.2.cfg = s.cfg := by unfold State.draw; split <;> rfl
@[simp] theorem State.draw_regs (s : State) : s.draw.2.regs = s.regs := by unfold State.draw; split <;> rfl
@[simp] theorem State.draw_busM (s : State) : s.draw.2.busM = s.busM := by unfold State.draw; split <;> rfl
@[simp] theorem State.draw_busP (s : State) : s.draw.2.busP = s.busP := by unfold State.draw; split <;> rfl
@[simp] theorem State.draw_seq (s : State) : s.draw.2.seq = s.seq := by unfold State.draw; split <;> rfl
@[simp] theorem State.draw_u (s : State) : s.draw.2.u = s.u := by unfold State.draw; split <;> rfl
@[simp] theorem State.draw_diag (s : State) : s.draw.2.diag = s.diag := by unfold State.draw; split <;> rfl
@[simp] theorem State.draw_fault (s : State) : s.draw.2.fault = s.fault := by unfold State.draw; split <;> rfl
@[simp] theorem State.draw_result (s : State) : s.draw.2.result = s.result := by unfold State.draw; split <;> rfl
@[simp] theorem State.draw_cmds (s : State) : s.draw.2.cmds = s.cmds := by unfold State.draw; split <;> rfl
@[simp] theorem State.draw_bus (s : State) : s.draw.2.bus = s.bus := by unfold State.draw; split <;> rfl

@[simp] theorem State.draw_chan (s : State) (b : Bank) : s.draw.2.chan b = s.chan b := by
  unfold State.draw; split <;> cases b <;> rfl

/-! ### `State.resetWith` and `State.reset` -/

@[simp] theorem State.resetWith_params (p : Params) (c : BringUpConfig) : (State.resetWith p c).params = p := (rfl)
@[simp] theorem State.resetWith_cfg (p : Params) (c : BringUpConfig) : (State.resetWith p c).cfg = c := (rfl)
@[simp] theorem State.resetWith_regs (p : Params) (c : BringUpConfig) : (State.resetWith p c).regs = StoreFile.zero := (rfl)
@[simp] theorem State.resetWith_busM (p : Params) (c : BringUpConfig) : (State.resetWith p c).busM = Membus.reset := (rfl)
@[simp] theorem State.resetWith_busP (p : Params) (c : BringUpConfig) : (State.resetWith p c).busP = Membus.reset := (rfl)
@[simp] theorem State.resetWith_seq (p : Params) (c : BringUpConfig) : (State.resetWith p c).seq = .idle := (rfl)
@[simp] theorem State.resetWith_u (p : Params) (c : BringUpConfig) : (State.resetWith p c).u = 0 := (rfl)
@[simp] theorem State.resetWith_diag (p : Params) (c : BringUpConfig) : (State.resetWith p c).diag = [] := (rfl)
@[simp] theorem State.resetWith_fault (p : Params) (c : BringUpConfig) : (State.resetWith p c).fault = none := (rfl)
@[simp] theorem State.resetWith_result (p : Params) (c : BringUpConfig) : (State.resetWith p c).result = none := (rfl)
@[simp] theorem State.resetWith_cmds (p : Params) (c : BringUpConfig) : (State.resetWith p c).cmds = [] := (rfl)
@[simp] theorem State.resetWith_tape (p : Params) (c : BringUpConfig) : (State.resetWith p c).tape = [] := (rfl)
@[simp] theorem State.resetWith_drawn (p : Params) (c : BringUpConfig) : (State.resetWith p c).drawn = 0 := (rfl)
@[simp] theorem State.resetWith_bus (p : Params) (c : BringUpConfig) : (State.resetWith p c).bus = [] := (rfl)

end Sys2Proof.Machine
end

