-- ==== Sys2Proof/Laws/Operands.lean ====
section
/-!
SUPPORT. Laws of the operand forms: register files read after a write, the register list, offsets and their registers,
field masks.
-/

namespace Sys2Proof

/-! ### Register files -/

theorem GateFile.get_set {α : Type} (f : GateFile α) (g g' : Gate) (v : α) :
    (f.set g v).get g' = if g' = g then v else f.get g' := by cases g <;> cases g' <;> rfl

@[simp] theorem BankFile.get_set_self (f : BankFile) (r : BankReg) (v : Word) : (f.set r v).get r = v := by
  rcases r with _ | _ | (_ | _ | _ | _) | _ | _ | _ <;> rfl

@[simp] theorem BankFile.get_set_of_ne (f : BankFile) {r r' : BankReg} (v : Word) (h : r' ≠ r) :
    (f.set r v).get r' = f.get r' := by
  rcases r with _ | _ | (_ | _ | _ | _) | _ | _ | _ <;> rcases r' with _ | _ | (_ | _ | _ | _) | _ | _ | _ <;>
    first | rfl | exact absurd rfl h

@[simp] theorem StoreFile.get_set_self (f : StoreFile) (r : StoreReg) (v : Word) : (f.set r v).get r = v := by
  rcases r with _ | _ | g | ⟨_ | _, r⟩ | _ | _ | _ | _ <;> simp [StoreFile.get, StoreFile.set, GateFile.get_set]

@[simp] theorem StoreFile.get_set_of_ne (f : StoreFile) {r r' : StoreReg} (v : Word) (h : r' ≠ r) :
    (f.set r v).get r' = f.get r' := by
  rcases r with _ | _ | g | ⟨_ | _, r⟩ | _ | _ | _ | _ <;> rcases r' with _ | _ | g' | ⟨_ | _, r'⟩ | _ | _ | _ | _ <;>
    simp_all [StoreFile.get, StoreFile.set, GateFile.get_set]

/-- A register reads as last written, every other keeps its word (R23, R58). -/
theorem StoreFile.get_set (f : StoreFile) (r r' : StoreReg) (v : Word) :
    (f.set r v).get r' = if r' = r then v else f.get r' := by
  by_cases h : r' = r
  · subst h; simp
  · simp [h]

/-- Two register files that agree on every register are equal. -/
theorem StoreFile.ext_get {f f' : StoreFile} (h : ∀ r, f.get r = f'.get r) : f = f' := by
  have hb : ∀ {a a' : BankFile}, (∀ r, a.get r = a'.get r) → a = a' := by
    intro a a' k
    cases a; cases a'
    have := k .pllglob; have := k .pllm; have := k (.pllc .c0); have := k (.pllc .c1); have := k (.pllc .c2)
    have := k (.pllc .c3); have := k .fdbck; have := k .vcocalib; have := k .bypass
    simp_all [BankFile.get]
  have hg : ∀ {a a' : GateFile Word}, (∀ g, a.get g = a'.get g) → a = a' := by
    intro a a' k
    cases a; cases a'
    have := k .emaca; have := k .emacb; have := k .emacptp; have := k .gpiodb; have := k .s2fuser0
    have := k .s2fuser1; have := k .psiref; have := k .usb; have := k .dsu; have := k .core01; have := k .core23
    have := k .core2; have := k .core3
    simp_all [GateFile.get]
  have h1 := hb fun r => h (.bank .M r)
  have h2 := hb fun r => h (.bank .P r)
  have h3 := hg fun g => h (.gate g)
  have h4 := h .ctrl; have h5 := h .cntrst; have h6 := h .nocclk; have h7 := h .nocdiv; have h8 := h .emacctl
  have h9 := h .gpiodiv
  cases f; cases f'
  simp_all [StoreFile.get]

/-! ### The register list and offsets -/

theorem mem_allRegs (r : Reg) : r ∈ allRegs := by
  rcases r with (_ | _ | g | ⟨_ | _, _ | _ | (_ | _ | _ | _) | _ | _ | _⟩ | _ | _ | _ | _) | _ | _ | b | b | b | b <;>
    first | (cases g <;> decide) | (cases b <;> decide) | decide

theorem Params.offset_aligned {p : Params} (h : p.offsetsAligned = true) (r : Reg) : aligned (p.offset r) = true := by
  exact List.all_eq_true.mp h r (mem_allRegs r)

theorem Params.offset_distinct {p : Params} (h : p.offsetsDistinct = true) {r r' : Reg}
    (e : p.offset r = p.offset r') : mayShare r r' = true := by
  have := List.all_eq_true.mp (List.all_eq_true.mp h r (mem_allRegs r)) r' (mem_allRegs r')
  simpa [e] using this

/-- What `regAt` finds is a register with that offset. -/
theorem Params.regAt_some {p : Params} {off : Word} {r : Reg} (h : p.regAt off = some r) :
    aligned off = true ∧ p.offset r = off := by
  unfold Params.regAt at h
  split at h
  · exact ⟨‹_›, by simpa using List.find?_some h⟩
  · cases h

/-- `regAt` finds nothing exactly where no register has the offset or it is misaligned (R75). -/
theorem Params.regAt_none {p : Params} {off : Word} :
    p.regAt off = none ↔ aligned off = false ∨ ∀ r, p.offset r ≠ off := by
  unfold Params.regAt
  split
  · rename_i h
    simp only [List.find?_eq_none, h]
    constructor
    · intro k; exact .inr fun r => by simpa using k r (mem_allRegs r)
    · rintro (k | k)
      · simp at k
      · intro r _; simpa using k r
  · rename_i h
    simp only [true_iff]
    exact .inl (by simpa using h)

/-- A storage register's offset names it (R22, R75). -/
theorem Params.regAt_store {p : Params} (ha : p.offsetsAligned = true) (hd : p.offsetsDistinct = true) (r : StoreReg) :
    p.regAt (p.offset (.store r)) = some (.store r) := by
  cases h : p.regAt (p.offset (.store r)) with
  | none =>
    rcases Params.regAt_none.mp h with k | k
    · rw [Params.offset_aligned ha] at k; cases k
    · exact absurd rfl (k (.store r))
  | some r' =>
    have := Params.offset_distinct hd (Params.regAt_some h).2
    cases r' <;> simp_all [mayShare]

/-- The offset of STAT, INTR, LOSTLOCK or MEMSTAT names it (R22, R75). -/
theorem Params.regAt_other {p : Params} (ha : p.offsetsAligned = true) (hd : p.offsetsDistinct = true) {r : Reg}
    (h1 : ∀ b, r ≠ .mem b) (h2 : ∀ b, r ≠ .mempoll b) : p.regAt (p.offset r) = some r := by
  cases h : p.regAt (p.offset r) with
  | none =>
    rcases Params.regAt_none.mp h with k | k
    · rw [Params.offset_aligned ha] at k; cases k
    · exact absurd rfl (k r)
  | some r' =>
    have := Params.offset_distinct hd (Params.regAt_some h).2
    cases r' <;> cases r <;> simp_all [mayShare]

/-- The register before another in the register list is the one a shared offset names. -/
theorem Params.regAt_find {p : Params} {off : Word} {r : Reg} (ha : aligned off = true) {l₁ l₂ : List Reg}
    (hl : allRegs = l₁ ++ r :: l₂) (hn : ∀ x ∈ l₁, p.offset x ≠ off) (hr : p.offset r = off) :
    p.regAt off = some r := by
  unfold Params.regAt
  rw [if_pos ha, hl, List.find?_append, List.find?_eq_none.mpr (by simpa using hn)]
  simp [hr]

/-- The offset of a mailbox names it (R22, R75). -/
theorem Params.regAt_mem {p : Params} (ha : p.offsetsAligned = true) (hd : p.offsetsDistinct = true) (b : Bank) :
    p.regAt (p.offset (.mem b)) = some (.mem b) := by
  have hx : ∀ x : Reg, x ≠ .mem b → x ≠ .mempoll b → p.offset x ≠ p.offset (.mem b) := by
    intro x h1 h2 e
    have := Params.offset_distinct hd e
    cases x <;> simp_all [mayShare]
  have hh := Params.offset_aligned ha (.mem b)
  cases b with
  | M =>
    exact Params.regAt_find hh (l₁ := allRegs.takeWhile (· != .mem .M)) (l₂ := (allRegs.dropWhile (· != .mem .M)).tail)
      (by decide) (fun x hm => hx x (by rintro rfl; revert hm; decide) (by rintro rfl; revert hm; decide)) rfl
  | P =>
    exact Params.regAt_find hh (l₁ := allRegs.takeWhile (· != .mem .P)) (l₂ := (allRegs.dropWhile (· != .mem .P)).tail)
      (by decide) (fun x hm => hx x (by rintro rfl; revert hm; decide) (by rintro rfl; revert hm; decide)) rfl

/-- The offset of a status mirror names it, but where it is the mailbox itself (R22, R75). -/
theorem Params.regAt_mempoll {p : Params} (ha : p.offsetsAligned = true) (hd : p.offsetsDistinct = true) (b : Bank) :
    p.regAt (p.offset (.mempoll b)) = some (if p.sharedPoll b then .mem b else .mempoll b) := by
  by_cases hs : p.sharedPoll b
  · have e : p.offset (.mempoll b) = p.offset (.mem b) := by simpa [Params.sharedPoll, Params.offset] using hs
    rw [if_pos hs, e, Params.regAt_mem ha hd]
  · rw [if_neg hs]
    cases h : p.regAt (p.offset (.mempoll b)) with
    | none =>
      rcases Params.regAt_none.mp h with k | k
      · rw [Params.offset_aligned ha] at k; cases k
      · exact absurd rfl (k _)
    | some r =>
      have e := (Params.regAt_some h).2
      have := Params.offset_distinct hd e
      cases r with
      | mempoll b' => simp_all [mayShare]
      | mem b' =>
        obtain rfl : b' = b := by simpa [mayShare] using this
        exact absurd (by simpa [Params.sharedPoll, Params.offset] using e.symm) hs
      | _ => simp_all [mayShare]

end Sys2Proof
end

