-- ==== Sys2Proof/Laws/Ops.lean ====
section
/-!
SUPPORT. What each shared operation over the register window can do, said once: register access, the membus responder,
the bounded poll, and the ends of a command.
-/

namespace Sys2Proof.Machine

open Sys2Proof

/-! ### What an access never touches -/

/-- `t` is `s` but for the storage registers, the environment and the bus log. -/
structure Keeps (s t : State) : Prop where
  params : t.params = s.params
  cfg : t.cfg = s.cfg
  seq : t.seq = s.seq
  u : t.u = s.u
  diag : t.diag = s.diag
  fault : t.fault = s.fault
  result : t.result = s.result
  cmds : t.cmds = s.cmds

theorem Keeps.refl (s : State) : Keeps s s := ⟨rfl, rfl, rfl, rfl, rfl, rfl, rfl, rfl⟩

theorem Keeps.trans {s t v : State} (h : Keeps s t) (k : Keeps t v) : Keeps s v :=
  ⟨k.params.trans h.params, k.cfg.trans h.cfg, k.seq.trans h.seq, k.u.trans h.u, k.diag.trans h.diag,
    k.fault.trans h.fault, k.result.trans h.result, k.cmds.trans h.cmds⟩

theorem setChan_keeps (s : State) (b : Bank) (c : Membus) : Keeps s (s.setChan b c) := by
  constructor <;> simp

theorem logRead_keeps (s : State) (r : Reg) (v : Word) : Keeps s (s.logRead r v) := by constructor <;> rfl

theorem logWrite_keeps (s : State) (r : Reg) (v : Word) : Keeps s (s.logWrite r v) := by constructor <;> rfl

theorem draw_keeps (s : State) : Keeps s s.draw.2 := by constructor <;> simp

/-! ### The responder -/

theorem perform_eq (s : State) (b : Bank) (q : Request) :
    s.perform b q = s.setChan b
      (if q.wr then { s.chan b with cal := (s.chan b).cal.write q.a.toNat q.d, pending := none }
       else { s.chan b with memstat := (s.chan b).cal.read q.a.toNat, pending := none }) := by
  unfold State.perform; split <;> rfl

theorem perform_keeps (s : State) (b : Bank) (q : Request) : Keeps s (s.perform b q) := by
  rw [perform_eq]; exact setChan_keeps ..

@[simp] theorem perform_regs (s : State) (b : Bank) (q : Request) : (s.perform b q).regs = s.regs := by
  rw [perform_eq]; simp

@[simp] theorem perform_bus (s : State) (b : Bank) (q : Request) : (s.perform b q).bus = s.bus := by
  rw [perform_eq]; simp

@[simp] theorem perform_tape (s : State) (b : Bank) (q : Request) : (s.perform b q).tape = s.tape := by
  rw [perform_eq]; simp

@[simp] theorem perform_drawn (s : State) (b : Bank) (q : Request) : (s.perform b q).drawn = s.drawn := by
  rw [perform_eq]; simp

@[simp] theorem perform_pending (s : State) (b : Bank) (q : Request) : ((s.perform b q).chan b).pending = none := by
  rw [perform_eq]; cases q.wr <;> simp

theorem perform_chan_of_ne (s : State) {b b' : Bank} (q : Request) (h : b' ≠ b) :
    (s.perform b q).chan b' = s.chan b' := by rw [perform_eq, State.setChan_chan_of_ne _ _ h]

/-- A settled state: the request pending before is gone from the memory's future, performed or dropped (R53). -/
theorem settle_cases (s : State) (b : Bank) :
    ((s.chan b).pending = none ∧ s.settle b = s) ∨
      ∃ q, (s.chan b).pending = some q ∧
        (s.settle b = s.draw.2.perform b q ∧ s.draw.1.getLsbD 0 = true ∨
          s.settle b = s.draw.2 ∧ s.draw.1.getLsbD 0 = false) := by
  cases hq : (s.chan b).pending with
  | none => exact .inl ⟨rfl, by unfold State.settle; rw [hq]⟩
  | some q =>
    have e : s.settle b = if s.draw.1.getLsbD 0 then s.draw.2.perform b q else s.draw.2 := by
      unfold State.settle; rw [hq]
    refine .inr ⟨q, rfl, ?_⟩
    cases hd : s.draw.1.getLsbD 0 <;> rw [hd] at e <;> simp [e]

theorem settle_keeps (s : State) (b : Bank) : Keeps s (s.settle b) := by
  rcases settle_cases s b with ⟨-, h⟩ | ⟨q, -, ⟨h, -⟩ | ⟨h, -⟩⟩ <;> rw [h]
  · exact Keeps.refl s
  · exact (draw_keeps s).trans (perform_keeps ..)
  · exact draw_keeps s

@[simp] theorem settle_regs (s : State) (b : Bank) : (s.settle b).regs = s.regs := by
  rcases settle_cases s b with ⟨-, h⟩ | ⟨q, -, ⟨h, -⟩ | ⟨h, -⟩⟩ <;> rw [h] <;> simp

@[simp] theorem settle_bus (s : State) (b : Bank) : (s.settle b).bus = s.bus := by
  rcases settle_cases s b with ⟨-, h⟩ | ⟨q, -, ⟨h, -⟩ | ⟨h, -⟩⟩ <;> rw [h] <;> simp

theorem settle_chan_of_ne (s : State) {b b' : Bank} (hb : b' ≠ b) : (s.settle b).chan b' = s.chan b' := by
  rcases settle_cases s b with ⟨-, h⟩ | ⟨q, -, ⟨h, -⟩ | ⟨h, -⟩⟩ <;> rw [h]
  · rw [perform_chan_of_ne _ _ hb]; simp
  · simp

/-- What a mailbox write does: nothing with REQ clear; with REQ set the settled state, the new request pending (R53). -/
theorem mailbox_eq (s : State) (b : Bank) (w : Word) :
    s.mailbox b w = if reqClear s.params w then s else
      (s.settle b).setChan b { (s.settle b).chan b with pending := some (requestOf s.params w) } := rfl

theorem mailbox_keeps (s : State) (b : Bank) (w : Word) : Keeps s (s.mailbox b w) := by
  rw [mailbox_eq]; split
  · exact Keeps.refl s
  · exact (settle_keeps s b).trans (setChan_keeps ..)

@[simp] theorem mailbox_regs (s : State) (b : Bank) (w : Word) : (s.mailbox b w).regs = s.regs := by
  rw [mailbox_eq]; split <;> simp

@[simp] theorem mailbox_bus (s : State) (b : Bank) (w : Word) : (s.mailbox b w).bus = s.bus := by
  rw [mailbox_eq]; split <;> simp

theorem mailbox_chan_of_ne (s : State) {b b' : Bank} (w : Word) (h : b' ≠ b) :
    (s.mailbox b w).chan b' = s.chan b' := by
  rw [mailbox_eq]; split
  · rfl
  · rw [State.setChan_chan_of_ne _ _ h, settle_chan_of_ne _ h]

/-- What a read of MEMPOLL answers and leaves (R54). -/
theorem answerPoll_cases (s : State) (b : Bank) :
    ((s.chan b).pending = none ∧ s.answerPoll b = (s.draw.1 &&& ~~~ s.params.mbxReq, s.draw.2)) ∨
      ∃ q, (s.chan b).pending = some q ∧
        (reqClear s.params s.draw.1 = true ∧ s.answerPoll b = (s.draw.1, s.draw.2.perform b q) ∨
          reqClear s.params s.draw.1 = false ∧ s.answerPoll b = (s.draw.1, s.draw.2)) := by
  unfold State.answerPoll
  simp only [State.draw_chan, State.draw_params]
  split
  · exact .inl ⟨‹_›, rfl⟩
  · rename_i q hq
    refine .inr ⟨q, hq, ?_⟩
    cases reqClear s.params s.draw.1 <;> simp

theorem answerPoll_keeps (s : State) (b : Bank) : Keeps s (s.answerPoll b).2 := by
  rcases answerPoll_cases s b with ⟨-, h⟩ | ⟨q, -, ⟨-, h⟩ | ⟨-, h⟩⟩ <;> rw [h]
  · exact draw_keeps s
  · exact (draw_keeps s).trans (perform_keeps ..)
  · exact draw_keeps s

@[simp] theorem answerPoll_regs (s : State) (b : Bank) : (s.answerPoll b).2.regs = s.regs := by
  rcases answerPoll_cases s b with ⟨-, h⟩ | ⟨q, -, ⟨-, h⟩ | ⟨-, h⟩⟩ <;> rw [h] <;> simp

@[simp] theorem answerPoll_bus (s : State) (b : Bank) : (s.answerPoll b).2.bus = s.bus := by
  rcases answerPoll_cases s b with ⟨-, h⟩ | ⟨q, -, ⟨-, h⟩ | ⟨-, h⟩⟩ <;> rw [h] <;> simp

theorem answerPoll_chan_of_ne (s : State) {b b' : Bank} (hb : b' ≠ b) :
    (s.answerPoll b).2.chan b' = s.chan b' := by
  rcases answerPoll_cases s b with ⟨-, h⟩ | ⟨q, -, ⟨-, h⟩ | ⟨-, h⟩⟩ <;> rw [h]
  · simp
  · simp [perform_chan_of_ne _ _ hb]
  · simp

/-! ### Register reads -/

/-- The bank whose status mirror a read of the register polls, if any (R22, R54). -/
def polls (p : Params) : Reg → Option Bank
  | .mempoll b => some b
  | .mem b => if p.sharedPoll b then some b else none
  | _ => none

/-- What a read answers: the stored word, a poll's answer, or a draw (R23, R54). -/
theorem valueOf_cases (s : State) (r : Reg) :
    (∃ q, r = .store q ∧ s.valueOf r = (s.regs.get q, s)) ∨
      (∃ b, r = .memstat b ∧ s.valueOf r = ((s.chan b).memstat, s)) ∨
      (∃ b, polls s.params r = some b ∧ s.valueOf r = s.answerPoll b) ∨
      (polls s.params r = none ∧ r.cls ≠ .storage ∧ (∀ b, r ≠ .memstat b) ∧ s.valueOf r = s.draw) := by
  cases r with
  | store q => exact .inl ⟨q, rfl, rfl⟩
  | stat => exact .inr (.inr (.inr ⟨rfl, by decide, by simp, rfl⟩))
  | intr => exact .inr (.inr (.inr ⟨rfl, by decide, by simp, rfl⟩))
  | lostlock b => exact .inr (.inr (.inr ⟨rfl, by simp [Reg.cls], by simp, rfl⟩))
  | memstat b => exact .inr (.inl ⟨b, rfl, rfl⟩)
  | mempoll b => exact .inr (.inr (.inl ⟨b, rfl, rfl⟩))
  | mem b =>
    by_cases h : s.params.sharedPoll b
    · exact .inr (.inr (.inl ⟨b, by simp [polls, h], by simp [State.valueOf, h]⟩))
    · exact .inr (.inr (.inr ⟨by simp [polls, h], by simp [Reg.cls], by simp, by simp [State.valueOf, h]⟩))

theorem valueOf_keeps (s : State) (r : Reg) : Keeps s (s.valueOf r).2 := by
  rcases valueOf_cases s r with ⟨q, -, h⟩ | ⟨b, -, h⟩ | ⟨b, -, h⟩ | ⟨-, -, -, h⟩ <;> rw [h]
  · exact Keeps.refl s
  · exact Keeps.refl s
  · exact answerPoll_keeps s b
  · exact draw_keeps s

@[simp] theorem valueOf_regs (s : State) (r : Reg) : (s.valueOf r).2.regs = s.regs := by
  rcases valueOf_cases s r with ⟨q, -, h⟩ | ⟨b, -, h⟩ | ⟨b, -, h⟩ | ⟨-, -, -, h⟩ <;> rw [h] <;> simp

@[simp] theorem valueOf_bus (s : State) (r : Reg) : (s.valueOf r).2.bus = s.bus := by
  rcases valueOf_cases s r with ⟨q, -, h⟩ | ⟨b, -, h⟩ | ⟨b, -, h⟩ | ⟨-, -, -, h⟩ <;> rw [h] <;> simp

theorem valueOf_chan_of_ne (s : State) (r : Reg) {b' : Bank} (hb : polls s.params r ≠ some b') :
    (s.valueOf r).2.chan b' = s.chan b' := by
  rcases valueOf_cases s r with ⟨q, -, h⟩ | ⟨b, -, h⟩ | ⟨b, hp, h⟩ | ⟨-, -, -, h⟩ <;> rw [h]
  · exact answerPoll_chan_of_ne s (by rintro rfl; exact hb hp)
  · simp

theorem readReg_eq (s : State) (r : Reg) : s.readReg r = ((s.valueOf r).1, (s.valueOf r).2.logRead r (s.valueOf r).1) :=
  rfl

/-- A read of a storage register answers its word and changes nothing but the bus log (R23, R72). -/
@[simp] theorem readReg_store (s : State) (r : StoreReg) :
    s.readReg (.store r) = (s.regs.get r, s.logRead (.store r) (s.regs.get r)) := (rfl)

@[simp] theorem readReg_memstat (s : State) (b : Bank) :
    s.readReg (.memstat b) = ((s.chan b).memstat, s.logRead (.memstat b) (s.chan b).memstat) := (rfl)

@[simp] theorem readReg_stat (s : State) : s.readReg .stat = (s.draw.1, s.draw.2.logRead .stat s.draw.1) := (rfl)

@[simp] theorem readReg_mempoll (s : State) (b : Bank) :
    s.readReg (.mempoll b) = ((s.answerPoll b).1, (s.answerPoll b).2.logRead (.mempoll b) (s.answerPoll b).1) := (rfl)

theorem readReg_keeps (s : State) (r : Reg) : Keeps s (s.readReg r).2 :=
  (valueOf_keeps s r).trans (logRead_keeps ..)

@[simp] theorem readReg_regs (s : State) (r : Reg) : (s.readReg r).2.regs = s.regs := by simp [readReg_eq]

@[simp] theorem readReg_params (s : State) (r : Reg) : (s.readReg r).2.params = s.params := (readReg_keeps s r).params

theorem addrOf_congr {s t : State} (h : t.params = s.params) (r : Reg) : t.addrOf r = s.addrOf r := by
  unfold State.addrOf; rw [h]

/-- A read is one transaction, the newest (R72, R78). -/
theorem readReg_bus (s : State) (r : Reg) : (s.readReg r).2.bus = .read (s.addrOf r) (s.readReg r).1 :: s.bus := by
  simp [readReg_eq, addrOf_congr (valueOf_keeps s r).params]

theorem readReg_chan_of_ne (s : State) (r : Reg) {b' : Bank} (hb : polls s.params r ≠ some b') :
    (s.readReg r).2.chan b' = s.chan b' := by simp [readReg_eq, valueOf_chan_of_ne s r hb]

/-! ### Register writes -/

theorem effectOf_keeps (s : State) (r : Reg) (v : Word) : Keeps s (s.effectOf r v) := by
  cases r <;> first | exact mailbox_keeps .. | exact ⟨rfl, rfl, rfl, rfl, rfl, rfl, rfl, rfl⟩

theorem writeReg_keeps (s : State) (r : Reg) (v : Word) : Keeps s (s.writeReg r v) :=
  (logWrite_keeps s r v).trans (effectOf_keeps ..)

@[simp] theorem writeReg_params (s : State) (r : Reg) (v : Word) : (s.writeReg r v).params = s.params :=
  (writeReg_keeps s r v).params

/-- A write of a storage register (R23, R58, R72). -/
@[simp] theorem writeReg_store (s : State) (r : StoreReg) (v : Word) :
    s.writeReg (.store r) v = { s.logWrite (.store r) v with regs := s.regs.set r v } := (rfl)

/-- A write of a mailbox (R53, R72). -/
theorem writeReg_mem (s : State) (b : Bank) (v : Word) :
    s.writeReg (.mem b) v = (s.logWrite (.mem b) v).mailbox b v := rfl

/-- A write of a latch or a volatile register is a bus transaction and no more (R23). -/
theorem writeReg_quiet (s : State) {r : Reg} (v : Word) (h : r.cls = .volatile ∨ r.cls = .latch) :
    s.writeReg r v = s.logWrite r v := by cases r <;> simp [Reg.cls] at h <;> rfl

/-- A write is one transaction, the newest (R72, R78). -/
theorem writeReg_bus (s : State) (r : Reg) (v : Word) : (s.writeReg r v).bus = .write (s.addrOf r) v :: s.bus := by
  cases r <;> first | rfl | simp [writeReg_mem]

theorem writeReg_regs_of_ne (s : State) {r : Reg} (v : Word) (h : r.cls ≠ .storage) :
    (s.writeReg r v).regs = s.regs := by
  cases r <;> first | exact absurd rfl h | rfl | simp [writeReg_mem]

@[simp] theorem writeReg_regs_mem (s : State) (b : Bank) (v : Word) : (s.writeReg (.mem b) v).regs = s.regs := by
  simp [writeReg_mem]

theorem writeReg_chan_of_ne (s : State) (r : Reg) (v : Word) {b' : Bank} (hb : r ≠ .mem b') :
    (s.writeReg r v).chan b' = s.chan b' := by
  cases r with
  | mem b => rw [writeReg_mem, mailbox_chan_of_ne _ _ (by rintro rfl; exact hb rfl)]; simp
  | store q => cases b' <;> rfl
  | _ => cases b' <;> rfl

theorem setMask_eq (s : State) (r : Reg) (m : Word) :
    s.setMask r m = (s.readReg r).2.writeReg r ((s.readReg r).1 ||| m) := rfl

theorem clearMask_eq (s : State) (r : Reg) (m : Word) :
    s.clearMask r m = (s.readReg r).2.writeReg r ((s.readReg r).1 &&& ~~~ m) := rfl

theorem setMask_keeps (s : State) (r : Reg) (m : Word) : Keeps s (s.setMask r m) :=
  (readReg_keeps s r).trans (writeReg_keeps ..)

theorem clearMask_keeps (s : State) (r : Reg) (m : Word) : Keeps s (s.clearMask r m) :=
  (readReg_keeps s r).trans (writeReg_keeps ..)

theorem setMask_regs_store (s : State) (r : StoreReg) (m : Word) :
    (s.setMask (.store r) m).regs = s.regs.set r (s.regs.get r ||| m) := rfl

theorem clearMask_regs_store (s : State) (r : StoreReg) (m : Word) :
    (s.clearMask (.store r) m).regs = s.regs.set r (s.regs.get r &&& ~~~ m) := rfl

/-! ### The bounded poll -/

theorem poll_zero (r : Reg) (ok : Word → Bool) (s : State) : State.poll r ok 0 s = (false, s) := rfl

theorem poll_succ (r : Reg) (ok : Word → Bool) (n : Nat) (s : State) :
    State.poll r ok (n + 1) s =
      if ok (s.readReg r).1 then (true, (s.readReg r).2) else State.poll r ok n (s.readReg r).2 := rfl

/-- A relation each read has, and that chains, the whole poll has. -/
theorem poll_induct {R : State → State → Prop} (hr : ∀ s, R s s) (ht : ∀ a b c, R a b → R b c → R a c) (r : Reg)
    (hread : ∀ s, R s (s.readReg r).2) (ok : Word → Bool) (n : Nat) (s : State) : R s (State.poll r ok n s).2 := by
  induction n generalizing s with
  | zero => exact hr s
  | succ n ih =>
    rw [poll_succ]; split
    · exact hread s
    · exact ht _ _ _ (hread s) (ih _)

theorem poll_keeps (r : Reg) (ok : Word → Bool) (n : Nat) (s : State) : Keeps s (State.poll r ok n s).2 :=
  poll_induct Keeps.refl (fun _ _ _ => Keeps.trans) r (fun s => readReg_keeps s r) ok n s

@[simp] theorem poll_regs (r : Reg) (ok : Word → Bool) (n : Nat) (s : State) :
    (State.poll r ok n s).2.regs = s.regs :=
  poll_induct (R := fun s t => t.regs = s.regs) (fun _ => rfl) (fun _ _ _ h k => k.trans h) r
    (fun s => readReg_regs s r) ok n s

theorem poll_chan_of_ne (r : Reg) (ok : Word → Bool) (n : Nat) (s : State) {b' : Bank}
    (hb : polls s.params r ≠ some b') : (State.poll r ok n s).2.chan b' = s.chan b' := by
  have := poll_induct
    (R := fun s t => t.params = s.params ∧ (polls s.params r ≠ some b' → t.chan b' = s.chan b'))
    (fun _ => ⟨rfl, fun _ => rfl⟩)
    (fun a b c h k => ⟨k.1.trans h.1, fun hp => (k.2 (by rw [h.1]; exact hp)).trans (h.2 hp)⟩) r
    (fun s => ⟨readReg_params s r, fun hp => readReg_chan_of_ne s r hp⟩) ok n s
  exact this.2 hb

/-! ### Results -/

@[simp] theorem Res.bind_ok {α β : Type} (a : α) (s : State) (f : α → State → Res β) :
    (Res.ok a s).bind f = f a s := rfl

@[simp] theorem Res.bind_fault {α β : Type} (k : FaultKind) (s : State) (f : α → State → Res β) :
    (Res.fault k s : Res α).bind f = .fault k s := rfl

@[simp] theorem Res.final_ok (w : Word) (x : Result) (s : State) : (Res.ok x s).final w = s.returns x := rfl

@[simp] theorem Res.final_fault (w : Word) (k : FaultKind) (s : State) :
    (Res.fault k s : Res Result).final w = s.takeFault k w := rfl

@[simp] theorem finish_eq (i : Instr) (r : Res Result) : finish i r = .next (r.final i.cmdWord) := rfl

theorem withReg_some {α : Type} {s : State} {off : Word} {r : Reg} (h : s.params.regAt off = some r)
    (f : Reg → Res α) : s.withReg off f = f r := by unfold State.withReg; rw [h]

theorem withReg_none {α : Type} {s : State} {off : Word} (h : s.params.regAt off = none)
    (f : Reg → Res α) : s.withReg off f = .fault .invalidOffset s := by unfold State.withReg; rw [h]

/-- Every command answers a next state (log 8). -/
theorem exec_next (i : Instr) (s : State) : ∃ t, exec i s = .next t := by cases i <;> exact ⟨_, rfl⟩

end Sys2Proof.Machine
end

