-- ==== Sys2Proof/Laws/Draws.lean ====
section
/-!
SUPPORT. The sequence of draws, and what a bounded poll of a drawn register or of a status mirror does in terms of it.
-/

namespace Sys2Proof.Machine

open Sys2Proof

theorem draw_eq (s : State) : s.draw = (s.drawAt 0, s.skip 1) := by
  unfold State.draw State.drawAt State.skip
  cases s.tape <;> simp

@[simp] theorem skip_zero (s : State) : s.skip 0 = s := by unfold State.skip; simp

theorem skip_skip (s : State) (m n : Nat) : (s.skip m).skip n = s.skip (m + n) := by
  unfold State.skip
  simp only [List.drop_drop, List.length_drop]
  congr 1
  omega

theorem drawAt_skip (s : State) (m k : Nat) : (s.skip m).drawAt k = s.drawAt (m + k) := by
  unfold State.skip State.drawAt
  simp only [List.getElem?_drop, List.length_drop]
  split
  · rfl
  · rename_i h
    rw [List.getElem?_eq_none_iff] at h
    congr 1
    omega

@[simp] theorem skip_params (s : State) (n : Nat) : (s.skip n).params = s.params := rfl
@[simp] theorem skip_regs (s : State) (n : Nat) : (s.skip n).regs = s.regs := rfl
@[simp] theorem skip_bus (s : State) (n : Nat) : (s.skip n).bus = s.bus := rfl
@[simp] theorem skip_chan (s : State) (n : Nat) (b : Bank) : (s.skip n).chan b = s.chan b := by cases b <;> rfl

/-- A register whose reads are draws: not of class storage, no status mirror, not memstat (R23). -/
def drawnReg (p : Params) (r : Reg) : Prop := polls p r = none ∧ r.cls ≠ .storage ∧ ∀ b, r ≠ .memstat b

theorem readReg_drawn {s : State} {r : Reg} (h : drawnReg s.params r) :
    s.readReg r = (s.drawAt 0, (s.skip 1).logRead r (s.drawAt 0)) := by
  rw [readReg_eq]
  rcases valueOf_cases s r with ⟨q, rfl, -⟩ | ⟨b, rfl, -⟩ | ⟨b, hp, -⟩ | ⟨-, -, -, hv⟩
  · exact absurd rfl h.2.1
  · exact absurd rfl (h.2.2 b)
  · rw [h.1] at hp; cases hp
  · rw [hv, draw_eq]

theorem afterReads_zero (s : State) (r : Reg) : s.afterReads r 0 = s := by unfold State.afterReads; simp

/-- One read, then `n` more. -/
theorem afterReads_succ (s : State) (r : Reg) (n : Nat) :
    ((s.skip 1).logRead r (s.drawAt 0)).afterReads r n = s.afterReads r (n + 1) := by
  have hd : ∀ j, ((s.skip 1).logRead r (s.drawAt 0)).drawAt j = s.drawAt (j + 1) := fun j => by
    rw [show j + 1 = 1 + j by omega, ← drawAt_skip]; rfl
  have hk : ((s.skip 1).logRead r (s.drawAt 0)).skip n = { s.skip (n + 1) with
      bus := .read (s.addrOf r) (s.drawAt 0) :: s.bus } := by
    rw [show n + 1 = 1 + n by omega, ← skip_skip]; rfl
  unfold State.afterReads
  simp only [hd, hk, List.range_succ_eq_map, List.reverse_cons, List.map_append, List.map_cons, List.map_nil,
    List.append_assoc, State.logRead_bus, skip_bus]
  congr 1
  rw [← List.map_reverse, List.map_map]
  rfl

/-- A poll of a drawn register that meets its condition at the `k`-th read makes exactly `k + 1` reads (R124). -/
theorem poll_drawn_ok {s : State} {r : Reg} (h : drawnReg s.params r) {ok : Word → Bool} {n k : Nat} (hk : k < n)
    (hno : ∀ j, j < k → ok (s.drawAt j) = false) (hyes : ok (s.drawAt k) = true) :
    State.poll r ok n s = (true, s.afterReads r (k + 1)) := by
  induction n generalizing s k with
  | zero => omega
  | succ n ih =>
    rw [poll_succ, readReg_drawn h]
    cases k with
    | zero => simp only [hyes, if_true, ← afterReads_succ, afterReads_zero]
    | succ k =>
      simp only [hno 0 (by omega), Bool.false_eq_true, if_false]
      have e : ∀ j, ((s.skip 1).logRead r (s.drawAt 0)).drawAt j = s.drawAt (j + 1) := fun j => by
        rw [show j + 1 = 1 + j by omega, ← drawAt_skip]; rfl
      rw [← afterReads_succ]
      exact ih (s := (s.skip 1).logRead r (s.drawAt 0)) h (by omega)
        (fun j hj => by rw [e]; exact hno _ (by omega)) (by rw [e]; exact hyes)

/-- A poll of a drawn register that never meets its condition makes exactly its budget of reads (R124). -/
theorem poll_drawn_timeout {s : State} {r : Reg} (h : drawnReg s.params r) {ok : Word → Bool} {n : Nat}
    (hno : ∀ j, j < n → ok (s.drawAt j) = false) : State.poll r ok n s = (false, s.afterReads r n) := by
  induction n generalizing s with
  | zero => rw [poll_zero, afterReads_zero]
  | succ n ih =>
    rw [poll_succ, readReg_drawn h]
    simp only [hno 0 (by omega), Bool.false_eq_true, if_false]
    have e : ∀ j, ((s.skip 1).logRead r (s.drawAt 0)).drawAt j = s.drawAt (j + 1) := fun j => by
      rw [show j + 1 = 1 + j by omega, ← drawAt_skip]; rfl
    rw [← afterReads_succ]
    exact ih (s := (s.skip 1).logRead r (s.drawAt 0)) h (fun j hj => by rw [e]; exact hno _ (by omega))

theorem drawnReg_stat (p : Params) : drawnReg p .stat := ⟨rfl, by decide, by simp⟩

theorem drawnReg_intr (p : Params) : drawnReg p .intr := ⟨rfl, by decide, by simp⟩

theorem drawnReg_lostlock (p : Params) (b : Bank) : drawnReg p (.lostlock b) := ⟨rfl, by simp [Reg.cls], by simp⟩

end Sys2Proof.Machine
end

