-- ==== Sys2Proof/Laws/Memory.lean ====
section
/-!
SUPPORT. The calibration memories: a word reads as last written, and every write keeps the canonical form.
-/

namespace Sys2Proof.Machine

open Sys2Proof

theorem Memory.read_of_below {lo a : Nat} {m : Memory} (h : Memory.wfAbove lo m = true) (ha : a < lo) :
    m.read a = Memory.unlisted := by
  induction m generalizing lo with
  | nil => rfl
  | cons e rest ih =>
    obtain ⟨x, w⟩ := e
    simp only [Memory.wfAbove, Bool.and_eq_true, decide_eq_true_eq] at h
    rw [Memory.read, if_neg (by omega)]
    exact ih h.2 (by omega)

/-- The first law: a word reads as last written, every other word as before. -/
theorem Memory.read_write {lo : Nat} {m : Memory} (h : Memory.wfAbove lo m = true) (a x : Nat) (v : Word) :
    (m.write a v).read x = if x = a then v else m.read x := by
  induction m generalizing lo with
  | nil =>
    simp only [Memory.write]
    split
    · subst v; simp [Memory.read]
    · simp [Memory.read, eq_comm]
  | cons e rest ih =>
    obtain ⟨y, w⟩ := e
    simp only [Memory.wfAbove, Bool.and_eq_true, decide_eq_true_eq] at h
    simp only [Memory.write]
    split
    · rename_i hlt
      have hun : Memory.read ((y, w) :: rest) a = Memory.unlisted := by
        rw [Memory.read, if_neg (by omega)]; exact Memory.read_of_below h.2 (by omega)
      split
      · subst v; by_cases hx : x = a
        · subst hx; simp [hun]
        · simp [hx]
      · simp [Memory.read, eq_comm]
    · split
      · rename_i heq
        subst heq
        split
        · subst v; by_cases hx : x = a
          · subst hx; simp [Memory.read_of_below h.2 (show x < x + 1 by omega)]
          · simp [hx, Memory.read]
        · simp [Memory.read, eq_comm]; grind
      · rename_i hne
        simp only [Memory.read, ih h.2]
        grind

theorem Memory.wfAbove_mono {lo lo' : Nat} {m : Memory} (h : Memory.wfAbove lo' m = true) (hl : lo ≤ lo') :
    Memory.wfAbove lo m = true := by
  cases m with
  | nil => rfl
  | cons e rest =>
    obtain ⟨x, w⟩ := e
    simp only [Memory.wfAbove, Bool.and_eq_true, decide_eq_true_eq] at h ⊢
    exact ⟨⟨by omega, h.1.2⟩, h.2⟩

theorem Memory.write_wfAbove {lo : Nat} {m : Memory} (h : Memory.wfAbove lo m = true) {a : Nat} (ha : lo ≤ a) (v : Word) :
    Memory.wfAbove lo (m.write a v) = true := by
  induction m generalizing lo with
  | nil => simp only [Memory.write]; split <;> simp_all [Memory.wfAbove]
  | cons e rest ih =>
    obtain ⟨y, w⟩ := e
    have h' := h
    simp only [Memory.wfAbove, Bool.and_eq_true, decide_eq_true_eq] at h
    simp only [Memory.write]
    split
    · split
      · exact h'
      · simp only [Memory.wfAbove, Bool.and_eq_true, decide_eq_true_eq]
        exact ⟨⟨ha, by simpa using ‹¬ v = _›⟩, ⟨by omega, h.1.2⟩, h.2⟩
    · split
      · rename_i heq
        subst heq
        split
        · exact Memory.wfAbove_mono h.2 (by omega)
        · simp only [Memory.wfAbove, Bool.and_eq_true, decide_eq_true_eq]
          exact ⟨⟨ha, by simpa using ‹¬ v = _›⟩, h.2⟩
      · simp only [Memory.wfAbove, Bool.and_eq_true, decide_eq_true_eq]
        exact ⟨h.1, ih h.2 (by omega)⟩

/-- Every write keeps the canonical form. -/
theorem Memory.write_wf {m : Memory} (h : m.wf = true) (a : Nat) (v : Word) : (m.write a v).wf = true :=
  Memory.write_wfAbove h (Nat.zero_le a) v

/-- A canonical memory reads as last written. -/
theorem Memory.read_write_wf {m : Memory} (h : m.wf = true) (a x : Nat) (v : Word) :
    (m.write a v).read x = if x = a then v else m.read x := Memory.read_write h a x v

/-- The entries of a written memory are the written one and old ones. -/
theorem Memory.mem_write {m : Memory} {a : Nat} {v : Word} {e : Nat × Word} (h : e ∈ m.write a v) :
    e = (a, v) ∨ e ∈ m := by
  induction m with
  | nil => simp only [Memory.write] at h; split at h <;> simp_all
  | cons x rest ih =>
    obtain ⟨y, w⟩ := x
    simp only [Memory.write] at h
    split at h
    · split at h
      · exact .inr h
      · rcases List.mem_cons.mp h with h | h
        · exact .inl h
        · exact .inr h
    · split at h
      · split at h
        · exact .inr (List.mem_cons_of_mem _ h)
        · rcases List.mem_cons.mp h with h | h
          · exact .inl h
          · exact .inr (List.mem_cons_of_mem _ h)
      · rcases List.mem_cons.mp h with h | h
        · exact .inr (h ▸ List.mem_cons_self)
        · exact (ih h).imp_right (List.mem_cons_of_mem _)

/-- Canonical memories that read alike are equal. -/
theorem Memory.ext_read {lo : Nat} {m m' : Memory} (h : Memory.wfAbove lo m = true) (h' : Memory.wfAbove lo m' = true) (e : ∀ a, m.read a = m'.read a) : m = m' := by
  induction m generalizing lo m' with
  | nil =>
    cases m' with
    | nil => rfl
    | cons x r =>
      obtain ⟨a, w⟩ := x
      simp only [Memory.wfAbove, Bool.and_eq_true, bne_iff_ne] at h'
      have := e a; simp [Memory.read] at this; exact absurd this.symm h'.1.2
  | cons x r ih =>
    obtain ⟨a, w⟩ := x
    have h0 := h
    simp only [Memory.wfAbove, Bool.and_eq_true, decide_eq_true_eq, bne_iff_ne] at h
    cases m' with
    | nil => have := e a; simp [Memory.read] at this; exact absurd this h.1.2
    | cons y r' =>
      obtain ⟨a', w'⟩ := y
      have h0' := h'
      simp only [Memory.wfAbove, Bool.and_eq_true, decide_eq_true_eq, bne_iff_ne] at h'
      rcases Nat.lt_trichotomy a a' with hl | rfl | hl
      · have := e a
        rw [Memory.read, if_pos rfl, Memory.read, if_neg (by omega), Memory.read_of_below h'.2 (by omega)] at this
        exact absurd this h.1.2
      · have hw : w = w' := by simpa [Memory.read] using e a
        subst hw
        congr 1
        refine ih h.2 h'.2 fun x => ?_
        by_cases hx : a = x
        · subst hx; rw [Memory.read_of_below h.2 (by omega), Memory.read_of_below h'.2 (by omega)]
        · have := e x; rw [Memory.read, Memory.read, if_neg (Ne.symm hx), if_neg (Ne.symm hx)] at this; exact this
      · have := e a'
        rw [Memory.read, if_neg (by omega), Memory.read_of_below h.2 (by omega), Memory.read, if_pos rfl] at this
        exact absurd this.symm h'.1.2

theorem Membus.reset_cal_wf : Membus.reset.cal.wf = true := rfl

theorem State.reset_cal_wf (b : Bank) : (State.reset.chan b).cal.wf = true := by cases b <;> rfl

end Sys2Proof.Machine
end

