-- ==== Sys2Proof/Laws/Membus.lean ====
section
/-!
SUPPORT. Laws of the membus: the mailbox words of an accepted configuration, the poll of a status mirror, and what the
membus operations can do.
-/

namespace Sys2Proof.Machine

open Sys2Proof

/-! ### Frames -/

/-- A membus operation of bank `b` keeps the CORE's own state, the storage registers and the other bank's side. -/
structure OnlyBank (b : Bank) (s t : State) : Prop extends Keeps s t where
  regs : t.regs = s.regs
  other : ∀ b', b' ≠ b → t.chan b' = s.chan b'

theorem OnlyBank.refl (b : Bank) (s : State) : OnlyBank b s s := ⟨Keeps.refl s, rfl, fun _ _ => rfl⟩

theorem OnlyBank.trans {b : Bank} {s t v : State} (h : OnlyBank b s t) (k : OnlyBank b t v) : OnlyBank b s v :=
  ⟨h.toKeeps.trans k.toKeeps, k.regs.trans h.regs, fun b' hb => (k.other b' hb).trans (h.other b' hb)⟩

theorem polls_of_ne {p : Params} {b b' : Bank} (h : b' ≠ b) : polls p (.mempoll b) ≠ some b' := by
  simp [polls, Ne.symm h]

theorem readPoll_onlyBank (s : State) (b : Bank) : OnlyBank b s (s.readReg (.mempoll b)).2 :=
  ⟨readReg_keeps .., readReg_regs .., fun _ h => readReg_chan_of_ne _ _ (polls_of_ne h)⟩

theorem membusPoll_onlyBank (s : State) (b : Bank) : OnlyBank b s (s.membusPoll b).2 :=
  ⟨poll_keeps .., poll_regs .., fun _ h => poll_chan_of_ne _ _ _ _ (polls_of_ne h)⟩

theorem writeMem_onlyBank (s : State) (b : Bank) (v : Word) : OnlyBank b s (s.writeReg (.mem b) v) :=
  ⟨writeReg_keeps .., writeReg_regs_mem .., fun b' h => writeReg_chan_of_ne _ _ _ (by simpa using Ne.symm h)⟩

theorem membusWrite_onlyBank (s : State) (b : Bank) (a w : Word) : OnlyBank b s (s.membusWrite b a w).2 :=
  (writeMem_onlyBank s b _).trans (membusPoll_onlyBank _ b)

theorem readMemstat_onlyBank (s : State) (b : Bank) : OnlyBank b s (s.readReg (.memstat b)).2 :=
  ⟨readReg_keeps .., readReg_regs .., fun _ _ => readReg_chan_of_ne _ _ (by simp [polls])⟩

/-- A membus read, by what its poll answered (R142). -/
theorem membusRead_eq (s : State) (b : Bank) (a : Word) :
    s.membusRead b a =
      if ((s.writeReg (.mem b) (s.params.mbxR a)).membusPoll b).1 then
        (some ((((s.writeReg (.mem b) (s.params.mbxR a)).membusPoll b).2).chan b).memstat,
          ((((s.writeReg (.mem b) (s.params.mbxR a)).membusPoll b).2).readReg (.memstat b)).2)
      else (none, ((s.writeReg (.mem b) (s.params.mbxR a)).membusPoll b).2) := by
  unfold State.membusRead
  generalize (s.writeReg (.mem b) (s.params.mbxR a)).membusPoll b = x
  rcases x with ⟨_ | _, t⟩ <;> simp

theorem membusRead_onlyBank (s : State) (b : Bank) (a : Word) : OnlyBank b s (s.membusRead b a).2 := by
  have h := (writeMem_onlyBank s b (s.params.mbxR a)).trans (membusPoll_onlyBank _ b)
  rw [membusRead_eq]
  split
  · exact h.trans (readMemstat_onlyBank _ b)
  · exact h

/-- A relation that each membus read and write has, and that chains, a table's application has (R144). -/
theorem applyTable_induct {R : State → State → Prop} (b : Bank) (hr : ∀ s, R s s)
    (ht : ∀ x y z, R x y → R y z → R x z) (hread : ∀ s a, R s (s.membusRead b a).2)
    (hwrite : ∀ s a w, R s (s.membusWrite b a w).2) (es : List CalEntry) (s : State) :
    R s (State.applyTable b es s).2 := by
  induction es generalizing s with
  | nil => exact hr s
  | cons e es ih =>
    unfold State.applyTable
    have h1 := hread s e.addrOffset
    generalize s.membusRead b e.addrOffset = x at h1
    rcases x with ⟨_ | old, t⟩
    · exact h1
    · have h2 := hwrite t e.addrOffset (calUpdate e old)
      dsimp only at h1 ⊢
      generalize t.membusWrite b e.addrOffset (calUpdate e old) = y at h2
      rcases y with ⟨_ | _, v⟩
      · exact ht _ _ _ h1 h2
      · exact ht _ _ _ h1 (ht _ _ _ h2 (ih v))

theorem applyTable_onlyBank (b : Bank) (es : List CalEntry) (s : State) :
    OnlyBank b s (State.applyTable b es s).2 :=
  applyTable_induct b (OnlyBank.refl b) (fun _ _ _ => OnlyBank.trans) (fun s a => membusRead_onlyBank s b a)
    (fun s a w => membusWrite_onlyBank s b a w) es s

theorem applyCal_onlyBank (s : State) (b : Bank) : OnlyBank b s (s.applyCal b).2 := applyTable_onlyBank b _ s

/-! ### Bus traffic -/

/-- The transactions between two states: the ones after `s`, newest first, each with property `P`. -/
def Traffic (P : Txn → Prop) (s t : State) : Prop := ∃ l, t.bus = l ++ s.bus ∧ ∀ x ∈ l, P x

theorem Traffic.refl (P : Txn → Prop) (s : State) : Traffic P s s := ⟨[], rfl, by simp⟩

theorem Traffic.trans {P : Txn → Prop} {s t v : State} (h : Traffic P s t) (k : Traffic P t v) : Traffic P s v := by
  obtain ⟨l, hl, hp⟩ := h
  obtain ⟨m, hm, kp⟩ := k
  refine ⟨m ++ l, by rw [hm, hl, List.append_assoc], fun x hx => ?_⟩
  rcases List.mem_append.mp hx with hx | hx
  · exact kp x hx
  · exact hp x hx

theorem readReg_traffic {P : Txn → Prop} (s : State) (r : Reg) (h : ∀ v, P (.read (s.addrOf r) v)) :
    Traffic P s (s.readReg r).2 := ⟨[_], readReg_bus s r, by simpa using h _⟩

theorem writeReg_traffic {P : Txn → Prop} (s : State) (r : Reg) (v : Word) (h : P (.write (s.addrOf r) v)) :
    Traffic P s (s.writeReg r v) := ⟨[_], writeReg_bus s r v, by simpa using h⟩

theorem poll_traffic {P : Txn → Prop} (r : Reg) (ok : Word → Bool) (n : Nat) (s : State)
    (h : ∀ v, P (.read (s.addrOf r) v)) : Traffic P s (State.poll r ok n s).2 := by
  have := poll_induct
    (R := fun s t => t.params = s.params ∧ ((∀ v, P (.read (s.addrOf r) v)) → Traffic P s t))
    (fun s => ⟨rfl, fun _ => Traffic.refl P s⟩)
    (fun a b c k l => ⟨l.1.trans k.1, fun hp => (k.2 hp).trans (l.2 (by rw [addrOf_congr k.1]; exact hp))⟩) r
    (fun s => ⟨readReg_params s r, fun hp => readReg_traffic s r hp⟩) ok n s
  exact this.2 h

/-! ### The mailbox words (R95, R96, R98) -/

theorem Params.accepted_iff (p : Params) : p.accepted = true ↔
    p.mbxBitsOk = true ∧ p.mbxBitsClear = true ∧ p.mbxDataOk = true ∧ p.hscntOk = true ∧ p.budgetOk = true ∧
      p.divisorsOk = true ∧ p.sysfreeOk = true ∧ p.codesOk = true := by
  simp [Params.accepted, and_assoc]

theorem singleBit_exists {w : Word} (h : singleBit w = true) : ∃ i, i < 32 ∧ w = 1#32 <<< i := by
  obtain ⟨i, hi, hw⟩ := List.any_eq_true.mp h
  exact ⟨i, by simpa using hi, by simpa using hw⟩

theorem bit_of_shift_one (i j : Nat) (hi : i < 32) : (1#32 <<< i).getLsbD j = decide (j = i) := by
  rw [BitVec.getLsbD_shiftLeft]
  simp only [BitVec.getLsbD_one]
  by_cases h : j = i
  · subst h; simp [hi]
  · simp [h]; omega

theorem singleBit_ne_zero {w : Word} (h : singleBit w = true) : w ≠ 0 := by
  obtain ⟨i, hi, rfl⟩ := singleBit_exists h
  intro k
  have := congrArg (fun w => w.getLsbD i) k
  simp only [bit_of_shift_one i i hi] at this
  simp at this

/-- Two distinct single bits have no bit in common. -/
theorem singleBit_and {v w : Word} (hv : singleBit v = true) (hw : singleBit w = true) (h : v ≠ w) : v &&& w = 0 := by
  obtain ⟨i, hi, rfl⟩ := singleBit_exists hv
  obtain ⟨j, hj, rfl⟩ := singleBit_exists hw
  have hij : i ≠ j := by rintro rfl; exact h rfl
  ext k hk
  rw [← BitVec.getLsbD_eq_getElem, ← BitVec.getLsbD_eq_getElem, BitVec.getLsbD_and, bit_of_shift_one i k hi,
    bit_of_shift_one j k hj]
  simp
  omega

/-- A mailbox word with REQ set is a request (R53). -/
theorem req_not_clear {p : Params} (h : p.mbxBitsOk = true) (x : Word) : reqClear p (p.mbxReq ||| x) = false := by
  simp only [Params.mbxBitsOk, Bool.and_eq_true] at h
  have hn := singleBit_ne_zero h.1.1
  have e : (p.mbxReq ||| x) &&& p.mbxReq = p.mbxReq := by ext i hi; simp; grind
  unfold reqClear
  rw [e]
  simpa using hn

theorem mbxR_not_clear {p : Params} (h : p.mbxBitsOk = true) (a : Word) : reqClear p (p.mbxR a) = false :=
  req_not_clear h _

theorem mbxW_not_clear {p : Params} (h : p.mbxBitsOk = true) (a w : Word) : reqClear p (p.mbxW a w) = false := by
  unfold Params.mbxW; rw [BitVec.or_assoc, BitVec.or_assoc]; exact req_not_clear h _

theorem calMask_bit (p : Params) (i : Nat) (hi : i < 32) : p.calMask.getLsbD i = decide (i < p.calW) := by
  unfold Params.calMask
  rw [BitVec.getLsbD_ofNat, Nat.testBit_two_pow_sub_one]
  simp [hi]

theorem dataField_bit (p : Params) (h : p.mbxWdatShift + p.calW ≤ 32) (i : Nat) (hi : i < 32) :
    p.dataField.getLsbD i = decide (p.mbxWdatShift ≤ i ∧ i < p.mbxWdatShift + p.calW) := by
  unfold Params.dataField
  rw [BitVec.getLsbD_shiftLeft]
  by_cases h1 : i < p.mbxWdatShift
  · have : ¬ (p.mbxWdatShift ≤ i ∧ i < p.mbxWdatShift + p.calW) := by omega
    simp [h1, this]
  · rw [calMask_bit p _ (by omega), Bool.eq_iff_iff]
    simp only [hi, h1, decide_true, decide_false, Bool.not_false, Bool.and_self, Bool.true_and, decide_eq_true_eq]
    omega

/-- A word with no bit in the data field carries data 0 (R53). -/
theorem data_of_clear {p : Params} (h : p.mbxWdatShift + p.calW ≤ 32) {x : Word} (hx : x &&& p.dataField = 0) :
    (x >>> p.mbxWdatShift) &&& p.calMask = 0 := by
  ext i hi
  rw [← BitVec.getLsbD_eq_getElem, ← BitVec.getLsbD_eq_getElem, BitVec.getLsbD_and, BitVec.getLsbD_ushiftRight,
    calMask_bit p i hi]
  have := congrArg (fun w => w.getLsbD (p.mbxWdatShift + i)) hx
  simp only [BitVec.getLsbD_and] at this
  by_cases h1 : i < p.calW
  · rw [dataField_bit p h _ (by omega)] at this
    simpa [h1] using this
  · simp [h1]

/-- A word that fits carries itself as data (R53, R95). -/
theorem data_of_fit {p : Params} (h : p.mbxWdatShift + p.calW ≤ 32) {w : Word} (hw : w &&& ~~~ p.calMask = 0) :
    ((w <<< p.mbxWdatShift) >>> p.mbxWdatShift) &&& p.calMask = w := by
  ext i hi
  rw [← BitVec.getLsbD_eq_getElem, ← BitVec.getLsbD_eq_getElem, BitVec.getLsbD_and, BitVec.getLsbD_ushiftRight,
    BitVec.getLsbD_shiftLeft, calMask_bit p i hi]
  have := congrArg (fun w => w.getLsbD i) hw
  simp only [BitVec.getLsbD_and, BitVec.getLsbD_not, calMask_bit p i hi] at this
  by_cases h1 : i < p.calW
  · simp [h1]; omega
  · simpa [h1, hi] using this

theorem shifted_fits {p : Params} (h : p.mbxWdatShift + p.calW ≤ 32) {w : Word} (hw : w &&& ~~~ p.calMask = 0) :
    (w <<< p.mbxWdatShift) &&& ~~~ p.dataField = 0 := by
  ext i hi
  rw [← BitVec.getLsbD_eq_getElem, ← BitVec.getLsbD_eq_getElem, BitVec.getLsbD_and, BitVec.getLsbD_not,
    BitVec.getLsbD_shiftLeft, dataField_bit p h i hi]
  by_cases h1 : p.mbxWdatShift ≤ i ∧ i < p.mbxWdatShift + p.calW
  · simp [h1]
  · by_cases h2 : i < p.mbxWdatShift
    · simp [h2]
    · have := congrArg (fun w => w.getLsbD (i - p.mbxWdatShift)) hw
      simp only [BitVec.getLsbD_and, BitVec.getLsbD_not, calMask_bit p _ (show i - p.mbxWdatShift < 32 by omega)] at this
      have h3 : ¬ i - p.mbxWdatShift < p.calW := by omega
      have h4 : i - p.mbxWdatShift < 32 := by omega
      have h5 : w.getLsbD (i - p.mbxWdatShift) = false := by simpa [h3, h4] using this
      simp [h5]

/-- The disjointness facts of an accepted mailbox layout (R98). -/
structure MailboxLayout (p : Params) : Prop where
  req_ne : p.mbxReq ≠ 0
  wr_ne : p.mbxWr ≠ 0
  req_wr : p.mbxReq &&& p.mbxWr = 0
  req_addr : p.mbxReq &&& p.mbxAddrMask = 0
  wr_addr : p.mbxWr &&& p.mbxAddrMask = 0
  req_data : p.mbxReq &&& p.dataField = 0
  wr_data : p.mbxWr &&& p.dataField = 0
  data_addr : p.dataField &&& p.mbxAddrMask = 0
  fits : p.mbxWdatShift + p.calW ≤ 32

theorem and_zero_of_sub {a b x y : Word} (h : (a ||| b) &&& (x ||| y) = 0) :
    a &&& x = 0 ∧ b &&& x = 0 ∧ a &&& y = 0 ∧ b &&& y = 0 := by
  refine ⟨?_, ?_, ?_, ?_⟩ <;>
  · ext i hi
    have := congrArg (fun w => w.getLsbD i) h
    simp only [BitVec.getLsbD_eq_getElem hi] at this
    simp at this ⊢
    grind

theorem accepted_layout {p : Params} (h : p.accepted = true) : MailboxLayout p := by
  obtain ⟨h1, h2, h3, -⟩ := (Params.accepted_iff p).mp h
  simp only [Params.mbxBitsOk, Params.mbxBitsClear, Params.mbxDataOk, Bool.and_eq_true, bne_iff_ne, beq_iff_eq,
    decide_eq_true_eq] at h1 h2 h3
  obtain ⟨k1, k2, k3, k4⟩ := and_zero_of_sub h2
  exact ⟨singleBit_ne_zero h1.1.1, singleBit_ne_zero h1.1.2, singleBit_and h1.1.1 h1.1.2 h1.2, k1, k2, k3, k4, h3.2, h3.1⟩

theorem calAddr_sub (p : Params) (a : Word) : p.calAddr a &&& ~~~ p.mbxAddrMask = 0 := by
  unfold Params.calAddr; ext i hi; simp

/-- The request a read's word makes (R53, R96). -/
theorem requestOf_mbxR {p : Params} (h : MailboxLayout p) (a : Word) :
    requestOf p (p.mbxR a) = ⟨false, p.calAddr a, 0⟩ := by
  have hc := calAddr_sub p a
  have e1 : p.mbxR a &&& p.mbxWr = 0 := by
    unfold Params.mbxR
    ext i hi
    have := congrArg (fun w => w[i]) h.req_wr
    have := congrArg (fun w => w[i]) h.wr_addr
    have := congrArg (fun w => w[i]) hc
    simp at *
    grind
  have e2 : p.mbxR a &&& p.mbxAddrMask = p.calAddr a := by
    unfold Params.mbxR
    ext i hi
    have := congrArg (fun w => w[i]) h.req_addr
    have := congrArg (fun w => w[i]) hc
    simp at *
    grind
  have e3 : p.mbxR a &&& p.dataField = 0 := by
    unfold Params.mbxR
    ext i hi
    have := congrArg (fun w => w[i]) h.req_data
    have := congrArg (fun w => w[i]) h.data_addr
    have := congrArg (fun w => w[i]) hc
    simp at *
    grind
  simp [requestOf, e1, e2, data_of_clear h.fits e3]

/-- The request a write's word makes, for data that fits (R53, R95). -/
theorem requestOf_mbxW {p : Params} (h : MailboxLayout p) (a : Word) {w : Word} (hw : w &&& ~~~ p.calMask = 0) :
    requestOf p (p.mbxW a w) = ⟨true, p.calAddr a, w⟩ := by
  have hc := calAddr_sub p a
  have hs := shifted_fits h.fits hw
  have e1 : (p.mbxW a w &&& p.mbxWr) ≠ 0 := by
    have e : p.mbxW a w &&& p.mbxWr = p.mbxWr := by
      unfold Params.mbxW; ext i hi; simp; grind
    rw [e]; exact h.wr_ne
  have e2 : p.mbxW a w &&& p.mbxAddrMask = p.calAddr a := by
    unfold Params.mbxW
    generalize w <<< p.mbxWdatShift = x at hs
    ext i hi
    have := congrArg (fun w => w[i]) h.req_addr
    have := congrArg (fun w => w[i]) h.wr_addr
    have := congrArg (fun w => w[i]) h.data_addr
    have := congrArg (fun w => w[i]) hs
    have := congrArg (fun w => w[i]) hc
    simp at *
    grind
  have e3 : (p.mbxW a w >>> p.mbxWdatShift) &&& p.calMask = w := by
    have e4 : (p.mbxReq ||| p.mbxWr ||| p.calAddr a) &&& p.dataField = 0 := by
      ext i hi
      have := congrArg (fun w => w[i]) h.req_data
      have := congrArg (fun w => w[i]) h.wr_data
      have := congrArg (fun w => w[i]) h.data_addr
      have := congrArg (fun w => w[i]) hc
      simp at *
      grind
    have e5 : p.mbxW a w = (p.mbxReq ||| p.mbxWr ||| p.calAddr a) ||| w <<< p.mbxWdatShift := by
      unfold Params.mbxW; rw [BitVec.or_assoc, BitVec.or_assoc, BitVec.or_assoc, BitVec.or_comm (w <<< _)]
      simp [BitVec.or_assoc]
    rw [e5]
    have e6 : ∀ x y : Word, ((x ||| y) >>> p.mbxWdatShift) &&& p.calMask =
        ((x >>> p.mbxWdatShift) &&& p.calMask) ||| ((y >>> p.mbxWdatShift) &&& p.calMask) := by
      intro x y; ext i hi; simp; grind
    rw [e6, data_of_clear h.fits e4, data_of_fit h.fits hw]
    simp
  have e1' : (p.mbxW a w &&& p.mbxWr != 0) = true := by simpa using e1
  simp only [requestOf, e1', e2, e3]

/-! ### The poll of a status mirror with a request pending (R54, R141) -/

/-- One read of the mirror with a request pending: the draw decides (R54). -/
theorem readPoll_pending {s : State} {b : Bank} {q : Request} (h : (s.chan b).pending = some q) :
    s.readReg (.mempoll b) = (s.drawAt 0,
      if reqClear s.params (s.drawAt 0) then ((s.skip 1).logRead (.mempoll b) (s.drawAt 0)).perform b q
      else (s.skip 1).logRead (.mempoll b) (s.drawAt 0)) := by
  rw [readReg_mempoll]
  rcases answerPoll_cases s b with ⟨hn, -⟩ | ⟨q', hq, ⟨hc, e⟩ | ⟨hc, e⟩⟩
  · rw [h] at hn; cases hn
  · rw [h] at hq; cases hq
    rw [draw_eq] at hc e
    rw [e, if_pos hc]
    cases b <;> cases hw : q.wr <;> simp [State.perform, hw, State.setChan, State.logRead, State.chan, State.addrOf, State.skip]
  · rw [draw_eq] at hc e
    simp [e, hc]

/-- What a poll does to the bank's side: performs the request if it ends in time, leaves it pending if not (R54, R61). -/
theorem membusPoll_chan {s : State} {b : Bank} {q : Request} (h : (s.chan b).pending = some q) :
    (s.membusPoll b).2.chan b = if (s.membusPoll b).1 then (s.perform b q).chan b else s.chan b := by
  unfold State.membusPoll
  generalize s.params.membusBudget = n
  have hp : ∀ x : State, x.params = s.params → x.chan b = s.chan b →
      (State.poll (.mempoll b) (reqClear s.params) n x).2.chan b =
        if (State.poll (.mempoll b) (reqClear s.params) n x).1 then (s.perform b q).chan b else s.chan b := by
    induction n with
    | zero => intro x _ hx; simpa [poll_zero] using hx
    | succ n ih =>
      intro x hxp hx
      have hq : (x.chan b).pending = some q := by rw [hx]; exact h
      rw [poll_succ, readPoll_pending hq, hxp]
      cases hc : reqClear s.params (x.drawAt 0) with
      | true =>
        simp only [if_true]
        rw [perform_eq, perform_eq, State.setChan_chan_self, State.setChan_chan_self, State.logRead_chan, skip_chan, hx]
      | false =>
        simp only [Bool.false_eq_true, if_false]
        exact ih _ hxp (by rw [State.logRead_chan, skip_chan]; exact hx)
  exact hp s rfl rfl

/-- A poll whose `k`-th read is the first drawn with REQ clear ends with it, the request performed (R54, R141). -/
theorem membusPoll_done {s : State} {b : Bank} {q : Request} (h : (s.chan b).pending = some q) {k : Nat}
    (hk : k < s.params.membusBudget) (hno : ∀ j, j < k → reqClear s.params (s.drawAt j) = false)
    (hyes : reqClear s.params (s.drawAt k) = true) :
    s.membusPoll b = (true, (s.afterReads (.mempoll b) (k + 1)).perform b q) := by
  unfold State.membusPoll
  generalize s.params.membusBudget = n at hk
  have hp : ∀ x : State, x.params = s.params → (x.chan b).pending = some q → ∀ k, k < n →
      (∀ j, j < k → reqClear s.params (x.drawAt j) = false) → reqClear s.params (x.drawAt k) = true →
      State.poll (.mempoll b) (reqClear s.params) n x = (true, (x.afterReads (.mempoll b) (k + 1)).perform b q) := by
    clear hk hno hyes
    induction n with
    | zero => intro x _ _ k hk; omega
    | succ n ih =>
      intro x hxp hx k hk hno hyes
      rw [poll_succ, readPoll_pending hx, hxp]
      cases k with
      | zero => simp only [hyes, if_true, ← afterReads_succ, afterReads_zero]
      | succ k =>
        simp only [hno 0 (by omega), Bool.false_eq_true, if_false]
        have e : ∀ j, ((x.skip 1).logRead (.mempoll b) (x.drawAt 0)).drawAt j = x.drawAt (j + 1) := fun j => by
          rw [show j + 1 = 1 + j by omega, ← drawAt_skip]; rfl
        rw [← afterReads_succ]
        exact ih ((x.skip 1).logRead (.mempoll b) (x.drawAt 0)) hxp (by rw [State.logRead_chan, skip_chan]; exact hx) k
          (by omega)
          (fun j hj => by rw [e]; exact hno _ (by omega)) (by rw [e]; exact hyes)
  exact hp s rfl h k hk hno hyes

/-- A poll whose every read is drawn with REQ set times out after its budget of reads, the request pending (R61, R141). -/
theorem membusPoll_timeout {s : State} {b : Bank} {q : Request} (h : (s.chan b).pending = some q)
    (hno : ∀ j, j < s.params.membusBudget → reqClear s.params (s.drawAt j) = false) :
    s.membusPoll b = (false, s.afterReads (.mempoll b) s.params.membusBudget) := by
  unfold State.membusPoll
  generalize s.params.membusBudget = n at hno
  have hp : ∀ x : State, x.params = s.params → (x.chan b).pending = some q →
      (∀ j, j < n → reqClear s.params (x.drawAt j) = false) →
      State.poll (.mempoll b) (reqClear s.params) n x = (false, x.afterReads (.mempoll b) n) := by
    clear hno
    induction n with
    | zero => intro x _ _ _; rw [poll_zero, afterReads_zero]
    | succ n ih =>
      intro x hxp hx hno
      rw [poll_succ, readPoll_pending hx, hxp]
      simp only [hno 0 (by omega), Bool.false_eq_true, if_false]
      have e : ∀ j, ((x.skip 1).logRead (.mempoll b) (x.drawAt 0)).drawAt j = x.drawAt (j + 1) := fun j => by
        rw [show j + 1 = 1 + j by omega, ← drawAt_skip]; rfl
      rw [← afterReads_succ]
      exact ih _ hxp (by rw [State.logRead_chan, skip_chan]; exact hx) (fun j hj => by rw [e]; exact hno _ (by omega))
  exact hp s rfl h hno

/-! ### Requests (R140, R142) -/

/-- A mailbox write with REQ set leaves the settled side with the new request pending (R53). -/
theorem writeMem_chan {s : State} {b : Bank} {v : Word} (h : reqClear s.params v = false) :
    (s.writeReg (.mem b) v).chan b =
      { ((s.logWrite (.mem b) v).settle b).chan b with pending := some (requestOf s.params v) } := by
  rw [writeReg_mem, mailbox_eq]
  simp [h]

/-- With nothing pending, a mailbox write with REQ set takes no draw (R53). -/
theorem writeMem_idle {s : State} {b : Bank} {v : Word} (h : reqClear s.params v = false)
    (hp : (s.chan b).pending = none) :
    s.writeReg (.mem b) v =
      (s.logWrite (.mem b) v).setChan b { s.chan b with pending := some (requestOf s.params v) } := by
  have e : (s.logWrite (.mem b) v).settle b = s.logWrite (.mem b) v := by
    rcases settle_cases (s.logWrite (.mem b) v) b with ⟨-, e⟩ | ⟨q, hq, -⟩
    · exact e
    · rw [State.logWrite_chan, hp] at hq; cases hq
  rw [writeReg_mem, mailbox_eq, e]
  simp [h]

/-- The request of a mailbox word, as R53 writes it. -/
theorem requestOf_ref (p : Params) (w : Word) : requestOf p w = requestRef p w := by
  simp only [requestOf, requestRef, Params.calMask, Request.mk.injEq, and_self, and_true]
  by_cases h : w &&& p.mbxWr = 0
  · simp [h]
  · rw [bne_iff_ne.mpr h, decide_eq_true h]

/-- A write request's mailbox word asks for a write, whatever its data (R95). -/
theorem requestOf_mbxW_wr {p : Params} (hp : p.accepted = true) (a w : Word) : (requestOf p (p.mbxW a w)).wr = true := by
  have h := (accepted_layout hp).wr_ne
  simp only [requestOf, bne_iff_ne, ne_eq]
  intro e
  refine h (BitVec.eq_of_getLsbD_eq fun i hi => ?_)
  have := congrArg (fun w => w.getLsbD i) e
  simp only [Params.mbxW, BitVec.getLsbD_and, BitVec.getLsbD_or] at this
  simp at this ⊢
  grind

/-- A membus write that ends in time stores its request's data in the settled memory and leaves nothing pending; one
that does not leaves the request pending (R140). -/
theorem membusWrite_chan {p : Params} {s : State} {b : Bank} {a w : Word} (hl : p = s.params)
    (hp : p.accepted = true) :
    (s.membusWrite b a w).2.chan b =
      let c := ((s.logWrite (.mem b) (p.mbxW a w)).settle b).chan b
      let q := requestOf p (p.mbxW a w)
      if (s.membusWrite b a w).1 then { c with cal := c.cal.write q.a.toNat q.d, pending := none }
      else { c with pending := some q } := by
  subst hl
  have hx := writeMem_chan (s := s) (b := b) (mbxW_not_clear ((Params.accepted_iff _).mp hp).1 a w)
  have hw := requestOf_mbxW_wr hp a w
  unfold State.membusWrite
  rw [membusPoll_chan (q := requestOf s.params (s.params.mbxW a w)) (by rw [hx]), perform_eq, State.setChan_chan_self, hx,
    hw]
  rfl

/-- A membus read that ends in time answers the settled memory's word and leaves nothing pending (R142). -/
theorem membusRead_chan {p : Params} {s : State} {b : Bank} {a : Word} (hl : p = s.params) (hp : p.accepted = true) :
    let c := ((s.logWrite (.mem b) (p.mbxR a)).settle b).chan b
    ((s.membusRead b a).1 = some (c.cal.read (p.calAddr a).toNat) ∧
        (s.membusRead b a).2.chan b = { c with memstat := c.cal.read (p.calAddr a).toNat, pending := none }) ∨
      ((s.membusRead b a).1 = none ∧ (s.membusRead b a).2.chan b = { c with pending := some ⟨false, p.calAddr a, 0⟩ }) := by
  subst hl
  have hc := mbxR_not_clear ((Params.accepted_iff _).mp hp).1 a
  have hx := writeMem_chan (s := s) (b := b) hc
  rw [requestOf_mbxR (accepted_layout hp) a] at hx
  have hq := membusPoll_chan (s := s.writeReg (.mem b) (s.params.mbxR a)) (b := b)
    (q := ⟨false, s.params.calAddr a, 0⟩) (by rw [hx])
  rw [perform_eq, State.setChan_chan_self, hx] at hq
  rw [membusRead_eq]
  cases hd : ((s.writeReg (.mem b) (s.params.mbxR a)).membusPoll b).1 with
  | true =>
    left
    rw [hd] at hq
    simp only [if_true] at hq ⊢
    rw [readReg_memstat]
    simp [hq]
  | false =>
    right
    rw [hd] at hq
    simpa using hq

/-- With nothing pending there is nothing to settle. -/
theorem settle_idle {s : State} {b : Bank} (h : (s.chan b).pending = none) : s.settle b = s := by
  rcases settle_cases s b with ⟨-, e⟩ | ⟨q, hq, -⟩
  · exact e
  · rw [h] at hq; cases hq

/-! ### The calibration table (R144) -/

theorem fits_update {p : Params} {e : CalEntry} {old : Word} (ho : old &&& ~~~ p.calMask = 0)
    (hv : e.value &&& ~~~ p.calMask = 0) : calUpdate e old &&& ~~~ p.calMask = 0 := by
  unfold calUpdate
  ext i hi
  have := congrArg (fun w => w[i]) ho
  have := congrArg (fun w => w[i]) hv
  simp at *
  grind

theorem fits_and {p : Params} {w : Word} (h : w &&& ~~~ p.calMask = 0) : w &&& p.calMask = w := by
  ext i hi
  have := congrArg (fun w => w[i]) h
  simp at *
  grind

theorem read_fits {p : Params} {m : Memory} (h : calFits p m = true) (a : Nat) : m.read a &&& ~~~ p.calMask = 0 := by
  induction m with
  | nil => simp [Memory.read, Memory.unlisted]
  | cons e m ih =>
    obtain ⟨x, w⟩ := e
    simp only [calFits, List.all_cons, Bool.and_eq_true, beq_iff_eq] at h
    simp only [Memory.read]
    split
    · exact h.1
    · exact ih h.2

theorem write_fits {p : Params} {m : Memory} (h : calFits p m = true) (a : Nat) {v : Word}
    (hv : v &&& ~~~ p.calMask = 0) : calFits p (m.write a v) = true := by
  unfold calFits at *
  rw [List.all_eq_true] at *
  intro e he
  rcases Memory.mem_write he with rfl | he
  · simpa using hv
  · exact h e he

/-- What settling leaves of a bank's membus side: the side itself, or the side with its request performed (R53). -/
theorem settle_chan_cases (s : State) (b : Bank) :
    (s.settle b).chan b = s.chan b ∨
      ∃ q, (s.chan b).pending = some q ∧ (s.settle b).chan b = (s.chan b).performed q := by
  rcases settle_cases s b with ⟨-, e⟩ | ⟨q, hq, ⟨e, -⟩ | ⟨e, -⟩⟩
  · exact .inl (by rw [e])
  · refine .inr ⟨q, hq, ?_⟩
    rw [e, perform_eq, State.setChan_chan_self, State.draw_chan]
    rfl
  · exact .inl (by rw [e, State.draw_chan])

/-- A table applied in time with nothing pending acts on the memory as its image does (R144). -/
theorem applyTable_chan {p : Params} (hp : p.accepted = true) (b : Bank) (es : List CalEntry) (s : State)
    (hs : s.params = p) (hn : (s.chan b).pending = none) (hd : (State.applyTable b es s).1 = true) :
    ((State.applyTable b es s).2.chan b).cal = tableImage p es (s.chan b).cal ∧
      ((State.applyTable b es s).2.chan b).pending = none := by
  induction es generalizing s with
  | nil => exact ⟨rfl, hn⟩
  | cons e es ih =>
    unfold State.applyTable at hd ⊢
    have h1 := membusRead_chan (s := s) (b := b) (a := e.addrOffset) hs.symm hp
    have k1 := (membusRead_onlyBank s b e.addrOffset).params
    rw [settle_idle (by rw [State.logWrite_chan]; exact hn), State.logWrite_chan] at h1
    generalize s.membusRead b e.addrOffset = x at *
    rcases x with ⟨_ | old, t⟩
    · simp at hd
    · rcases h1 with ⟨ho, ht⟩ | ⟨ho, -⟩
      · simp only [Option.some.injEq] at ho
        dsimp only at k1 ht hd ⊢
        have h2 := membusWrite_chan (s := t) (b := b) (a := e.addrOffset) (w := calUpdate e old) (k1.trans hs).symm hp
        have k2 := (membusWrite_onlyBank t b e.addrOffset (calUpdate e old)).params
        simp only at h2
        rw [settle_idle (by rw [State.logWrite_chan, ht]), State.logWrite_chan, ht] at h2
        generalize t.membusWrite b e.addrOffset (calUpdate e old) = y at *
        rcases y with ⟨_ | _, v⟩
        · simp at hd
        · simp only [if_true] at h2
          dsimp only at hd k2 ⊢
          have := ih v (k2.trans (k1.trans hs)) (by rw [h2]) hd
          rw [h2] at this
          refine ⟨this.1.trans ?_, this.2⟩
          rw [tableImage, ← requestOf_ref, ho]
          rfl
      · cases ho

/-- A table of values that fit acts as its maps do (R145). -/
theorem tableImage_eq_tableRef {p : Params} (hp : p.accepted = true) {es : List CalEntry}
    (hf : ∀ e ∈ es, e.value &&& ~~~ p.calMask = 0) {m : Memory} (hc : calFits p m = true) :
    tableImage p es m = tableRef p es m := by
  induction es generalizing m with
  | nil => rfl
  | cons e es ih =>
    have hu : calUpdate e (m.read (p.calAddr e.addrOffset).toNat) &&& ~~~ p.calMask = 0 :=
      fits_update (read_fits hc _) (hf e List.mem_cons_self)
    have hq := requestOf_mbxW (accepted_layout hp) e.addrOffset hu
    rw [tableImage, tableRef, ← requestOf_ref]
    show tableImage p es (m.write (requestOf p (p.mbxW e.addrOffset (calUpdate e _))).a.toNat
      (requestOf p (p.mbxW e.addrOffset (calUpdate e _))).d) = tableRef p es (m.write _ (calUpdate e _ &&& p.calMask))
    rw [hq, fits_and hu]
    exact ih (fun x hx => hf x (List.mem_cons_of_mem _ hx)) (write_fits hc _ hu)

end Sys2Proof.Machine
end

