-- ==== Sys2Proof/Laws/Bringup.lean ====
section
/-!
SUPPORT. What each operation of the bring-up sequencer can do, said once, and what a list of operations and a list of
states do.
-/

namespace Sys2Proof.Machine

open Sys2Proof

/-- What an operation makes of the storage registers. -/
def SeqOp.onRegs (p : Params) (f : StoreFile) : SeqOp → StoreFile
  | .write r v => f.set r v
  | .setBits r m => f.set r (f.get r ||| m)
  | .clrBits r m => f.set r (f.get r &&& ~~~ m)
  | .forceBypass b => f.set (.bank b .bypass) p.bypassAll
  | .clearBypass b => f.set (.bank b .bypass) 0
  | .editCtrl e => f.set .ctrl (e.apply p f.ctrl)
  | .busyWait => f
  | .lockWait => f
  | .clearLostLock _ => f
  | .clearIntr => f
  | .calTable _ => f
  | .divideByZero => f

/-- What an operation may note in `DIAG` (R175, R187). -/
def SeqOp.mayNote : SeqOp → List Wait
  | .busyWait => [.busyWait]
  | .forceBypass _ => [.busyWait]
  | .clearBypass _ => [.busyWait]
  | .lockWait => [.lockWait]
  | .calTable b => [.applyCaltable b]
  | .write _ _ => []
  | .setBits _ _ => []
  | .clrBits _ _ => []
  | .clearLostLock _ => []
  | .clearIntr => []
  | .editCtrl _ => []
  | .divideByZero => []

/-- The effect of an operation that raises no fault. -/
structure OpEffect (op : SeqOp) (s t : State) : Prop where
  params : t.params = s.params
  cfg : t.cfg = s.cfg
  seq : t.seq = s.seq
  fault : t.fault = s.fault
  result : t.result = s.result
  cmds : t.cmds = s.cmds
  regs : t.regs = op.onRegs s.params s.regs
  diag : t.diag = s.diag ∨ ∃ w ∈ op.mayNote, t.diag = s.diag ++ [⟨s.seq, s.u, w⟩]
  chan : ∀ b, op ≠ .calTable b → t.chan b = s.chan b

theorem OpEffect.ofKeeps {op : SeqOp} {s t : State} (h : Keeps s t) (hr : t.regs = op.onRegs s.params s.regs)
    (hc : ∀ b, op ≠ .calTable b → t.chan b = s.chan b) : OpEffect op s t :=
  ⟨h.params, h.cfg, h.seq, h.fault, h.result, h.cmds, hr, .inl h.diag, hc⟩

theorem guarded_ok {s : State} {r : Reg} (ha : s.params.offsetsAligned = true) (f : State → State) :
    s.guarded r f = .ok () (f s) := by
  unfold State.guarded; rw [if_pos (Params.offset_aligned ha r)]

/-- A wait on STAT: in time, or timed out and noted (R133, R175). -/
theorem waitStat_ok {s : State} (ha : s.params.offsetsAligned = true) (ws : Bool) (m : Word) (w : Wait) :
    ∃ t, Keeps s t ∧ t.regs = s.regs ∧ (∀ b, t.chan b = s.chan b) ∧
      (s.waitStat ws m w = .ok () t ∨ s.waitStat ws m w = .ok () (t.note w)) := by
  refine ⟨(State.poll .stat (senseMet ws m) waitBudget s).2, poll_keeps .., poll_regs ..,
    fun b => poll_chan_of_ne _ _ _ _ (by simp [polls]), ?_⟩
  unfold State.waitStat
  rw [guarded_ok ha]
  generalize State.poll .stat (senseMet ws m) waitBudget s = x
  obtain ⟨_ | _, t⟩ := x
  · exact .inr rfl
  · exact .inl rfl

theorem waitStat_effect {s : State} {op : SeqOp} (ha : s.params.offsetsAligned = true) (ws : Bool) (m : Word) {w : Wait}
    (hw : w ∈ op.mayNote) (hr : ∀ f, op.onRegs s.params f = f) :
    ∃ t, s.waitStat ws m w = .ok () t ∧ OpEffect op s t := by
  obtain ⟨t, k, r, c, h | h⟩ := waitStat_ok ha ws m w
  · exact ⟨t, h, .ofKeeps k (by rw [r, hr]) fun b _ => c b⟩
  · refine ⟨_, h, k.params, k.cfg, k.seq, k.fault, k.result, k.cmds, by rw [State.note_regs, r, hr],
      .inr ⟨w, hw, ?_⟩, fun b _ => by rw [State.note_chan, c]⟩
    rw [State.note_diag, k.diag, k.seq, k.u]

theorem readReg_chan_store (s : State) (r : StoreReg) (b : Bank) : (s.readReg (.store r)).2.chan b = s.chan b :=
  readReg_chan_of_ne _ _ (by simp [polls])

/-- A bypass write and its busy-wait (R131). -/
theorem writeBypass_effect {s : State} {op : SeqOp} (ha : s.params.offsetsAligned = true) (b : Bank) (v : Word)
    (hw : op.mayNote = [.busyWait]) (hr : op.onRegs s.params s.regs = s.regs.set (.bank b .bypass) v) :
    ∃ t, s.writeBypass b v = .ok () t ∧ OpEffect op s t := by
  have kw := writeReg_keeps s (.store (.bank b .bypass)) v
  obtain ⟨t, k, r, c, h⟩ :=
    waitStat_ok (s := s.writeReg (.store (.bank b .bypass)) v) (by rw [kw.params]; exact ha) false
      (busyMask (s.writeReg (.store (.bank b .bypass)) v).params) .busyWait
  have k' := kw.trans k
  have r' : t.regs = op.onRegs s.params s.regs := by rw [r, hr, writeReg_store]
  have c' : ∀ b', t.chan b' = s.chan b' := fun b' => by
    rw [c, writeReg_chan_of_ne _ _ _ (by simp)]
  rcases h with h | h
  · exact ⟨t, h, .ofKeeps k' r' fun b _ => c' b⟩
  · exact ⟨_, h, k'.params, k'.cfg, k'.seq, k'.fault, k'.result, k'.cmds, r',
      .inr ⟨.busyWait, by simp [hw], by rw [State.note_diag, k'.diag, k'.seq, k'.u]⟩, fun b _ => by
        rw [State.note_chan, c']⟩

theorem clearLatch_effect {s : State} {op : SeqOp} (ha : s.params.offsetsAligned = true) {r : Reg} (m : Word)
    (hl : r.cls = .latch) (hr : ∀ f, op.onRegs s.params f = f) :
    ∃ t, s.clearLatch r m = .ok () t ∧ OpEffect op s t := by
  have hn : ∀ p b, polls p r ≠ some b := by intro p b; cases r <;> simp_all [polls, Reg.cls]
  have hm : ∀ b, r ≠ .mem b := by intro b; rintro rfl; cases hl
  have hs : r.cls ≠ .storage := by rw [hl]; decide
  unfold State.clearLatch
  cases s.params.latchClr with
  | w1c =>
    exact ⟨_, rfl, .ofKeeps (writeReg_keeps ..) (by rw [hr, writeReg_regs_of_ne _ _ hs])
      fun b _ => writeReg_chan_of_ne _ _ _ (hm b)⟩
  | clrbits =>
    refine ⟨_, guarded_ok ha _, .ofKeeps (clearMask_keeps ..) ?_ fun b _ => ?_⟩
    · rw [hr, clearMask_eq, writeReg_regs_of_ne _ _ hs, readReg_regs]
    · rw [clearMask_eq, writeReg_chan_of_ne _ _ _ (hm b), readReg_chan_of_ne _ _ (hn _ b)]

/-- Everything an operation can do, in a configuration of aligned offsets: every one but the division by zero completes
(R171 to R196). -/
theorem runOp_effect {s : State} (ha : s.params.offsetsAligned = true) {op : SeqOp} (h : op ≠ .divideByZero) :
    ∃ t, s.runOp op = .ok () t ∧ OpEffect op s t := by
  have hst : ∀ (r : StoreReg) (v : Word) b, (s.writeReg (.store r) v).chan b = s.chan b := fun r v b =>
    writeReg_chan_of_ne _ _ _ (by simp)
  have hrw : ∀ (r : StoreReg) (v w : Word) b, ((s.readReg (.store r)).2.writeReg (.store r) w).chan b = s.chan b :=
    fun r v w b => by rw [writeReg_chan_of_ne _ _ _ (by simp), readReg_chan_store]
  cases op with
  | write r v => exact ⟨_, rfl, .ofKeeps (writeReg_keeps ..) (by rw [writeReg_store]; rfl) fun b _ => hst r v b⟩
  | setBits r m =>
    exact ⟨_, guarded_ok ha (fun s => s.setMask (.store r) m), .ofKeeps (setMask_keeps ..) (setMask_regs_store ..) fun b _ => hrw r m _ b⟩
  | clrBits r m =>
    exact ⟨_, guarded_ok ha (fun s => s.clearMask (.store r) m), .ofKeeps (clearMask_keeps ..) (clearMask_regs_store ..) fun b _ => hrw r m _ b⟩
  | busyWait => exact waitStat_effect ha _ _ (by simp [SeqOp.mayNote]) fun _ => rfl
  | lockWait => exact waitStat_effect ha _ _ (by simp [SeqOp.mayNote]) fun _ => rfl
  | forceBypass b => exact writeBypass_effect ha b _ rfl rfl
  | clearBypass b => exact writeBypass_effect ha b _ rfl rfl
  | clearLostLock b => exact clearLatch_effect ha _ rfl fun _ => rfl
  | clearIntr => exact clearLatch_effect ha _ rfl fun _ => rfl
  | calTable b =>
    have k := applyCal_onlyBank s b
    have e : s.runOp (.calTable b) = if (s.applyCal b).1 then .ok () (s.applyCal b).2
        else .ok () ((s.applyCal b).2.note (.applyCaltable b)) := by
      simp only [State.runOp]; rcases s.applyCal b with ⟨_ | _, t⟩ <;> rfl
    rw [e]
    generalize s.applyCal b = x at *
    obtain ⟨_ | _, t⟩ := x
    · refine ⟨_, rfl, k.params, k.cfg, k.seq, k.fault, k.result, k.cmds, k.regs,
        .inr ⟨.applyCaltable b, by simp [SeqOp.mayNote], ?_⟩, fun b' hb => ?_⟩
      · rw [State.note_diag, k.diag, k.seq, k.u]
      · rw [State.note_chan]; exact k.other b' (by rintro rfl; exact hb rfl)
    · exact ⟨_, rfl, .ofKeeps k.toKeeps k.regs fun b' hb => k.other b' (by rintro rfl; exact hb rfl)⟩
  | editCtrl e =>
    refine ⟨_, rfl, rfl, rfl, rfl, rfl, rfl, rfl, rfl, .inl rfl, fun b _ => ?_⟩
    cases b <;> rfl
  | divideByZero => exact absurd rfl h

/-- A state's diagnostics as a run of operations may leave them: in order, each at the micro-step of its operation. -/
def notes (q : SeqState) : List SeqOp → Nat → List DiagEntry
  | [], _ => []
  | op :: ops, u => op.mayNote.map (fun w => ⟨q, u, w⟩) ++ notes q ops (u + op.microSteps)

/-- The effect of a run of operations or states that raises no fault. -/
structure RunEffect (onRegs : StoreFile → StoreFile) (mayNote : List DiagEntry) (s t : State) : Prop where
  params : t.params = s.params
  cfg : t.cfg = s.cfg
  fault : t.fault = s.fault
  result : t.result = s.result
  cmds : t.cmds = s.cmds
  regs : t.regs = onRegs s.regs
  diag : ∃ l, l.Sublist mayNote ∧ t.diag = s.diag ++ l

theorem RunEffect.refl (s : State) : RunEffect id [] s s := ⟨rfl, rfl, rfl, rfl, rfl, rfl, [], .slnil, by simp⟩

theorem RunEffect.trans {f g : StoreFile → StoreFile} {m n : List DiagEntry} {s t v : State} (h : RunEffect f m s t)
    (k : RunEffect g n t v) : RunEffect (fun x => g (f x)) (m ++ n) s v := by
  obtain ⟨l, hl, hd⟩ := h.diag
  obtain ⟨l', hl', hd'⟩ := k.diag
  exact ⟨k.params.trans h.params, k.cfg.trans h.cfg, k.fault.trans h.fault, k.result.trans h.result,
    k.cmds.trans h.cmds, by rw [k.regs, h.regs], l ++ l', hl.append hl', by rw [hd', hd, List.append_assoc]⟩

/-- A run of operations completes, its register effects folded in order (R197). -/
theorem runOps_effect {ops : List SeqOp} (hn : ∀ op ∈ ops, op ≠ .divideByZero) {s : State}
    (ha : s.params.offsetsAligned = true) (u : Nat) :
    ∃ t, runOps ops u s = .ok () t ∧ t.seq = s.seq ∧
      RunEffect (fun f => ops.foldl (SeqOp.onRegs s.params) f) (notes s.seq ops u) s t := by
  induction ops generalizing s u with
  | nil => exact ⟨s, rfl, rfl, RunEffect.refl s⟩
  | cons op ops ih =>
    obtain ⟨t, ht, e⟩ := runOp_effect (s := s.at s.seq u) ha (hn op List.mem_cons_self)
    have e1 : RunEffect (fun f => op.onRegs s.params f) (op.mayNote.map (fun w => ⟨s.seq, u, w⟩)) s t := by
      refine ⟨e.params, e.cfg, e.fault, e.result, e.cmds, e.regs, ?_⟩
      rcases e.diag with hd | ⟨w, hw, hd⟩
      · exact ⟨[], List.nil_sublist _, by rw [hd]; simp⟩
      · exact ⟨[⟨s.seq, u, w⟩], List.singleton_sublist.mpr (List.mem_map.mpr ⟨w, hw, rfl⟩), by rw [hd]; rfl⟩
    obtain ⟨v, hv, hq, e2⟩ := ih (fun o ho => hn o (List.mem_cons_of_mem _ ho)) (s := t)
      (by rw [e.params]; exact ha) (u + op.microSteps)
    have hs : t.seq = s.seq := e.seq
    refine ⟨v, ?_, hq.trans hs, ?_⟩
    · unfold runOps; rw [ht]; exact hv
    · have := e1.trans e2
      rw [hs, show t.params = s.params from e.params] at this
      exact this

/-- A run of states completes, the register effects of its operations folded in order (R170, R197). -/
theorem runStates_effect {p : Params} {c : BringUpConfig} (ha : p.offsetsAligned = true) {qs : List SeqState}
    (hn : ∀ q ∈ qs, ∀ op ∈ program p c q, op ≠ .divideByZero) {s : State} (hp : s.params = p) (hc : s.cfg = c) :
    ∃ t, runStates qs s = .ok () t ∧
      RunEffect (fun f => (qs.flatMap (program p c)).foldl (SeqOp.onRegs p) f)
        (qs.flatMap fun q => notes q (program p c q) 0) s t := by
  induction qs generalizing s with
  | nil => exact ⟨s, rfl, RunEffect.refl s⟩
  | cons q qs ih =>
    subst hp hc
    obtain ⟨t, ht, -, e⟩ := runOps_effect (hn q List.mem_cons_self) (s := s.at q 0) ha 0
    obtain ⟨v, hv, e'⟩ := ih (fun x hx => hn x (List.mem_cons_of_mem _ hx)) (s := t) e.params e.cfg
    refine ⟨v, ?_, ?_⟩
    · unfold runStates; rw [ht]; exact hv
    · have e0 : RunEffect (fun f => (program s.params s.cfg q).foldl (SeqOp.onRegs s.params) f)
          (notes q (program s.params s.cfg q) 0) s t :=
        ⟨e.params, e.cfg, e.fault, e.result, e.cmds, e.regs, e.diag⟩
      have := e0.trans e'
      simpa only [List.flatMap_cons, List.foldl_append] using this

/-- No state's program divides by zero when both banks' calibrations are defined (R180). -/
theorem program_no_divide {p : Params} {c : BringUpConfig} {vcM vcP : Word}
    (hM : vcoWord p c.main.pllm c.main.pllglob = some vcM) (hP : vcoWord p c.peri.pllm c.peri.pllglob = some vcP)
    (q : SeqState) : ∀ op ∈ program p c q, op ≠ .divideByZero := by
  cases q <;> simp [program, stageBank, BringUpConfig.bank, hM, hP, allSlices, allGates]

end Sys2Proof.Machine
end

