-- ==== Sys2Proof/Laws/Fields.lean ====
section
/-!
SUPPORT. Laws of the bit fields (R9): which bits a mask has, what a field reads after a put, a set or a clear.
-/

namespace Sys2Proof

theorem Field.mask_bit (f : Field) {i : Nat} (hi : i < 32) :
    f.mask.getLsbD i = decide (f.lsb ≤ i ∧ i < f.lsb + f.width) := by
  unfold Field.mask
  rw [BitVec.getLsbD_ofNat, Nat.testBit_mul_two_pow, Nat.testBit_two_pow_sub_one]
  by_cases h : f.lsb ≤ i
  · simp only [hi, decide_true, Bool.true_and, h, decide_eq_decide, true_and]; omega
  · simp [h]

/-- Bit `i` of a field's value is bit `lsb + i` of the word. -/
theorem Field.get_bit (f : Field) (v : Word) (i : Nat) :
    (f.get v).getLsbD i = (decide (i < f.width) && v.getLsbD (f.lsb + i)) := by
  unfold Field.get
  rw [BitVec.getLsbD_ushiftRight, BitVec.getLsbD_and]
  by_cases h : f.lsb + i < 32
  · rw [Field.mask_bit f h, Bool.and_comm]; congr 1; simp
  · simp [BitVec.getLsbD_of_ge v (f.lsb + i) (by omega)]

/-- A field's value read from bits: two words that agree on a field's bits read the same there. -/
theorem Field.get_congr (f : Field) {v w : Word} (h : ∀ i, i < f.width → v.getLsbD (f.lsb + i) = w.getLsbD (f.lsb + i)) :
    f.get v = f.get w := by
  refine BitVec.eq_of_getLsbD_eq fun i _ => ?_
  rw [Field.get_bit, Field.get_bit]
  by_cases hi : i < f.width
  · rw [h i hi]
  · simp [hi]

/-- Clearing a field's mask makes it read 0. -/
theorem Field.get_clear (f : Field) (v m : Word) (h : f.mask &&& ~~~ m = 0) : f.get (v &&& ~~~ m) = 0 := by
  refine BitVec.eq_of_getLsbD_eq fun i _ => ?_
  rw [Field.get_bit, BitVec.getLsbD_and, BitVec.getLsbD_not]
  by_cases hi : i < f.width
  · by_cases hb : f.lsb + i < 32
    · have := congrArg (fun w => w.getLsbD (f.lsb + i)) h
      simp only [BitVec.getLsbD_and, BitVec.getLsbD_not, Field.mask_bit f hb, hb] at this
      simp at this
      rw [this hi]; simp
    · simp [BitVec.getLsbD_of_ge v (f.lsb + i) (by omega)]
  · simp [hi]

/-- Setting or clearing bits outside a field leaves it. -/
theorem Field.get_outside (f : Field) {v w : Word} (h : f.mask &&& (v ^^^ w) = 0) : f.get v = f.get w := by
  refine Field.get_congr f fun i hi => ?_
  by_cases hb : f.lsb + i < 32
  · have := congrArg (fun w => w.getLsbD (f.lsb + i)) h
    simp only [BitVec.getLsbD_and, BitVec.getLsbD_xor, Field.mask_bit f hb] at this
    simpa [hi] using this
  · rw [BitVec.getLsbD_of_ge v _ (by omega), BitVec.getLsbD_of_ge w _ (by omega)]

/-- Two fields apart share no mask bit. -/
theorem Field.masks_apart {f g : Field} (h : f.apart g = true) : f.mask &&& g.mask = 0 := by
  simp only [Field.apart, Bool.or_eq_true, decide_eq_true_eq] at h
  refine BitVec.eq_of_getLsbD_eq fun i hi => ?_
  rw [BitVec.getLsbD_and, Field.mask_bit f hi, Field.mask_bit g hi]
  simp
  omega

/-- A field reads what was put in it, as far as it fits (R9). -/
theorem Field.get_put (f : Field) (hf : f.fits = true) (v x : Word) :
    f.get (f.put v x) = x &&& BitVec.ofNat 32 (2 ^ f.width - 1) := by
  simp only [Field.fits, decide_eq_true_eq] at hf
  refine BitVec.eq_of_getLsbD_eq fun i hi => ?_
  rw [Field.get_bit]
  unfold Field.put
  rw [BitVec.getLsbD_and, BitVec.getLsbD_ofNat, Nat.testBit_two_pow_sub_one]
  by_cases hw : i < f.width
  · have hb : f.lsb + i < 32 := by omega
    rw [BitVec.getLsbD_or, BitVec.getLsbD_and, BitVec.getLsbD_and, BitVec.getLsbD_not, BitVec.getLsbD_shiftLeft,
      Field.mask_bit f hb]
    simp [hw, hi, hb]
  · simp [hw]

/-- A put leaves a field apart from it (R9). -/
theorem Field.get_put_apart {f g : Field} (h : f.apart g = true) (v x : Word) : g.get (f.put v x) = g.get v := by
  refine Field.get_outside g ?_
  have hm := Field.masks_apart h
  unfold Field.put
  refine BitVec.eq_of_getLsbD_eq fun i hi => ?_
  have := congrArg (fun w => w.getLsbD i) hm
  simp only [BitVec.getLsbD_and, BitVec.getLsbD_xor, BitVec.getLsbD_or, BitVec.getLsbD_not] at *
  simp at this
  grind

/-- A one-bit field reads 1 after its mask is set. -/
theorem Field.get_set_one {f : Field} (hf : f.fits = true) (hw : f.width = 1) (v m : Word) (h : f.mask &&& ~~~ m = 0) :
    f.get (v ||| m) = 1 := by
  simp only [Field.fits, decide_eq_true_eq] at hf
  refine BitVec.eq_of_getLsbD_eq fun i hi => ?_
  rw [Field.get_bit, BitVec.getLsbD_or, hw]
  by_cases h0 : i = 0
  · subst h0
    have hb : f.lsb + 0 < 32 := by omega
    have := congrArg (fun w => w.getLsbD (f.lsb + 0)) h
    simp only [BitVec.getLsbD_and, BitVec.getLsbD_not, Field.mask_bit f hb, hb] at this
    simp [hw] at this
    simp [this]
  · simp [show ¬ i < 1 by omega, h0]

end Sys2Proof
end

