-- ==== Sys2Proof/Laws/Rate.lean ====
section
/-!
SUPPORT. Laws of the rate engine: every derivation answers what its reference says, having read exactly the registers
its reference names, in order, and changed nothing else.
-/

namespace Sys2Proof.Machine

open Sys2Proof

/-- `s` with storage registers read in order. -/
def State.afterRegs (s : State) (l : List StoreReg) : State := { s with bus := s.busAfter l }

@[simp] theorem afterRegs_params (s : State) (l : List StoreReg) : (s.afterRegs l).params = s.params := (rfl)
@[simp] theorem afterRegs_regs (s : State) (l : List StoreReg) : (s.afterRegs l).regs = s.regs := (rfl)

theorem afterRegs_nil (s : State) : s.afterRegs [] = s := rfl

theorem afterRegs_afterRegs (s : State) (l m : List StoreReg) : (s.afterRegs l).afterRegs m = s.afterRegs (l ++ m) := by
  simp [State.afterRegs, State.busAfter, State.addrOf, List.append_assoc]

theorem logRead_afterRegs (s : State) (r : StoreReg) : s.logRead (.store r) (s.regs.get r) = s.afterRegs [r] := rfl

/-- How a derivation ends: with its value or with DivideByZero, its registers read (R220). -/
def rateRes (s : State) (l : List StoreReg) : Option Nat → Res Hz
  | none => .fault .divideByZero (s.afterRegs l)
  | some n => .ok (BitVec.ofNat 64 n) (s.afterRegs l)

/-- A derivation answers the value `o`, which fits 64 bits, having read the registers `l`. -/
def Computes (r : Res Hz) (s : State) (o : Option Nat) (l : List StoreReg) : Prop :=
  (∀ n, o = some n → n < 2 ^ 64) ∧ r = rateRes s l o

theorem Computes.ok {s : State} {v : Hz} {n : Nat} (hv : v.toNat = n) : Computes (.ok v s) s (some n) [] := by
  subst hv
  refine ⟨fun n h => by cases h; exact v.isLt, ?_⟩
  simp [rateRes, afterRegs_nil]

/-- Start with a read of a storage register. -/
theorem Computes.after {s : State} {r : StoreReg} {x : Res Hz} {o : Option Nat} {l : List StoreReg}
    (h : Computes x (s.afterRegs [r]) o l) : Computes x s o (r :: l) := by
  refine ⟨h.1, h.2.trans ?_⟩
  cases o <;> simp [rateRes, afterRegs_afterRegs]

/-- Go on after a derivation. -/
theorem Computes.map {r : Res Hz} {s : State} {o : Option Nat} {l m : List StoreReg} (h : Computes r s o l)
    {f : Hz → State → Res Hz} {g : Nat → Nat}
    (hf : ∀ n t, n < 2 ^ 64 → t.params = s.params → t.regs = s.regs → Computes (f (BitVec.ofNat 64 n) t) t (some (g n)) m) :
    Computes (r.bind f) s (o.map g) (l ++ readsAfter o m) := by
  obtain ⟨hn, rfl⟩ := h
  cases o with
  | none => exact ⟨(fun n h => by cases h), by simp [rateRes, readsAfter]⟩
  | some n =>
    obtain ⟨k, e⟩ := hf n (s.afterRegs l) (hn n rfl) rfl rfl
    exact ⟨k, by simp [rateRes, readsAfter, e, afterRegs_afterRegs]⟩

theorem toHz_toNat (v : Word) : (toHz v).toNat = v.toNat := by
  unfold toHz
  rw [BitVec.toNat_setWidth]
  exact Nat.mod_eq_of_lt (by have := v.isLt; omega)

theorem ofNat_toNat {n : Nat} (h : n < 2 ^ 64) : (BitVec.ofNat 64 n).toNat = n := by
  rw [BitVec.toNat_ofNat]; exact Nat.mod_eq_of_lt h

theorem divConst_toNat {n d : Nat} (h : n < 2 ^ 64) : (divConst (BitVec.ofNat 64 n) d).toNat = n / d := by
  unfold divConst
  rw [ofNat_toNat h, ofNat_toNat (Nat.lt_of_le_of_lt (Nat.div_le_self n d) h)]

/-- Every divisor taken from a count field is at least 1 and does not wrap (R240). -/
theorem countDivisor_toNat (w : Word) : (1 + toHz w).toNat = 1 + w.toNat := by
  rw [BitVec.toNat_add, toHz_toNat]
  have := w.isLt
  simp
  omega

/-- `vco_hz` answers its reference (R220). -/
theorem vcoHz_computes (s : State) (b : Bank) :
    Computes (s.vcoHz b) s (vcoRef s.params s.regs b) (vcoReads s.params s.regs b) := by
  unfold State.vcoHz vcoRef vcoReads
  simp only [readReg_store, logRead_afterRegs, afterRegs_params, afterRegs_regs]
  cases hs : s.params.vcoSource (s.params.fields.psrc.get (s.regs.get (.bank b .pllglob))) with
  | none => exact Computes.after (Computes.ok rfl)
  | some osc =>
    dsimp only
    by_cases ha : s.params.fields.arefclkdiv.get (s.regs.get (.bank b .pllglob)) = 0
    · rw [if_pos ha, if_pos (by rw [ha]; rfl), if_pos ha]
      exact ⟨(fun n h => by cases h), rfl⟩
    · rw [if_neg ha, if_neg fun h => ha (BitVec.eq_of_toNat_eq (by simpa using h)), if_neg ha]
      refine Computes.after ?_
      rw [show (s.afterRegs [.bank b .pllglob]).logRead (.store (.bank b .pllm)) (s.regs.get (.bank b .pllm))
        = (s.afterRegs [.bank b .pllglob]).afterRegs [.bank b .pllm] from rfl]
      refine Computes.after (Computes.ok ?_)
      rw [BitVec.toNat_mul, BitVec.toNat_udiv, toHz_toNat, toHz_toNat]
      rfl

/-- A counter division answers its reference (R221). -/
theorem divCnt_computes (s : State) (c : CntReg) {n : Nat} (h : n < 2 ^ 64) :
    Computes (s.divCnt c (BitVec.ofNat 64 n)) s (some (n / divisorRef s.params s.regs c)) [c.reg] := by
  unfold State.divCnt
  simp only [readReg_store, logRead_afterRegs, afterRegs_params]
  refine Computes.after (Computes.ok ?_)
  rw [BitVec.toNat_udiv, countDivisor_toNat, ofNat_toNat h]
  rfl

theorem divCnt_map {r : Res Hz} {s : State} {o : Option Nat} {l : List StoreReg} (h : Computes r s o l) (c : CntReg) :
    Computes (r.bind fun v t => t.divCnt c v) s (o.map (· / divisorRef s.params s.regs c))
      (l ++ readsAfter o [c.reg]) :=
  h.map fun n t hn hp hr => by have := divCnt_computes t c hn; rwa [hp, hr] at this

/-- A division by a constant reads nothing. -/
theorem divConst_map {r : Res Hz} {s : State} {o : Option Nat} {l : List StoreReg} (h : Computes r s o l) (d : Nat) :
    Computes (r.bind fun v t => .ok (divConst v d) t) s (o.map (· / d)) l := by
  have := h.map (m := []) (f := fun v t => .ok (divConst v d) t) (g := (· / d)) fun _ t hn _ _ =>
    Computes.ok (divConst_toNat hn)
  rwa [show readsAfter o [] = [] by cases o <;> rfl, List.append_nil] at this

/-- `clksrc_hz` answers its reference (R221). -/
theorem clksrcHz_computes (s : State) (sel : SelReg) (m c : CntReg) :
    Computes (s.clksrcHz sel m c) s (clksrcRef s.params s.regs sel m c) (clksrcReads s.params s.regs sel m c) := by
  unfold State.clksrcHz clksrcRef clksrcReads
  simp only [readReg_store, logRead_afterRegs, afterRegs_params]
  refine Computes.after ?_
  cases s.params.source ((sel.field s.params).get (s.regs.get sel.reg)) with
  | none => exact Computes.ok rfl
  | some x =>
    cases x with
    | main => exact divCnt_map (vcoHz_computes (s.afterRegs [sel.reg]) .M) m
    | peri => exact divCnt_map (vcoHz_computes (s.afterRegs [sel.reg]) .P) c
    | eosc => exact Computes.ok rfl
    | intosc => exact Computes.ok rfl
    | fpga => exact Computes.ok rfl

theorem clksrcUse_computes (s : State) (sel : SelReg) (u : Use) :
    Computes (s.clksrcUse sel u) s (clksrcUseRef s.params s.regs sel u) (clksrcUseReads s.params s.regs sel u) :=
  clksrcHz_computes ..

theorem gateHz_computes (s : State) (g : Gate) (u : Use) :
    Computes (s.gateHz g u) s (gateRef s.params s.regs g u) (gateReads s.params s.regs g u) :=
  divCnt_map (clksrcUse_computes s _ u) _

theorem fabricHz_computes (s : State) :
    Computes s.fabricHz s (fabricRef s.params s.regs) (fabricReads s.params s.regs) := clksrcUse_computes ..

/-- A second-level bus clock answers its reference (R230, R231). -/
theorem l4Hz_computes (s : State) (fld : Fields → Field) :
    Computes (s.l4Hz fld) s (l4Ref s.params s.regs (fld s.params.fields)) (l4Reads s.params s.regs) := by
  refine (fabricHz_computes s).map fun n t hn hp hr => ?_
  simp only [readReg_store, logRead_afterRegs, afterRegs_params]
  refine Computes.after (Computes.ok ?_)
  rw [hp, hr, BitVec.toNat_ushiftRight, ofNat_toNat hn, Nat.shiftRight_eq_div_pow]
  rfl

theorem parentHz_computes (s : State) (r : RateParent) :
    Computes (s.parentHz r) s (parentRef s.params s.regs r) (parentReads s.params s.regs r) := by
  cases r with
  | fabric => exact fabricHz_computes s
  | l4mp => exact l4Hz_computes s _
  | l4sp => exact l4Hz_computes s _
  | gate g u => exact gateHz_computes s g u

/-- A constant divisor taken from the state after the derivation. -/
theorem divParam_map {r : Res Hz} {s : State} {o : Option Nat} {l : List StoreReg} (h : Computes r s o l)
    (d : Params → Nat) :
    Computes (r.bind fun v t => .ok (divConst v (d t.params)) t) s (o.map (· / d s.params)) l := by
  have := h.map (m := []) (f := fun v t => .ok (divConst v (d t.params)) t) (g := (· / d s.params)) fun _ t hn hp _ => by
    rw [hp]; exact Computes.ok (divConst_toNat hn)
  rwa [show readsAfter o [] = [] by cases o <;> rfl, List.append_nil] at this

/-- The rate of a clock identity answers its reference (R229 to R239). -/
theorem rateHz_computes (s : State) (core : BitVec 2) (c : Clock) :
    Computes (s.rateHz core c) s (rateRef s.params s.regs core c) (rateReads s.params s.regs core c) := by
  cases c with
  | mpu =>
    have h4 : ∀ c : BitVec 2, (c = 0 ∨ c = 1) ↔ c.toNat < 2 := by decide
    have h2 : ∀ c : BitVec 2, c = 2 ↔ c.toNat = 2 := by decide
    simp only [State.rateHz, State.mpuHz, rateRef, rateReads, h4, h2]
    split
    · exact gateHz_computes ..
    · exact divCnt_map (gateHz_computes s _ _) _
  | l4main => exact fabricHz_computes s
  | l4mp => exact l4Hz_computes s _
  | l4sp => exact l4Hz_computes s _
  | l4sysfree =>
    simp only [State.rateHz, State.sysFreeHz, rateRef, rateReads, readReg_store, logRead_afterRegs]
    refine Computes.after ?_
    have := divParam_map (fabricHz_computes (s.afterRegs [.ctrl])) fun p =>
      if p.fields.ctrlBootmode.get s.regs.ctrl = 1 then p.sysfreeDivBoot else p.sysfreeDivRun
    have e : (fun (f : Hz) (t : State) =>
        (Res.ok (divConst f (if t.params.fields.ctrlBootmode.get s.regs.ctrl = 1 then t.params.sysfreeDivBoot
          else t.params.sysfreeDivRun)) t : Res Hz)) =
        fun f t => if bootMode t.params (s.regs.get .ctrl) = 1 then .ok (divConst f t.params.sysfreeDivBoot) t
          else .ok (divConst f t.params.sysfreeDivRun) t := by
      funext f t
      show _ = if t.params.fields.ctrlBootmode.get s.regs.ctrl = 1 then _ else _
      split <;> rfl
    rw [e] at this
    exact this
  | sdmmc => exact divParam_map (l4Hz_computes s _) Params.sdmmcDiv
  | emac i =>
    simp only [State.rateHz, State.emacHz, rateRef, rateReads, readReg_store, logRead_afterRegs, afterRegs_params]
    refine Computes.after ?_
    show Computes (if (i.selField s.params.fields).get s.regs.emacctl = 0 then _ else _) _ _ _
    split
    · exact gateHz_computes (s.afterRegs [.emacctl]) .emaca .emaca
    · exact gateHz_computes (s.afterRegs [.emacctl]) .emacb .emacb
  | emacptp => exact gateHz_computes ..
  | usb => exact divConst_map (parentHz_computes ..) _
  | nand => exact divConst_map (parentHz_computes ..) _
  | nandx => exact divConst_map (parentHz_computes ..) _

/-- What a rate command ends in (R93, R263). -/
theorem finish_rated {i : Instr} {s : State} {r : Res Hz} {o : Option Nat} {l : List StoreReg} (h : Computes r s o l) :
    finish i (returnHz r) = .next (s.rated i o l) := by
  rw [h.2]
  cases o <;> rfl

end Sys2Proof.Machine
end

