-- ==== Sys2Proof/Laws/Invariant.lean ====
section
/-!
SUPPORT. What each operation keeps of the membus sides: canonical memories of words that fit, requests as R53 makes
them.
-/

namespace Sys2Proof.Machine

open Sys2Proof

/-- Both banks' membus sides are as the spec describes them (R52, R53). -/
def MemOk (s : State) : Prop := ∀ b, Membus.ok s.params (s.chan b) = true

/-- A step of the machine that keeps the parameters and good membus sides. -/
structure Sound (s t : State) : Prop where
  params : t.params = s.params
  mem : MemOk s → MemOk t

theorem Sound.refl (s : State) : Sound s s := ⟨rfl, id⟩

theorem Sound.trans {s t v : State} (h : Sound s t) (k : Sound t v) : Sound s v :=
  ⟨k.params.trans h.params, fun m => k.mem (h.mem m)⟩

/-- A step that leaves both membus sides is sound. -/
theorem Sound.ofChan {s t : State} (hp : t.params = s.params) (hc : ∀ b, t.chan b = s.chan b) : Sound s t :=
  ⟨hp, fun m b => by rw [hp, hc]; exact m b⟩

theorem Membus.ok_iff {p : Params} {c : Membus} :
    Membus.ok p c = true ↔ c.cal.wf = true ∧ calFits p c.cal = true ∧ pendingFits p c.pending = true := by
  simp [Membus.ok, and_assoc]

theorem setChan_sound {s : State} {b : Bank} {c : Membus} (h : MemOk s → Membus.ok s.params c = true) :
    Sound s (s.setChan b c) := by
  refine ⟨(setChan_keeps s b c).params, fun m b' => ?_⟩
  rw [(setChan_keeps s b c).params]
  by_cases hb : b' = b
  · subst hb; rw [State.setChan_chan, if_pos rfl]; exact h m
  · rw [State.setChan_chan_of_ne _ _ hb]; exact m b'

theorem perform_sound {s : State} {b : Bank} {q : Request} (h : (s.chan b).pending = some q) :
    Sound s (s.perform b q) := by
  rw [perform_eq]
  refine setChan_sound fun m => ?_
  obtain ⟨h1, h2, h3⟩ := Membus.ok_iff.mp (m b)
  rw [h] at h3
  simp only [pendingFits, Bool.and_eq_true, beq_iff_eq] at h3
  cases q.wr
  · exact Membus.ok_iff.mpr ⟨h1, h2, rfl⟩
  · exact Membus.ok_iff.mpr ⟨Memory.write_wf h1 _ _, write_fits h2 _ h3.2, rfl⟩

theorem draw_sound (s : State) : Sound s s.draw.2 := Sound.ofChan (by simp) fun b => by simp

theorem settle_sound (s : State) (b : Bank) : Sound s (s.settle b) := by
  rcases settle_cases s b with ⟨-, h⟩ | ⟨q, hq, ⟨h, -⟩ | ⟨h, -⟩⟩ <;> rw [h]
  · exact Sound.refl s
  · exact (draw_sound s).trans (perform_sound (by simpa using hq))
  · exact draw_sound s

/-- Every request a mailbox word makes fits (R53). -/
theorem requestOf_fits (p : Params) (w : Word) : pendingFits p (some (requestOf p w)) = true := by
  simp only [pendingFits, requestOf, Bool.and_eq_true, beq_iff_eq]
  constructor <;> · ext i hi; simp

theorem mailbox_sound (s : State) (b : Bank) (w : Word) : Sound s (s.mailbox b w) := by
  rw [mailbox_eq]; split
  · exact Sound.refl s
  · have k := settle_sound s b
    refine k.trans (setChan_sound fun m => ?_)
    obtain ⟨h1, h2, -⟩ := Membus.ok_iff.mp (m b)
    exact Membus.ok_iff.mpr ⟨h1, h2, by rw [k.params]; exact requestOf_fits _ _⟩

theorem answerPoll_sound (s : State) (b : Bank) : Sound s (s.answerPoll b).2 := by
  rcases answerPoll_cases s b with ⟨-, h⟩ | ⟨q, hq, ⟨-, h⟩ | ⟨-, h⟩⟩ <;> rw [h]
  · exact draw_sound s
  · exact (draw_sound s).trans (perform_sound (by simpa using hq))
  · exact draw_sound s

theorem logRead_sound (s : State) (r : Reg) (v : Word) : Sound s (s.logRead r v) :=
  Sound.ofChan rfl fun b => by simp

theorem readReg_sound (s : State) (r : Reg) : Sound s (s.readReg r).2 := by
  rw [readReg_eq]
  refine Sound.trans ?_ (logRead_sound ..)
  rcases valueOf_cases s r with ⟨q, -, h⟩ | ⟨b, -, h⟩ | ⟨b, -, h⟩ | ⟨-, -, -, h⟩ <;> rw [h]
  · exact Sound.refl s
  · exact Sound.refl s
  · exact answerPoll_sound s b
  · exact draw_sound s

theorem writeReg_sound (s : State) (r : Reg) (v : Word) : Sound s (s.writeReg r v) := by
  cases r with
  | mem b =>
    rw [writeReg_mem]
    have h : Sound s (s.logWrite (.mem b) v) := Sound.ofChan rfl fun b' => by simp
    exact h.trans (mailbox_sound ..)
  | _ => exact Sound.ofChan (writeReg_params ..) fun b => writeReg_chan_of_ne _ _ _ (by simp)

theorem setMask_sound (s : State) (r : Reg) (m : Word) : Sound s (s.setMask r m) :=
  (readReg_sound s r).trans (writeReg_sound ..)

theorem clearMask_sound (s : State) (r : Reg) (m : Word) : Sound s (s.clearMask r m) :=
  (readReg_sound s r).trans (writeReg_sound ..)

theorem poll_sound (r : Reg) (ok : Word → Bool) (n : Nat) (s : State) : Sound s (State.poll r ok n s).2 :=
  poll_induct Sound.refl (fun _ _ _ => Sound.trans) r (fun s => readReg_sound s r) ok n s

theorem membusWrite_sound (s : State) (b : Bank) (a w : Word) : Sound s (s.membusWrite b a w).2 :=
  (writeReg_sound s (.mem b) _).trans (poll_sound ..)

theorem membusRead_sound (s : State) (b : Bank) (a : Word) : Sound s (s.membusRead b a).2 := by
  have h : Sound s (((s.writeReg (.mem b) (s.params.mbxR a)).membusPoll b).2) :=
    (writeReg_sound s (.mem b) _).trans (poll_sound ..)
  rw [membusRead_eq]; split
  · exact h.trans (readReg_sound _ (.memstat b))
  · exact h

theorem applyTable_sound (b : Bank) (es : List CalEntry) (s : State) : Sound s (State.applyTable b es s).2 :=
  applyTable_induct b Sound.refl (fun _ _ _ => Sound.trans) (fun s a => membusRead_sound s b a)
    (fun s a w => membusWrite_sound s b a w) es s

/-- The state a part of a command ends in, however it ends. -/
def Res.state {α : Type} : Res α → State
  | .ok _ s => s
  | .fault _ s => s

theorem bind_sound {α β : Type} {s : State} {r : Res α} {f : α → State → Res β} (h : Sound s r.state)
    (k : ∀ a t, Sound t (f a t).state) : Sound s (r.bind f).state := by
  cases r with
  | ok a t => exact h.trans (k a t)
  | fault _ t => exact h

theorem note_sound (s : State) (w : Wait) : Sound s (s.note w) := Sound.ofChan rfl fun b => by simp

theorem at_sound (s : State) (q : SeqState) (u : Nat) : Sound s (s.at q u) := Sound.ofChan rfl fun b => by simp

theorem guarded_sound {s : State} {r : Reg} {f : State → State} (h : Sound s (f s)) : Sound s (s.guarded r f).state := by
  unfold State.guarded; split
  · exact h
  · exact Sound.refl s

theorem waitStat_sound (s : State) (ws : Bool) (m : Word) (w : Wait) : Sound s (s.waitStat ws m w).state := by
  unfold State.waitStat
  refine guarded_sound ?_
  have h := poll_sound .stat (senseMet ws m) waitBudget s
  generalize State.poll .stat (senseMet ws m) waitBudget s = x at *
  obtain ⟨_ | _, t⟩ := x
  · exact h.trans (note_sound ..)
  · exact h

theorem clearLatch_sound (s : State) (r : Reg) (m : Word) : Sound s (s.clearLatch r m).state := by
  unfold State.clearLatch
  split
  · exact writeReg_sound ..
  · exact guarded_sound (clearMask_sound ..)

theorem writeBypass_sound (s : State) (b : Bank) (v : Word) : Sound s (s.writeBypass b v).state :=
  (writeReg_sound s _ v).trans (waitStat_sound ..)

/-- Every operation of the sequencer is sound. -/
theorem runOp_sound (s : State) (op : SeqOp) : Sound s (s.runOp op).state := by
  cases op with
  | write r v => exact writeReg_sound ..
  | setBits r m => exact guarded_sound (f := fun s => s.setMask (.store r) m) (setMask_sound ..)
  | clrBits r m => exact guarded_sound (f := fun s => s.clearMask (.store r) m) (clearMask_sound ..)
  | busyWait => exact waitStat_sound ..
  | lockWait => exact waitStat_sound ..
  | forceBypass b => exact writeBypass_sound ..
  | clearBypass b => exact writeBypass_sound ..
  | clearLostLock b => exact clearLatch_sound ..
  | clearIntr => exact clearLatch_sound ..
  | calTable b =>
    have h := applyTable_sound b s.params.calTable s
    simp only [State.runOp, State.applyCal]
    generalize State.applyTable b s.params.calTable s = x at *
    obtain ⟨_ | _, t⟩ := x
    · exact h.trans (note_sound ..)
    · exact h
  | editCtrl e =>
    have h := (readReg_sound s (.store .ctrl)).trans (at_sound _ (s.readReg (.store .ctrl)).2.seq
      ((s.readReg (.store .ctrl)).2.u + 1))
    exact h.trans (writeReg_sound _ (.store .ctrl) _)
  | divideByZero => exact Sound.refl s

theorem runOps_sound (ops : List SeqOp) (u : Nat) (s : State) : Sound s (runOps ops u s).state := by
  induction ops generalizing u s with
  | nil => exact Sound.refl s
  | cons op ops ih =>
    unfold runOps
    exact bind_sound ((at_sound s s.seq u).trans (runOp_sound ..)) fun _ t => ih _ t

theorem runStates_sound (qs : List SeqState) (s : State) : Sound s (runStates qs s).state := by
  induction qs generalizing s with
  | nil => exact Sound.refl s
  | cons q qs ih =>
    unfold runStates
    exact bind_sound ((at_sound s q 0).trans (runOps_sound ..)) fun _ t => ih t

theorem bringup_sound (s : State) (m : Mode) (g : Stage) : Sound s (s.bringup m g).state := by
  have h0 : Sound s { s with diag := [] } := Sound.ofChan rfl fun b => by cases b <;> rfl
  have hd : ∀ r : Res Unit, Sound s r.state → Sound s (bringupDone r).state := fun r h =>
    bind_sound h fun _ t => at_sound ..
  unfold State.bringup
  split
  · exact hd _ (h0.trans (runStates_sound ..))
  · exact hd _ (h0.trans (runStates_sound ..))
  · have h1 := h0.trans ((at_sound { s with diag := [] } .s1 0).trans (readReg_sound _ (.store .ctrl)))
    dsimp only
    split
    · exact h1.trans (at_sound ..)
    · exact hd _ (h1.trans (runStates_sound ..))

end Sys2Proof.Machine
end

