-- ==== Sys2Proof/Laws/Exec.lean ====
section
/-!
SUPPORT. The register-access commands as their shared operations, what a result left in the state does to an operation
(nothing), the mailbox that is its own status mirror, and a sequencer run up to a division by zero.
-/

namespace Sys2Proof.Machine

open Sys2Proof

/-! ### Layouts and offsets -/

theorem Params.laidOut_parts {p : Params} (h : p.laidOut = true) :
    p.offsetsAligned = true ∧ p.offsetsDistinct = true ∧ p.fieldsLaidOut = true ∧ p.widthsOk = true := by
  simpa [Params.laidOut, and_assoc] using h

theorem Params.regAt_invalid {p : Params} {off : Word} (h : off.toNat % 4 ≠ 0 ∨ ∀ r, p.offset r ≠ off) :
    p.regAt off = none := by
  rw [Params.regAt_none]
  rcases h with h | h
  · exact .inl (by simpa [aligned] using h)
  · exact .inr h

theorem Params.regAt_valid {p : Params} {off : Word} {r : Reg} (h : off.toNat % 4 = 0) (e : p.offset r = off) :
    ∃ r', p.regAt off = some r' := by
  cases h' : p.regAt off with
  | some r => exact ⟨r, rfl⟩
  | none =>
    rcases Params.regAt_none.mp h' with k | k
    · simp [aligned, h] at k
    · exact absurd e (k r)

theorem asSel_eq {r : Reg} {g : SelReg} : r.asSel = some g ↔ r = .store g.reg := by
  constructor
  · intro h; unfold Reg.asSel at h; split at h <;> cases h <;> rfl
  · rintro rfl; cases g <;> rfl

theorem asCnt_eq {r : Reg} {c : CntReg} : r.asCnt = some c ↔ r = .store c.reg := by
  constructor
  · intro h; unfold Reg.asCnt at h; split at h <;> cases h <;> rfl
  · rintro rfl; cases c <;> rfl

theorem fieldsOk_iff {fs : List Field} :
    fieldsOk fs = true ↔ (∀ f ∈ fs, f.fits = true) ∧ fs.Pairwise (fun f g => f.apart g = true) := by
  simp [fieldsOk]

theorem pow2_eq (k : Word) : pow2 k = BitVec.ofNat 32 (2 ^ k.toNat) := by
  refine BitVec.eq_of_toNat_eq ?_
  unfold pow2
  split
  · simp [Nat.shiftLeft_eq]
  · rename_i h
    simp only [BitVec.ofNat_eq_ofNat, BitVec.toNat_ofNat, Nat.zero_mod]
    exact (Nat.mod_eq_zero_of_dvd (Nat.pow_dvd_pow 2 (by omega) (m := 32))).symm

/-! ### A result in the state changes no operation -/

theorem returns_draw (s : State) (x : Result) : (s.returns x).draw = (s.draw.1, s.draw.2.returns x) := by
  unfold State.returns State.draw; dsimp only; split <;> rfl

theorem returns_chan (s : State) (x : Result) (b : Bank) : (s.returns x).chan b = s.chan b := by cases b <;> rfl

theorem returns_setChan (s : State) (x : Result) (b : Bank) (c : Membus) :
    (s.returns x).setChan b c = (s.setChan b c).returns x := by cases b <;> rfl

theorem returns_perform (s : State) (x : Result) (b : Bank) (q : Request) :
    (s.returns x).perform b q = (s.perform b q).returns x := by
  unfold State.perform; split <;> rw [returns_chan, returns_setChan]

theorem returns_settle (s : State) (x : Result) (b : Bank) : (s.returns x).settle b = (s.settle b).returns x := by
  unfold State.settle; rw [returns_chan, returns_draw]; split
  · rfl
  · dsimp only; split
    · rw [returns_perform]
    · rfl

theorem returns_mailbox (s : State) (x : Result) (b : Bank) (w : Word) :
    (s.returns x).mailbox b w = (s.mailbox b w).returns x := by
  unfold State.mailbox; dsimp only; rw [returns_settle, returns_chan, returns_setChan]
  show (if reqClear s.params w then _ else _) = _
  split <;> rfl

theorem returns_answerPoll (s : State) (x : Result) (b : Bank) :
    (s.returns x).answerPoll b = ((s.answerPoll b).1, (s.answerPoll b).2.returns x) := by
  unfold State.answerPoll; rw [returns_draw]; dsimp only; rw [returns_chan]; split
  · rfl
  · rw [returns_perform]
    show (if reqClear s.draw.2.params s.draw.1 then _ else _) = _
    split <;> rfl

theorem returns_readReg (s : State) (x : Result) (r : Reg) :
    (s.returns x).readReg r = ((s.readReg r).1, (s.readReg r).2.returns x) := by
  have h : (s.returns x).valueOf r = ((s.valueOf r).1, (s.valueOf r).2.returns x) := by
    cases r with
    | store r => rfl
    | stat => exact returns_draw s x
    | intr => exact returns_draw s x
    | lostlock b => exact returns_draw s x
    | memstat b => unfold State.valueOf; dsimp only; rw [returns_chan]
    | mempoll b => exact returns_answerPoll s x b
    | mem b =>
      unfold State.valueOf; dsimp only; rw [returns_answerPoll, returns_draw]
      show (if s.params.sharedPoll b then _ else _) = _
      split <;> rfl
  rw [readReg_eq, readReg_eq, h]; rfl

theorem returns_writeReg (s : State) (x : Result) (r : Reg) (v : Word) :
    (s.returns x).writeReg r v = (s.writeReg r v).returns x := by
  cases r <;> first | rfl | (show ((s.logWrite _ v).returns x).mailbox _ v = _; rw [returns_mailbox]; rfl)

theorem returns_poll (r : Reg) (ok : Word → Bool) (n : Nat) (s : State) (x : Result) :
    State.poll r ok n (s.returns x) = ((State.poll r ok n s).1, (State.poll r ok n s).2.returns x) := by
  induction n generalizing s with
  | zero => rfl
  | succ n ih =>
    rw [poll_succ, poll_succ, returns_readReg]; dsimp only; split
    · rfl
    · exact ih _

theorem returns_returns (s : State) (x y : Result) : (s.returns x).returns y = s.returns y := rfl

/-! ### Register-access commands at the register their offset names -/

/-- READ32 at a valid offset (R120). -/
theorem exec_read32 {s : State} {off : Word} {r : Reg} (h : s.params.regAt off = some r) :
    exec (.read32 off) s = .next ((s.readReg r).2.returns (.word (s.readReg r).1)) := by
  show execRead32 off s = _
  unfold execRead32; rw [withReg_some h]; rfl

/-- WRITE32 at a valid offset (R121). -/
theorem exec_write32 {s : State} {off v : Word} {r : Reg} (h : s.params.regAt off = some r) :
    exec (.write32 off v) s = .next ((s.writeReg r v).returns .unit) := by
  show execWrite32 off v s = _
  unfold execWrite32; rw [withReg_some h]; rfl

/-- SETBITS at a valid offset (R122). -/
theorem exec_setBits {s : State} {off m : Word} {r : Reg} (h : s.params.regAt off = some r) :
    exec (.setBits off m) s = .next ((s.setMask r m).returns .unit) := by
  show execSetBits off m s = _
  unfold execSetBits; rw [withReg_some h]; rfl

/-- CLRBITS at a valid offset (R123). -/
theorem exec_clrBits {s : State} {off m : Word} {r : Reg} (h : s.params.regAt off = some r) :
    exec (.clrBits off m) s = .next ((s.clearMask r m).returns .unit) := by
  show execClrBits off m s = _
  unfold execClrBits; rw [withReg_some h]; rfl

/-- WAITBIT at a valid offset (R124). -/
theorem exec_waitBit {s : State} {off : Word} {r : Reg} (h : s.params.regAt off = some r) (w : Bool) (m n : Word) :
    exec (.waitBit w off m n) s =
      .next ((State.poll r (senseMet w m) n.toNat s).2.returns
        (okOrTimeout (State.poll r (senseMet w m) n.toNat s).1)) := by
  show execWaitBit w off m n s = _
  unfold execWaitBit; rw [withReg_some h]; rfl

theorem senseMet_iff (w : Bool) (m v : Word) : senseMet w m v = true ↔ v &&& m = (if w then m else 0) := by
  cases w <;> simp [senseMet]

/-! ### A mailbox that is its own status mirror (R22) -/

theorem readReg_shared {s : State} {b : Bank} (hs : s.params.sharedPoll b = true) :
    s.readReg (.mem b) = s.readReg (.mempoll b) := by
  have e : s.params.offset (.mempoll b) = s.params.offset (.mem b) := by
    simpa [Params.sharedPoll, Params.offset] using hs
  rw [readReg_eq, readReg_eq]
  simp only [State.valueOf, hs, if_true, State.logRead, State.addrOf]
  rw [(answerPoll_keeps s b).params, e]

theorem poll_shared {p : Params} {b : Bank} {r : Reg} (hr : r = if p.sharedPoll b then .mem b else .mempoll b)
    (ok : Word → Bool) (n : Nat) (s : State) (hp : s.params = p) :
    State.poll r ok n s = State.poll (.mempoll b) ok n s := by
  subst hr
  by_cases h : p.sharedPoll b
  · rw [if_pos h]
    induction n generalizing s with
    | zero => rfl
    | succ n ih =>
      rw [poll_succ, poll_succ, readReg_shared (by rw [hp]; exact h), ih _ (by rw [readReg_params]; exact hp)]
  · rw [if_neg h]

/-! ### A sequencer run up to a division by zero (R180) -/

/-- A run of operations stops where it divides by zero, the operations before it done. -/
theorem runOps_stop {pre post : List SeqOp} (hn : ∀ op ∈ pre, op ≠ .divideByZero) {s : State}
    (ha : s.params.offsetsAligned = true) (u : Nat) :
    ∃ t, runOps (pre ++ .divideByZero :: post) u s = .fault .divideByZero t ∧ t.seq = s.seq ∧
      t.u = u + (pre.map SeqOp.microSteps).sum ∧ t.params = s.params ∧ t.fault = s.fault ∧
      t.regs = pre.foldl (SeqOp.onRegs s.params) s.regs := by
  induction pre generalizing s u with
  | nil => exact ⟨_, rfl, rfl, rfl, rfl, rfl, rfl⟩
  | cons op pre ih =>
    obtain ⟨t, ht, e⟩ := runOp_effect (s := s.at s.seq u) ha (hn op List.mem_cons_self)
    obtain ⟨v, h1, h2, h3, h4, h5, h6⟩ := ih (fun o ho => hn o (List.mem_cons_of_mem _ ho)) (s := t)
      (by rw [e.params]; exact ha) (u + op.microSteps)
    refine ⟨v, ?_, h2.trans e.seq, ?_, h4.trans e.params, h5.trans e.fault, ?_⟩
    · rw [List.cons_append]; unfold runOps; rw [ht]; exact h1
    · rw [h3]; simp; omega
    · rw [h6, e.params, e.regs]; rfl

/-- A run of states stops where one of them divides by zero, the states before it done. -/
theorem runStates_stop {qs qs' : List SeqState} {q : SeqState} {s : State} (ha : s.params.offsetsAligned = true)
    (h : ∀ q ∈ qs, ∀ op ∈ program s.params s.cfg q, op ≠ .divideByZero) {pre post : List SeqOp}
    (hp : program s.params s.cfg q = pre ++ .divideByZero :: post) (hn : ∀ op ∈ pre, op ≠ .divideByZero) :
    ∃ t, runStates (qs ++ q :: qs') s = .fault .divideByZero t ∧ t.seq = q ∧
      t.u = (pre.map SeqOp.microSteps).sum ∧ t.params = s.params ∧ t.fault = s.fault ∧
      t.regs = (qs.flatMap (program s.params s.cfg) ++ pre).foldl (SeqOp.onRegs s.params) s.regs := by
  induction qs generalizing s with
  | nil =>
    obtain ⟨t, h1, h2, h3, h4, h5, h6⟩ := runOps_stop (post := post) hn (s := s.at q 0) ha 0
    refine ⟨t, ?_, h2, by omega, h4, h5, h6⟩
    show ((runOps (program s.params s.cfg q) 0 (s.at q 0)).bind fun _ s' => runStates qs' s') = _
    rw [hp, h1]; rfl
  | cons r qs ih =>
    obtain ⟨t, ht, -, e⟩ := runOps_effect (h r List.mem_cons_self) (s := s.at r 0) ha 0
    have e1 : t.params = s.params := e.params
    have e2 : t.cfg = s.cfg := e.cfg
    obtain ⟨v, h1, h2, h3, h4, h5, h6⟩ := ih (s := t) (by rw [e1]; exact ha)
      (by rw [e1, e2]; exact fun x hx => h x (List.mem_cons_of_mem _ hx)) (by rw [e1, e2]; exact hp)
    refine ⟨v, ?_, h2, h3, h4.trans e1, h5.trans e.fault, ?_⟩
    · rw [List.cons_append]; unfold runStates; rw [ht]; exact h1
    · rw [h6, e1, e2, e.regs]; simp

end Sys2Proof.Machine
end

