-- ==== Sys2Proof/Laws/PerInstr.lean ====
section
/-!
SUPPORT. One lemma per command: its command word is legal and its opcode has as many argument words as the command
(R92 to R94).
-/

namespace Sys2Proof.Laws

open Sys2Proof

/-- A command's command word is legal, and the opcode it holds takes the command's number of argument words. -/
def CmdWordLegal.Statement (i : Instr) : Prop := ∃ op, checkWord i.cmdWord = .ok op ∧ i.argWords.length = op.nargs

theorem CmdWordLegal.read32 (off : Word) : CmdWordLegal.Statement (.read32 off) :=
  ⟨.read32, show checkWord 0x01 = _ by decide, rfl⟩

theorem CmdWordLegal.write32 (off value : Word) : CmdWordLegal.Statement (.write32 off value) :=
  ⟨.write32, show checkWord 0x02 = _ by decide, rfl⟩

theorem CmdWordLegal.setBits (off mask : Word) : CmdWordLegal.Statement (.setBits off mask) :=
  ⟨.setBits, show checkWord 0x03 = _ by decide, rfl⟩

theorem CmdWordLegal.clrBits (off mask : Word) : CmdWordLegal.Statement (.clrBits off mask) :=
  ⟨.clrBits, show checkWord 0x04 = _ by decide, rfl⟩

theorem CmdWordLegal.waitBit (wantSet : Bool) (off mask budget : Word) :
    CmdWordLegal.Statement (.waitBit wantSet off mask budget) := by
  refine ⟨.waitBit, ?_, rfl⟩
  show checkWord (0x05 ||| fieldB wantSet) = _
  cases wantSet <;> decide

theorem CmdWordLegal.membusWrite (b : Bank) (addrOffset wdat : Word) :
    CmdWordLegal.Statement (.membusWrite b addrOffset wdat) := by
  refine ⟨.membusWrite, ?_, rfl⟩
  show checkWord (0x10 ||| fieldB (bankBit b)) = _
  cases b <;> decide

theorem CmdWordLegal.membusRead (b : Bank) (addrOffset : Word) :
    CmdWordLegal.Statement (.membusRead b addrOffset) := by
  refine ⟨.membusRead, ?_, rfl⟩
  show checkWord (0x11 ||| fieldB (bankBit b)) = _
  cases b <;> decide

theorem CmdWordLegal.applyCaltable (b : Bank) : CmdWordLegal.Statement (.applyCaltable b) := by
  refine ⟨.applyCaltable, ?_, rfl⟩
  show checkWord (0x12 ||| fieldB (bankBit b)) = _
  cases b <;> decide

theorem CmdWordLegal.vcocalib (pllm pllglob : Word) : CmdWordLegal.Statement (.vcocalib pllm pllglob) :=
  ⟨.vcocalib, show checkWord 0x20 = _ by decide, rfl⟩

theorem CmdWordLegal.bringup (mode : Mode) (stage : Stage) : CmdWordLegal.Statement (.bringup mode stage) := by
  refine ⟨.bringup, ?_, rfl⟩
  show checkWord (0x30 ||| fieldB (modeBit mode) ||| fieldS (stageBit stage)) = _
  cases mode <;> cases stage <;> decide

theorem CmdWordLegal.vcoHz (b : Bank) : CmdWordLegal.Statement (.vcoHz b) := by
  refine ⟨.vcoHz, ?_, rfl⟩
  show checkWord (0x40 ||| fieldB (bankBit b)) = _
  cases b <;> decide

theorem CmdWordLegal.clksrcHz (sel mctr pctr : Word) : CmdWordLegal.Statement (.clksrcHz sel mctr pctr) :=
  ⟨.clksrcHz, show checkWord 0x41 = _ by decide, rfl⟩

theorem CmdWordLegal.getRate (core : BitVec 2) (tag : Word) : CmdWordLegal.Statement (.getRate core tag) := by
  refine ⟨.getRate, ?_, rfl⟩
  have h : ∀ c : BitVec 2, checkWord (0x42 ||| (c.setWidth 32 <<< 10)) = .ok .getRate := by decide
  exact h core

theorem CmdWordLegal.enable (tag : Word) : CmdWordLegal.Statement (.enable tag) :=
  ⟨.enable, show checkWord 0x43 = _ by decide, rfl⟩

end Sys2Proof.Laws
end

