-- ==== Sys2Proof/Laws/Traffic.lean ====
section
/-!
SUPPORT. The bus traffic of a bounded poll, of each operation of the sequencer, and of a run of operations or states,
said once.
-/

namespace Sys2Proof.Machine

open Sys2Proof

/-! ### The poll -/

/-- The reads a bounded poll makes, oldest first: none met but the last, and the last only if the poll ends in time; the
whole budget if it does not (R124, R141). -/
theorem poll_reads (r : Reg) (ok : Word → Bool) (n : Nat) (s : State) :
    ∃ vs : List Word, (State.poll r ok n s).2.bus = (vs.map (Txn.read (s.addrOf r))).reverse ++ s.bus ∧
      vs.length ≤ n ∧ (∀ x ∈ vs.dropLast, ok x = false) ∧
      ((State.poll r ok n s).1 = true → ∃ x, vs.getLast? = some x ∧ ok x = true) ∧
      ((State.poll r ok n s).1 = false → vs.length = n ∧ ∀ x ∈ vs, ok x = false) := by
  induction n generalizing s with
  | zero => exact ⟨[], by simp [poll_zero]⟩
  | succ n ih =>
    rw [poll_succ]
    cases hv : ok (s.readReg r).1 with
    | true => exact ⟨[(s.readReg r).1], by simp [readReg_bus], by simp, by simp, by simp [hv], by simp⟩
    | false =>
      obtain ⟨vs, h1, h2, h3, h4, h5⟩ := ih (s.readReg r).2
      rw [addrOf_congr (readReg_params s r), readReg_bus] at h1
      simp only [Bool.false_eq_true, if_false]
      refine ⟨(s.readReg r).1 :: vs, by rw [h1]; simp, by simpa using h2, ?_, ?_, ?_⟩
      · cases vs with
        | nil => simp
        | cons y ys => simpa [hv] using h3
      · intro h
        obtain ⟨x, hx, hk⟩ := h4 h
        refine ⟨x, ?_, hk⟩
        cases vs with
        | nil => cases hx
        | cons y ys => simpa using hx
      · intro h
        obtain ⟨hl, hk⟩ := h5 h
        exact ⟨by simp [hl], by simpa [hv] using hk⟩

/-! ### Stretches -/

theorem Stretch.made_congr {s t : State} (h : t.params = s.params) (e : Stretch) (l : List Txn) :
    e.made t l ↔ e.made s l := by
  cases e <;> simp only [Stretch.made, addrOf_congr h, h]

theorem State.made_congr {s t : State} (h : t.params = s.params) (es : List Stretch) (l : List Txn) :
    t.made es l ↔ s.made es l := by
  induction es generalizing l with
  | nil => rfl
  | cons e es ih => simp only [State.made, Stretch.made_congr h, ih]

theorem made_append {s : State} {es fs : List Stretch} {l m : List Txn} (h : s.made es l) (k : s.made fs m) :
    s.made (es ++ fs) (l ++ m) := by
  induction es generalizing l with
  | nil => cases h; exact k
  | cons e es ih =>
    obtain ⟨a, b, rfl, ha, hb⟩ := h
    exact ⟨a, b ++ m, by rw [List.append_assoc], ha, ih hb⟩

theorem made_one {s : State} {e : Stretch} {l : List Txn} (h : e.made s l) : s.made [e] l :=
  ⟨l, [], by simp, h, rfl⟩

/-- The transactions between two states, oldest first, are the given stretches. -/
def Made (es : List Stretch) (s t : State) : Prop := ∃ l, t.bus = l.reverse ++ s.bus ∧ s.made es l

theorem Made.refl (s : State) : Made [] s s := ⟨[], rfl, rfl⟩

theorem Made.trans {es fs : List Stretch} {s t v : State} (hp : t.params = s.params) (h : Made es s t)
    (k : Made fs t v) : Made (es ++ fs) s v := by
  obtain ⟨l, hl, hm⟩ := h
  obtain ⟨m, kl, km⟩ := k
  exact ⟨l ++ m, by rw [kl, hl, List.reverse_append, List.append_assoc], made_append hm ((State.made_congr hp _ _).mp km)⟩

theorem Made.of_at {es : List Stretch} {s t : State} {q : SeqState} {u : Nat} (h : Made es (s.at q u) t) : Made es s t := by
  obtain ⟨l, hl, hm⟩ := h
  exact ⟨l, hl, (State.made_congr (s := s) (t := s.at q u) rfl es l).mp hm⟩

theorem writeReg_made (s : State) (r : StoreReg) (v : Word) : Made [.write r v] s (s.writeReg (.store r) v) :=
  ⟨[.write (s.addrOf (.store r)) v], writeReg_bus s (.store r) v, made_one rfl⟩

theorem rewrite_made (s : State) (r : StoreReg) (w : Word) :
    Made (rewrite r (s.regs.get r) w) s ((s.readReg (.store r)).2.writeReg (.store r) w) :=
  ⟨[.read (s.addrOf (.store r)) (s.regs.get r), .write (s.addrOf (.store r)) w], rfl, _, [_], rfl, rfl, made_one rfl⟩

/-- A wait on STAT (R124, R133). -/
theorem waitStat_made {s t : State} (ha : s.params.offsetsAligned = true) (ws : Bool) (m : Word) (w : Wait)
    (h : s.waitStat ws m w = .ok () t) : Made [.wait ws m] s t := by
  obtain ⟨vs, h1, h2, h3, h4, h5⟩ := poll_reads .stat (senseMet ws m) waitBudget s
  have hb : t.bus = (State.poll .stat (senseMet ws m) waitBudget s).2.bus := by
    unfold State.waitStat at h
    rw [guarded_ok ha] at h
    generalize State.poll .stat (senseMet ws m) waitBudget s = x at h
    obtain ⟨_ | _, y⟩ := x <;> cases h <;> rfl
  have sense : ∀ x, senseMet ws m x = true ↔ x &&& m = if ws then m else 0 := fun x => by
    cases ws <;> simp [senseMet]
  refine ⟨vs.map (Txn.read (s.addrOf .stat)), hb.trans h1, made_one ⟨vs, rfl, ?_, h2, fun x hx => ?_, ?_⟩⟩
  · cases hd : (State.poll .stat (senseMet ws m) waitBudget s).1 with
    | true =>
      obtain ⟨x, hx, -⟩ := h4 hd
      cases vs with
      | nil => cases hx
      | cons y ys => simp
    | false => rw [(h5 hd).1]; decide
  · rw [Ne, ← sense, h3 x hx]; simp
  · cases hd : (State.poll .stat (senseMet ws m) waitBudget s).1 with
    | true =>
      obtain ⟨x, hx, hk⟩ := h4 hd
      exact .inr ⟨x, hx, (sense x).mp hk⟩
    | false => exact .inl (h5 hd).1

/-- A bypass write and its busy-wait (R131, R175). -/
theorem writeBypass_made {s t : State} (ha : s.params.offsetsAligned = true) (b : Bank) (v : Word)
    (h : s.writeBypass b v = .ok () t) : Made (bypassStretch s.params b v) s t := by
  have k := waitStat_made (s := s.writeReg (.store (.bank b .bypass)) v) (by rw [writeReg_params]; exact ha) false _ _ h
  exact (writeReg_made s (.bank b .bypass) v).trans (writeReg_params ..) k

/-- `ClearLatch` of a latch register (R175). -/
theorem clearLatch_made {s t : State} (ha : s.params.offsetsAligned = true) {r : Reg} (m : Word)
    (h : s.clearLatch r m = .ok () t) : Made [.clearLatch r m] s t := by
  unfold State.clearLatch at h
  cases hl : s.params.latchClr with
  | w1c =>
    rw [hl] at h; cases h
    exact ⟨[.write (s.addrOf r) m], writeReg_bus s r m, made_one ⟨fun _ => rfl, fun k => by rw [hl] at k; cases k⟩⟩
  | clrbits =>
    rw [hl] at h
    dsimp only at h
    rw [guarded_ok ha, clearMask_eq] at h; cases h
    refine ⟨[.read (s.addrOf r) (s.readReg r).1, .write (s.addrOf r) ((s.readReg r).1 &&& ~~~ m)], ?_,
      made_one ⟨fun k => (by rw [hl] at k; cases k), fun _ => ⟨_, rfl⟩⟩⟩
    rw [writeReg_bus, readReg_bus, addrOf_congr (readReg_params s r)]
    rfl

/-! ### The calibration table (R144) -/

/-- The traffic of a mailbox write and its poll; a Timeout's poll reads REQ set at every read of the budget (R140, R142). -/
theorem request_traffic (s : State) (b : Bank) (w : Word) :
    ∃ polls : List Txn, ((s.writeReg (.mem b) w).membusPoll b).2.bus = polls ++ .write (s.addrOf (.mem b)) w :: s.bus ∧
      polls.filter (fun x => !x.isRead) = [] ∧
      (((s.writeReg (.mem b) w).membusPoll b).1 = false → polls.length = s.params.membusBudget ∧
        ∀ x ∈ polls, ∃ v, x = .read (s.addrOf (.mempoll b)) v ∧ v &&& s.params.mbxReq ≠ 0) := by
  obtain ⟨vs, h1, -, -, -, h5⟩ := poll_reads (.mempoll b) (reqClear (s.writeReg (.mem b) w).params)
    (s.writeReg (.mem b) w).params.membusBudget (s.writeReg (.mem b) w)
  rw [addrOf_congr (writeReg_params ..), writeReg_bus] at h1
  refine ⟨(vs.map (Txn.read (s.addrOf (.mempoll b)))).reverse, h1, ?_, fun hd => ?_⟩
  · rw [List.filter_eq_nil_iff]
    intro x hx
    obtain ⟨v, -, rfl⟩ := List.mem_map.mp (List.mem_reverse.mp hx)
    simp [Txn.isRead]
  · obtain ⟨hl, hk⟩ := h5 hd
    refine ⟨by simp [hl], fun x hx => ?_⟩
    obtain ⟨v, hv, rfl⟩ := List.mem_map.mp (List.mem_reverse.mp hx)
    have := hk v hv
    rw [writeReg_params] at this
    exact ⟨v, rfl, by simpa [reqClear] using this⟩

theorem membusWrite_traffic (s : State) (b : Bank) (a w : Word) :
    ∃ polls : List Txn,
      (s.membusWrite b a w).2.bus = polls ++ .write (s.addrOf (.mem b)) (s.params.mbxW a w) :: s.bus ∧
      polls.filter (fun x => !x.isRead) = [] ∧
      ((s.membusWrite b a w).1 = false → polls.length = s.params.membusBudget ∧
        ∀ x ∈ polls, ∃ v, x = .read (s.addrOf (.mempoll b)) v ∧ v &&& s.params.mbxReq ≠ 0) :=
  request_traffic s b _

theorem membusRead_traffic (s : State) (b : Bank) (a : Word) :
    ∃ polls : List Txn,
      (s.membusRead b a).2.bus = polls ++ .write (s.addrOf (.mem b)) (s.params.mbxR a) :: s.bus ∧
      polls.filter (fun x => !x.isRead) = [] ∧
      ((s.membusRead b a).1 = none → polls.length = s.params.membusBudget ∧
        ∀ x ∈ polls, ∃ v, x = .read (s.addrOf (.mempoll b)) v ∧ v &&& s.params.mbxReq ≠ 0) := by
  obtain ⟨polls, h1, h2, h3⟩ := request_traffic s b (s.params.mbxR a)
  rw [membusRead_eq]
  cases hd : ((s.writeReg (.mem b) (s.params.mbxR a)).membusPoll b).1 with
  | true =>
    refine ⟨_ :: polls, by simp only [if_true]; rw [readReg_bus, h1]; rfl, ?_, ?_⟩
    · simpa [Txn.isRead] using h2
    · simp
  | false => exact ⟨polls, by simpa using h1, h2, fun _ => h3 hd⟩

/-- How a table's application ends: the whole table applied and nothing pending, or stopped at a Timeout (R144). `m₀` is
the memory the first request finds, once a request pending before it is settled. -/
theorem applyTable_outcome {p : Params} (hp : p.accepted = true) (b : Bank) (es : List CalEntry) (s : State)
    (hs : s.params = p) (m₀ : Memory) (hm : ∀ w, (((s.logWrite (.mem b) w).settle b).chan b).cal = m₀) :
    ((State.applyTable b es s).1 = true → es ≠ [] →
      ((State.applyTable b es s).2.chan b).cal = tableImage p es m₀ ∧
        ((State.applyTable b es s).2.chan b).pending = none) ∧
      ((State.applyTable b es s).1 = false → s.tableStops b es m₀ (State.applyTable b es s).2) := by
  induction es generalizing s m₀ with
  | nil => exact ⟨fun _ h => absurd rfl h, fun h => by cases h⟩
  | cons e es ih =>
    subst hs
    unfold State.applyTable
    have h1 := membusRead_chan (s := s) (b := b) (a := e.addrOffset) rfl hp
    have k1 := (membusRead_onlyBank s b e.addrOffset).params
    obtain ⟨l1, b1, f1, t1⟩ := membusRead_traffic s b e.addrOffset
    simp only [hm] at h1
    generalize s.membusRead b e.addrOffset = x at *
    rcases x with ⟨_ | old, t⟩
    · rcases h1 with ⟨ho, -⟩ | ⟨-, ht⟩
      · cases ho
      · dsimp only at *
        obtain ⟨n1, r1⟩ := t1 rfl
        refine ⟨fun h => (by cases h), fun _ => ⟨[], e, es, _, l1, [], rfl, ?_, ?_, (by simpa using b1), n1, r1, .inl ⟨rfl, rfl⟩⟩⟩
        · rw [ht]; rfl
        · rw [ht, ← requestOf_ref, requestOf_mbxR (accepted_layout hp)]
    · rcases h1 with ⟨ho, ht⟩ | ⟨ho, -⟩
      · simp only [Option.some.injEq] at ho
        dsimp only at k1 ht b1 ⊢
        have h2 := membusWrite_chan (s := t) (b := b) (a := e.addrOffset) (w := calUpdate e old) k1.symm hp
        have k2 := (membusWrite_onlyBank t b e.addrOffset (calUpdate e old)).params
        obtain ⟨l2, b2, f2, t2⟩ := membusWrite_traffic t b e.addrOffset (calUpdate e old)
        rw [k1, b1, addrOf_congr k1] at b2
        simp only [k1, addrOf_congr k1] at t2
        simp only at h2
        rw [settle_idle (by rw [State.logWrite_chan, ht]), State.logWrite_chan, ht] at h2
        generalize t.membusWrite b e.addrOffset (calUpdate e old) = y at *
        rcases y with ⟨_ | _, v⟩
        · simp only [Bool.false_eq_true, if_false] at h2
          dsimp only at *
          obtain ⟨n2, r2⟩ := t2 rfl
          refine ⟨fun h => (by cases h), fun _ => ⟨[], e, es, _, l2, l1 ++ [.write (s.addrOf (.mem b)) (s.params.mbxR e.addrOffset)],
            rfl, ?_, ?_, (by simpa using b2), n2, r2, .inr ⟨?_, ?_⟩⟩⟩
          · rw [h2]; rfl
          · rw [h2, ← requestOf_ref]
          · rw [ho]; rfl
          · simp only [List.filter_append, List.filter_cons, f1]
            simp [Txn.isRead]
        · simp only [if_true] at h2
          dsimp only at *
          have hv : (v.chan b).cal = tableImage s.params [e] m₀ := by
            rw [h2, ho, tableImage, ← requestOf_ref]; rfl
          have hq : (v.chan b).pending = none := by rw [h2]
          have hvp : v.params = s.params := k2.trans k1
          obtain ⟨i1, i2⟩ := ih v hvp (tableImage s.params [e] m₀) fun w => by
            rw [settle_idle (by rw [State.logWrite_chan]; exact hq), State.logWrite_chan, hv]
          have himg : ∀ xs, tableImage s.params (e :: xs) m₀ = tableImage s.params xs (tableImage s.params [e] m₀) :=
            fun _ => rfl
          refine ⟨fun hd _ => ?_, fun hd => ?_⟩
          · cases es with
            | nil => cases hd; exact ⟨hv, hq⟩
            | cons e' es' => rw [himg]; exact i1 hd (by simp)
          · obtain ⟨done, e', rest, w, polls, l, g1, g2, g3, g4, g5, g6, g7⟩ := i2 hd
            rw [hvp] at g2 g3 g5 g6 g7
            rw [addrOf_congr hvp] at g4
            simp only [addrOf_congr hvp] at g6
            refine ⟨e :: done, e', rest, w, polls,
              l ++ (l2 ++ .write (s.addrOf (.mem b)) (s.params.mbxW e.addrOffset (calUpdate e old)) :: (l1 ++
                [.write (s.addrOf (.mem b)) (s.params.mbxR e.addrOffset)])), by rw [g1]; rfl, ?_, g3, ?_, g5, g6, ?_⟩
            · rw [himg]; exact g2
            · rw [g4, b2]; simp
            · rw [himg]
              have c : ∀ n, (l.filter fun x => !x.isRead).length = n → ((l ++ (l2 ++ Txn.write (s.addrOf (.mem b))
                  (s.params.mbxW e.addrOffset (calUpdate e old)) :: (l1 ++
                  [.write (s.addrOf (.mem b)) (s.params.mbxR e.addrOffset)]))).filter fun x => !x.isRead).length = n + 2 := by
                rintro n rfl
                simp only [List.filter_append, List.filter_cons, f1, f2]
                simp [Txn.isRead]
              rcases g7 with ⟨w1, c1⟩ | ⟨w1, c1⟩
              · exact .inl ⟨w1, by rw [c _ c1]; simp; omega⟩
              · exact .inr ⟨w1, by rw [c _ c1]; simp; omega⟩
      · cases ho

/-! ### The sequencer -/

/-- The stretches an operation makes from storage registers `f` (R171 to R195). -/
def SeqOp.stretches (p : Params) (f : StoreFile) : SeqOp → List Stretch
  | .write r v => [.write r v]
  | .setBits r m => rewrite r (f.get r) (f.get r ||| m)
  | .clrBits r m => rewrite r (f.get r) (f.get r &&& ~~~ m)
  | .busyWait => [.wait false (busyMask p)]
  | .lockWait => [.wait true (lockedMask p)]
  | .forceBypass b => bypassStretch p b p.bypassAll
  | .clearBypass b => bypassStretch p b 0
  | .clearLostLock b => [.clearLatch (.lostlock b) p.fields.lostlockLatch.mask]
  | .clearIntr => [.clearLatch .intr (lostLockMask p)]
  | .calTable b => [.table b]
  | .editCtrl e => rewrite .ctrl f.ctrl (e.apply p f.ctrl)
  | .divideByZero => []

/-- APPLY_CALTABLE as a command. -/
theorem exec_applyCaltable (b : Bank) (s : State) :
    exec (.applyCaltable b) s = .next ((s.applyCal b).2.returns (okOrTimeout (s.applyCal b).1)) := rfl

/-- The traffic of a table. -/
theorem applyCal_made (s : State) (b : Bank) : Made [.table b] s (s.applyCal b).2 := by
  obtain ⟨l, hl, -⟩ := applyTable_induct (R := Traffic fun _ => True) b (Traffic.refl _) (fun _ _ _ => Traffic.trans)
    (fun s a => by
      rw [membusRead_eq]
      have h := (writeReg_traffic (P := fun _ => True) s (.mem b) (s.params.mbxR a) trivial).trans
        (poll_traffic (.mempoll b) (reqClear (s.writeReg (.mem b) (s.params.mbxR a)).params)
          (s.writeReg (.mem b) (s.params.mbxR a)).params.membusBudget _ fun _ => trivial)
      split
      · exact h.trans (readReg_traffic _ (.memstat b) fun _ => trivial)
      · exact h)
    (fun s a w => (writeReg_traffic s (.mem b) _ trivial).trans (poll_traffic _ _ _ _ fun _ => trivial))
    s.params.calTable s
  exact ⟨l.reverse, by rw [List.reverse_reverse]; exact hl, made_one ⟨s, _, rfl, exec_applyCaltable b s,
    by rw [List.reverse_reverse]; exact hl⟩⟩

/-- The traffic of an operation that raises no fault (R171 to R195). -/
theorem runOp_made {s t : State} (ha : s.params.offsetsAligned = true) {op : SeqOp} (h : s.runOp op = .ok () t) :
    Made (op.stretches s.params s.regs) s t := by
  cases op with
  | write r v => cases h; exact writeReg_made ..
  | setBits r m =>
    have e : s.runOp (.setBits r m) = .ok () (s.setMask (.store r) m) := guarded_ok ha fun s => s.setMask (.store r) m
    rw [e] at h; cases h; exact rewrite_made ..
  | clrBits r m =>
    have e : s.runOp (.clrBits r m) = .ok () (s.clearMask (.store r) m) := guarded_ok ha fun s => s.clearMask (.store r) m
    rw [e] at h; cases h; exact rewrite_made ..
  | busyWait => exact waitStat_made ha _ _ _ h
  | lockWait => exact waitStat_made ha _ _ _ h
  | forceBypass b => exact writeBypass_made ha _ _ h
  | clearBypass b => exact writeBypass_made ha _ _ h
  | clearLostLock b => exact clearLatch_made ha _ h
  | clearIntr => exact clearLatch_made ha _ h
  | calTable b =>
    have k := applyCal_made s b
    simp only [State.runOp] at h
    generalize s.applyCal b = x at h k
    obtain ⟨_ | _, y⟩ := x <;> cases h <;> exact k
  | editCtrl e =>
    cases h
    exact ⟨[.read (s.addrOf (.store .ctrl)) s.regs.ctrl, .write (s.addrOf (.store .ctrl)) (e.apply s.params s.regs.ctrl)],
      rfl, _, [_], rfl, rfl, made_one rfl⟩
  | divideByZero => cases h

/-- The stretches a run of operations makes, each from the registers the ones before it leave (R197). -/
def stretchesOf (p : Params) : List SeqOp → StoreFile → List Stretch
  | [], _ => []
  | op :: ops, f => op.stretches p f ++ stretchesOf p ops (op.onRegs p f)

theorem stretchesOf_append (p : Params) (ops ops' : List SeqOp) (f : StoreFile) :
    stretchesOf p (ops ++ ops') f = stretchesOf p ops f ++ stretchesOf p ops' (ops.foldl (SeqOp.onRegs p) f) := by
  induction ops generalizing f with
  | nil => rfl
  | cons op ops ih => simp [stretchesOf, ih, List.append_assoc]

/-- The traffic and the membus sides of a run of operations that divides by no zero (R197). -/
theorem runOps_made {ops : List SeqOp} (hn : ∀ op ∈ ops, op ≠ .divideByZero) {s t : State}
    (ha : s.params.offsetsAligned = true) {u : Nat} (h : runOps ops u s = .ok () t) :
    Made (stretchesOf s.params ops s.regs) s t ∧
      ∀ b, (∀ op ∈ ops, op ≠ .calTable b) → t.chan b = s.chan b := by
  induction ops generalizing s u with
  | nil => cases h; exact ⟨Made.refl _, fun _ _ => rfl⟩
  | cons op ops ih =>
    obtain ⟨v, hv, e⟩ := runOp_effect (s := s.at s.seq u) ha (hn op List.mem_cons_self)
    have m := runOp_made (s := s.at s.seq u) ha hv
    unfold runOps at h; rw [hv] at h
    have hp : v.params = s.params := e.params
    obtain ⟨k, kc⟩ := ih (fun o ho => hn o (List.mem_cons_of_mem _ ho)) (by rw [hp]; exact ha) h
    refine ⟨?_, fun b hb => (kc b fun o ho => hb o (List.mem_cons_of_mem _ ho)).trans ?_⟩
    · rw [hp, e.regs] at k
      exact Made.trans hp m.of_at k
    · exact (e.chan b (hb op List.mem_cons_self)).trans (State.at_chan ..)

/-- The traffic and the membus sides of a run of states that divides by no zero (R170, R197). -/
theorem runStates_made {qs : List SeqState} {s t : State}
    (hn : ∀ q ∈ qs, ∀ op ∈ program s.params s.cfg q, op ≠ .divideByZero) (ha : s.params.offsetsAligned = true)
    (h : runStates qs s = .ok () t) :
    Made (stretchesOf s.params (qs.flatMap (program s.params s.cfg)) s.regs) s t ∧
      ∀ b, (∀ q ∈ qs, ∀ op ∈ program s.params s.cfg q, op ≠ .calTable b) → t.chan b = s.chan b := by
  induction qs generalizing s with
  | nil => cases h; exact ⟨Made.refl _, fun _ _ => rfl⟩
  | cons q qs ih =>
    obtain ⟨v, hv, -, e⟩ := runOps_effect (hn q List.mem_cons_self) (s := s.at q 0) ha 0
    obtain ⟨m, mc⟩ := runOps_made (hn q List.mem_cons_self) (s := s.at q 0) ha hv
    have hp : v.params = s.params := e.params
    have hc : v.cfg = s.cfg := e.cfg
    have hr : v.regs = (program s.params s.cfg q).foldl (SeqOp.onRegs s.params) s.regs := e.regs
    unfold runStates at h
    rw [show runOps (program s.params s.cfg q) 0 (s.at q 0) = .ok () v from hv] at h
    obtain ⟨k, kc⟩ := ih (s := v) (by rw [hp, hc]; exact fun x hx => hn x (List.mem_cons_of_mem _ hx))
      (by rw [hp]; exact ha) h
    rw [hp, hc, hr] at k
    rw [hp, hc] at kc
    refine ⟨?_, fun b hb => (kc b fun x hx => hb x (List.mem_cons_of_mem _ hx)).trans ?_⟩
    · rw [List.flatMap_cons, stretchesOf_append]
      exact Made.trans hp m.of_at k
    · exact (mc b (hb q List.mem_cons_self)).trans (State.at_chan ..)

/-- The real path's stretches after step 1 (R178 to R195). -/
theorem realPath_stretches {p : Params} {c : BringUpConfig} {vcM vcP : Word} (f : StoreFile)
    (hM : vcoWord p c.main.pllm c.main.pllglob = some vcM) (hP : vcoWord p c.peri.pllm c.peri.pllglob = some vcP) :
    .read .ctrl f.ctrl :: stretchesOf p (realPath.flatMap (program p c)) f = realStretches p c vcM vcP false f := by
  simp only [realPath, program, stageBank, BringUpConfig.bank, hM, hP, allSlices, allGates, List.flatMap_cons,
    List.flatMap_nil, List.map_cons, List.map_nil, List.cons_append, List.nil_append, List.append_nil, stretchesOf,
    SeqOp.onRegs, SeqOp.stretches, StoreFile.set, StoreFile.get, BankFile.set, BankFile.get, GateFile.get,
    BankCfg.pllc, CtrlEdit.apply, realStretches, enterStretch, resetStretch, stagingStretch, gateStretch,
    releaseStretch, lockStretch, leaveStretch, stagedGlob, resetMask, rewrite, bypassStretch, stageStretch, enableStretch,
    Bool.false_eq_true, if_false, ctrlExitBoot, pdrst, busyMask, lockedMask, lostLockMask]

/-- The real path's stretches, step 1 among them, in the first stage (R177 to R195). -/
theorem firstStage_stretches {p : Params} {c : BringUpConfig} {vcM vcP : Word} (f : StoreFile)
    (hM : vcoWord p c.main.pllm c.main.pllglob = some vcM) (hP : vcoWord p c.peri.pllm c.peri.pllglob = some vcP) :
    stretchesOf p ((.s1 :: realPath).flatMap (program p c)) f = realStretches p c vcM vcP true f := by
  have h := List.cons.inj (realPath_stretches (f.set .ctrl (enteredCtrl p f.ctrl)) hM hP)
  simp only [realStretches, enterStretch, Bool.false_eq_true, if_false, if_true] at h ⊢
  exact congrArg (enterStretch p true f.ctrl ++ ·) h.2

/-- The emulation path's stretches (R171 to R174). -/
theorem emulationPath_stretches (p : Params) (c : BringUpConfig) (f : StoreFile) :
    stretchesOf p (emulationPath.flatMap (program p c)) f = emulationStretches p f := by
  simp only [emulationPath, program, List.flatMap_cons, List.flatMap_nil, List.cons_append, List.nil_append,
    List.append_nil, stretchesOf, SeqOp.onRegs, SeqOp.stretches, StoreFile.set, StoreFile.get, BankFile.set,
    BankFile.get, emulationStretches, resetMask, rewrite, bypassStretch, pdrst, lockedMask]

/-- A run of states, cut in two (R197). -/
theorem runStates_append (qs rs : List SeqState) (s : State) :
    runStates (qs ++ rs) s = (runStates qs s).bind fun _ t => runStates rs t := by
  induction qs generalizing s with
  | nil => rfl
  | cons q qs ih =>
    simp only [List.cons_append, runStates]
    cases runOps (program s.params s.cfg q) 0 (s.at q 0) with
    | ok _ t => exact ih t
    | fault _ _ => rfl

/-- A run of operations, cut in two (R46, R197). -/
theorem runOps_append (ops ops' : List SeqOp) (u : Nat) (s : State) :
    runOps (ops ++ ops') u s =
      (runOps ops u s).bind fun _ t => runOps ops' (u + (ops.map SeqOp.microSteps).sum) t := by
  induction ops generalizing s u with
  | nil => simp [runOps, Res.bind]
  | cons op ops ih =>
    simp only [List.cons_append, runOps]
    cases (s.at s.seq u).runOp op with
    | ok _ t => simp only [Res.bind_ok, ih, List.map_cons, List.sum_cons, Nat.add_assoc]
    | fault _ _ => rfl

end Sys2Proof.Machine
end

