-- ==== Sys2Proof/Tests/Slice0.lean ====
section
/-!
SUPPORT. Tests: the checks of WellFormed each refusing an ill-formed configuration, the words of V-EN written out, a few
vectors of 95_test_vectors.md for each command, and a witness for the hypotheses of each statement. Expected values are
the spec's vectors or hand calculations from its rules.
-/

namespace Sys2Proof.Tests

set_option Elab.async false

open Sys2Proof Sys2Proof.Machine

/-! ### Helpers -/

/-- The state an outcome goes on in. -/
def next? : Host.Outcome State Fault Refusal → Option State
  | .next s => some s
  | .fault _ => none
  | .refused _ => none

/-- One storage register set, the other ones 0, the draws of `tape` to come. -/
def with1 (r : StoreReg) (v : Word) (tape : List Word := []) : State :=
  { State.reset with regs := State.reset.regs.set r v, tape := tape }

/-- The state after reset with draws to come. -/
def drawing (tape : List Word) : State := { State.reset with tape := tape }

/-- A request pending on the main bank, with draws to come. -/
def pendingM (q : Request) (tape : List Word) : State :=
  { drawing tape with busM := { State.reset.busM with pending := some q } }

/-- The main bank's calibration memory of V-MB-6, by rising address. -/
def memVMB6 : Memory := [(0x4003, 0x35), (0x4007, 0xB5), (0x4027, 0x12), (0x40E6, 0xFF)]

/-- Configuration T with other parameters. -/
def withParams (p : Params) (tape : List Word := []) : State := { drawing tape with params := p }

/-- Environment E-OK for one real-path run: STAT reads 0x100, every poll is done at its first read. -/
def tapeOk : List Word := List.replicate 3 0x100 ++ List.replicate 20 0 ++ List.replicate 4 0x100

/-- The registers of the rate vectors (V-RT). -/
def rateRegs : StoreFile :=
  { StoreFile.zero with
    ctrl := 0x100
    nocdiv := 0x00090000
    main := { StoreFile.zero.main with pllglob := 0x100, pllm := 0x50, pllc1 := 1, pllc2 := 9, pllc3 := 4 }
    peri := { StoreFile.zero.peri with pllglob := 0x100, pllm := 0x40, pllc1 := 3 } }

/-- A state for the rate vectors, with more registers set. -/
def rating (l : List (StoreReg × Word)) : State :=
  { State.reset with regs := l.foldl (fun f x => f.set x.1 x.2) rateRegs }

/-- The state a command leaves. -/
def ran (i : Instr) (s : State) : Option State := next? (exec i s)

/-- What a command returns. -/
def returned (i : Instr) (s : State) : Option Result := (ran i s).bind State.result

/-- How many bus transactions a command makes from a state whose log is empty. -/
def traffic (i : Instr) (s : State) : Option Nat := (ran i s).map fun t => t.bus.length

/-! ### WellFormed -/

theorem test_configuration_t : Config.paramsT.accepted = true ∧ Config.paramsT.laidOut = true := by decide +kernel

theorem test_refuses_two_bit_req :
    ({ Config.paramsT with mbxReq := 0x03000000 }).mbxBitsOk = false ∧
      ({ Config.paramsT with mbxWr := 0x01000000 }).mbxBitsOk = false := by decide +kernel

theorem test_refuses_req_in_address : ({ Config.paramsT with mbxReq := 0x4000 }).mbxBitsClear = false := by
  decide +kernel

theorem test_refuses_data_out_of_word :
    ({ Config.paramsT with mbxWdatShift := 25 }).mbxDataOk = false ∧
      ({ Config.paramsT with mbxWdatShift := 8 }).mbxDataOk = false := by decide +kernel

theorem test_refuses_high_hscnt :
    ({ Config.paramsT with fields := { Config.tFields with hscnt := ⟨1, 10⟩ } }).hscntOk = false := by decide +kernel

theorem test_refuses_large_budget : ({ Config.paramsT with membusBudget := 20000 }).budgetOk = false := by
  decide +kernel

theorem test_refuses_zero_divisor :
    ({ Config.paramsT with sdmmcDiv := 0 }).divisorsOk = false ∧
      ({ Config.paramsT with rateNand := ⟨.l4mp, 0⟩ }).divisorsOk = false := by decide +kernel

theorem test_refuses_sysfree : ({ Config.paramsT with sysfreeDivRun := 2 }).sysfreeOk = false := by decide +kernel

theorem test_refuses_equal_codes :
    ({ Config.paramsT with sel := ⟨0, 1, 2, 3, 0⟩ }).codesOk = false ∧
      ({ Config.paramsT with psrc := ⟨0, 1, 1⟩ }).codesOk = false := by decide +kernel

theorem test_refused_is_not_accepted :
    construct (some 0) { Config.paramsT with membusBudget := 20000 } Config.cfgT = .refused .configuration := by
  decide +kernel

theorem test_layout_misaligned :
    ({ Config.paramsT with offs := { Config.tOffsets with stat := 6 } }).offsetsAligned = false := by decide +kernel

theorem test_layout_shared_offset :
    ({ Config.paramsT with offs := { Config.tOffsets with stat := 8 } }).offsetsDistinct = false := by decide +kernel

theorem test_layout_overlap :
    ({ Config.paramsT with fields := { Config.tFields with rst := ⟨0, 1⟩ } }).fieldsLaidOut = false ∧
      ({ Config.paramsT with fields := { Config.tFields with mdiv := ⟨30, 10⟩ } }).fieldsLaidOut = false := by
  decide +kernel

theorem test_layout_width :
    ({ Config.paramsT with fields := { Config.tFields with nocclkSrc := ⟨16, 2⟩ } }).widthsOk = false := by
  decide +kernel

/-! ### Decoding words written out (V-EN, from R91 to R93) -/

theorem test_decode_read32 : decode [0x00000001, 0x00000104] = .ok (.read32 0x104, []) := by decide +kernel

theorem test_decode_write32 : decode [0x00000002, 0x00000104, 0x00000050] = .ok (.write32 0x104 0x50, []) := by
  decide +kernel

theorem test_decode_setBits : decode [0x00000003, 0x00000100, 0x00000003] = .ok (.setBits 0x100 0x3, []) := by
  decide +kernel

theorem test_decode_clrBits : decode [0x00000004, 0x00000100, 0x00000003] = .ok (.clrBits 0x100 0x3, []) := by
  decide +kernel

theorem test_decode_waitBit :
    decode [0x00000105, 0x00000004, 0x00000100, 0x00004E20] = .ok (.waitBit true 0x4 0x100 20000, []) ∧
      decode [0x00000005, 0x00000004, 0x00000001, 0x00004E20] = .ok (.waitBit false 0x4 0x1 20000, []) := by
  decide +kernel

theorem test_decode_membusWrite :
    decode [0x00000110, 0x00000027, 0x00000080] = .ok (.membusWrite .P 0x27 0x80, []) := by decide +kernel

theorem test_decode_membusRead : decode [0x00000011, 0x00000007] = .ok (.membusRead .M 0x07, []) := by decide +kernel

theorem test_decode_applyCaltable : decode [0x00000112, 0x99] = .ok (.applyCaltable .P, [0x99]) := by decide +kernel

theorem test_decode_vcocalib :
    decode [0x00000020, 0x00000050, 0x00100100] = .ok (.vcocalib 0x50 0x00100100, []) := by decide +kernel

/-- The spellings of `core=` (log 25). -/
theorem test_core_operand :
    coreOperand "core=3".toList = some 3 ∧ coreOperand "core=0x3".toList = some 3 ∧
      coreOperand "core=4".toList = none ∧ coreOperand "core=".toList = none ∧ coreOperand "3".toList = none := by decide

theorem test_decode_bringup :
    decode [0x00000030] = .ok (.bringup .real .first, []) ∧ decode [0x00000130] = .ok (.bringup .emulation .first, []) ∧
      decode [0x00000230] = .ok (.bringup .real .later, []) ∧
      decode [0x00000330] = .ok (.bringup .emulation .later, []) := by decide +kernel

theorem test_decode_vcoHz : decode [0x00000140] = .ok (.vcoHz .P, []) := by decide +kernel

theorem test_decode_clksrcHz :
    decode [0x00000041, 0x00000034, 0x0000010C, 0x0000020C] = .ok (.clksrcHz 0x34 0x10C 0x20C, []) := by decide +kernel

theorem test_decode_getRate : decode [0x00000C42, 0x00000000] = .ok (.getRate 3 0, []) := by decide +kernel

theorem test_decode_enable : decode [0x00000043, 0x0000000A] = .ok (.enable 10, []) := by decide +kernel

/-- V-EN-16 to V-EN-21. -/
theorem test_decode_illegal :
    decode [0x00000000] = .error (.reservedOpcode 0) ∧ decode [0x00001001, 4] = .error (.reservedBits 0x1001) ∧
      decode [0x00000101, 4] = .error (.unusedField 0x101) ∧ decode [0x00000443, 4] = .error (.unusedField 0x443) ∧
      decode [0x00000242, 4] = .error (.unusedField 0x242) ∧ decode [0x00000044] = .error (.reservedOpcode 0x44) := by
  decide +kernel

theorem test_table_words :
    decodeTableWord 32 0x30 = some (.bringup .real .first) ∧ decodeTableWord 32 0x05 = some (.waitBit false 0 0 0) ∧
      decodeTableWord 96 0x500000010400000002 = some (.write32 0x104 0x50) ∧ decodeTableWord 32 0 = none := by
  decide +kernel

theorem test_fetch_word :
    next? (step (State.reset.withFetchWord 32 0x43)) = some { State.reset with result := some .unit } := by
  decide +kernel

/-! ### Register access and waits (V-RA, V-WB) -/

theorem test_read32 : ran (.read32 0x104) (with1 (.bank .M .pllm) 0x50) =
    some { with1 (.bank .M .pllm) 0x50 with bus := [.read 0x104 0x50], result := some (.word 0x50) } := by
  decide +kernel

theorem test_read32_misaligned :
    ran (.read32 0x102) State.reset = some { State.reset with fault := some ⟨.invalidOffset, 0x01, .idle, 0⟩ } := by
  decide +kernel

theorem test_write32 : ran (.write32 0x20C 0x7) State.reset =
    some { with1 (.bank .P (.pllc .c1)) 7 with bus := [.write 0x20C 7], result := some .unit } := by decide +kernel

theorem test_write32_no_register :
    ran (.write32 0x044 1) State.reset = some { State.reset with fault := some ⟨.invalidOffset, 0x02, .idle, 0⟩ } := by
  decide +kernel

theorem test_setBits : ran (.setBits 0x100 0x3) (with1 (.bank .M .pllglob) 0x100) =
    some { with1 (.bank .M .pllglob) 0x103 with
      bus := [.write 0x100 0x103, .read 0x100 0x100], result := some .unit } := by decide +kernel

theorem test_setBits_none : ran (.setBits 0x100 0) (with1 (.bank .M .pllglob) 0x12345678) =
    some { with1 (.bank .M .pllglob) 0x12345678 with
      bus := [.write 0x100 0x12345678, .read 0x100 0x12345678], result := some .unit } := by decide +kernel

theorem test_clrBits : ran (.clrBits 0x100 0x3) (with1 (.bank .M .pllglob) 0x103) =
    some { with1 (.bank .M .pllglob) 0x100 with
      bus := [.write 0x100 0x100, .read 0x100 0x103], result := some .unit } := by decide +kernel

theorem test_clrBits_all : ran (.clrBits 0x100 0xFFFFFFFF) (with1 (.bank .M .pllglob) 0x12345678) =
    some { with1 (.bank .M .pllglob) 0 with
      bus := [.write 0x100 0, .read 0x100 0x12345678], result := some .unit } := by decide +kernel

/-- V-WB-1. -/
theorem test_waitBit_third_read : ran (.waitBit false 0x4 0x1 20000) (drawing [1, 1, 0, 1]) =
    some { drawing [1] with bus := [.read 4 0, .read 4 1, .read 4 1], result := some .unit } := by decide +kernel

/-- V-WB-2, V-WB-3, V-WB-5 with a third draw of 0x1, V-WB-6. -/
theorem test_waitBit_sense :
    ran (.waitBit false 0x4 0x1 0) State.reset = some { State.reset with result := some (.err .timeout) } ∧
      returned (.waitBit true 0x4 0x0 5) (drawing [7]) = some .unit ∧
      returned (.waitBit false 0x4 0x101 3) (drawing [0x101, 0x100, 0x1]) = some (.err .timeout) ∧
      returned (.waitBit true 0x4 0x101 2) (drawing [0x100, 0x101]) = some .unit := by decide +kernel

/-! ### Membus (V-MB) -/

/-- V-MB-1 to V-MB-5b. -/
theorem test_mailbox_words :
    let p := Config.paramsT
    p.mbxW 0x27 0x80 = 0x03804027 ∧ p.mbxR 0x07 = 0x01004007 ∧ p.mbxW 0x03 0x4A = 0x034A4003 ∧
      p.mbxR 0x00014005 = 0x01004005 ∧ p.mbxR 0x4007 = 0x01004007 ∧ p.mbxW 0x10 0x1FF = 0x03FF4010 ∧
      requestOf p 0x03FF4010 = ⟨true, 0x4010, 0xFF⟩ ∧ p.mbxW 0x10 0x300 = 0x03004010 ∧
      requestOf p 0x03004010 = ⟨true, 0x4010, 0⟩ := by decide +kernel

/-- L3-P2, command 2. -/
theorem test_membusWrite : ran (.membusWrite .M 0x27 0x92) (drawing [0]) =
    some { State.reset with
      busM := { State.reset.busM with cal := [(0x4027, 0x92)] }
      bus := [.read 0x12C 0, .write 0x128 0x03924027]
      result := some .unit } := by decide +kernel

/-- V-MB-9 with a budget of 2. -/
theorem test_membusWrite_never_done :
    ran (.membusWrite .M 0x27 0x80)
      (withParams { Config.paramsT with membusBudget := 2 } [0x01000000, 0x01000000]) =
    some { withParams { Config.paramsT with membusBudget := 2 } with
      busM := { State.reset.busM with pending := some ⟨true, 0x4027, 0x80⟩ }
      bus := [.read 0x12C 0x01000000, .read 0x12C 0x01000000, .write 0x128 0x03804027]
      result := some (.err .timeout) } := by decide +kernel

/-- V-MB-8. -/
theorem test_membusRead :
    ran (.membusRead .P 0x07) { drawing [0x01000000, 0] with busP := { Membus.reset with cal := [(0x4007, 0x35)] } } =
    some { State.reset with
      busP := { memstat := 0x35, cal := [(0x4007, 0x35)], pending := none }
      bus := [.read 0x230 0x35, .read 0x22C 0, .read 0x22C 0x01000000, .write 0x228 0x01004007]
      result := some (.word 0x35) } := by decide +kernel

/-- V-MB-6: the memory after, and 25 transactions. -/
theorem test_applyCaltable :
    let s := { drawing (List.replicate 10 0) with busM := { Membus.reset with cal := memVMB6 } }
    (ran (.applyCaltable .M) s).map (fun t => (t.busM.cal, t.bus.length, t.result)) =
      some ([(0x4003, 0x4A), (0x4007, 0xCA), (0x4027, 0x92), (0x40B3, 0x01), (0x40E6, 0xFF)], 25, some .unit) := by
  decide +kernel

/-- V-MB-10. -/
theorem test_applyCaltable_empty :
    ran (.applyCaltable .P) (withParams { Config.paramsT with calTable := [] }) =
    some { withParams { Config.paramsT with calTable := [] } with result := some .unit } := by decide +kernel

/-! ### VCO calibration (V-VC) -/

/-- V-VC-1, V-VC-3, V-VC-5 to V-VC-9, V-VC-12. -/
theorem test_vcocalib :
    let r := fun a b => returned (.vcocalib a b) State.reset
    r 0x50 0x00100100 = some (.word 0x0001004C) ∧ r 0x0A 0x00201000 = some (.word 0x0005002E) ∧
      r 0x01 0x00100000 = some (.word 0x00640060) ∧ r 0x01 0x0C800000 = some (.word 0x006403FC) ∧
      r 0x03 0x00302000 = some (.word 0x0008001C) ∧ r 0x07 0x00300000 = some (.word 0x000E001C) ∧
      r 0x200 0x00103000 = some (.word 0x000103FC) ∧ r 0xFFFFFC50 0x00100000 = some (.word 0x0001004C) := by
  decide +kernel

/-- V-VC-10, V-VC-11. -/
theorem test_vcocalib_divides_by_zero :
    ran (.vcocalib 0x00 0x00100000) State.reset =
        some { State.reset with fault := some ⟨.divideByZero, 0x20, .idle, 0⟩ } ∧
      ran (.vcocalib 0x50 0x00000100) State.reset =
        some { State.reset with fault := some ⟨.divideByZero, 0x20, .idle, 0⟩ } := by decide +kernel

/-! ### Bring-up (V-BU, L3-P3) -/

/-- V-BU-1: the 13 transactions, oldest first. -/
theorem test_bringup_emulation :
    (ran (.bringup .emulation .first) (drawing (List.replicate 5 0x100))).map
      (fun t => (t.bus.reverse, t.seq, t.diag, t.result)) =
    some ([.read 0x100 0, .write 0x100 3, .read 0x200 0, .write 0x200 3, .read 0x004 0x100, .write 0x120 7,
      .read 0x004 0x100, .write 0x220 7, .read 0x004 0x100, .write 0x120 0, .read 0x004 0x100, .write 0x220 0,
      .read 0x004 0x100], .done, [], some .unit) := by decide +kernel

/-- L3-P3, command 1: 131 transactions and the end state of the banks, CTRL and P.EMACCTL. -/
theorem test_bringup_real :
    (ran (.bringup .real .first) (drawing tapeOk)).map (fun t => (t.bus.length, t.diag, t.tape, t.seq)) =
        some (131, [], [], .done) ∧
      (ran (.bringup .real .first) (drawing tapeOk)).map (fun t => (t.regs.main, t.regs.peri, t.regs.ctrl, t.regs.emacctl)) =
        some (⟨0x00100103, 0x50, 0x08000003, 0x08000001, 0x08000009, 0x08000004, 0, 0x0001004C, 0⟩,
          ⟨0x00100103, 0x40, 0x08000000, 0x08000003, 0x08000007, 0x08000000, 0, 0x0001003C, 0⟩, 0x100, 0x08000000) := by
  decide +kernel

/-! ### Rates (V-RT) -/

/-- V-RT-1, V-RT-3, V-RT-5. -/
theorem test_vcoHz :
    returned (.vcoHz .M) (rating []) = some (.hz 2000000000) ∧
      returned (.vcoHz .M) (rating [(.bank .M .pllglob, 0x300)]) = some (.hz 666666640) ∧
      traffic (.vcoHz .M) (rating [(.bank .M .pllglob, 0x00030000)]) = some 1 := by decide +kernel

/-- V-RT-5b: the product wraps; V-RT-4: the A-ref divider is 0. -/
theorem test_vcoHz_corners :
    returned (.vcoHz .M) { rating [(.bank .M .pllglob, 0x20100), (.bank .M .pllm, 17)] with
      params := { Config.paramsT with fpgaHz := 0x1000000000000000 } } = some (.hz 0x1000000000000000) ∧
    (ran (.vcoHz .M) (rating [(.bank .M .pllglob, 0)])).bind State.fault =
      some ⟨.divideByZero, 0x40, .idle, 0⟩ := by decide +kernel

/-- V-RT-7, V-RT-8. -/
theorem test_clksrcHz :
    let r := fun l => returned (.clksrcHz 0x034 0x10C 0x20C) (rating l)
    r [(.bank .M (.pllc .c1), 0x7FF)] = some (.hz 976562) ∧ r [(.gate .core01, 0x10000)] = some (.hz 400000000) ∧
      r [(.gate .core01, 0x20000)] = some (.hz 25000000) ∧ r [(.gate .core01, 0x40000)] = some (.hz 50000000) ∧
      r [(.gate .core01, 0x50000)] = some (.hz 0) := by decide +kernel

/-- V-RT-9. -/
theorem test_clksrcHz_no_counter : ran (.clksrcHz 0x034 0x008 0x20C) State.reset =
    some { State.reset with fault := some ⟨.invalidOffset, 0x41, .idle, 0⟩ } := by decide +kernel

/-- V-RT-10, V-RT-12, V-RT-15 to V-RT-17. -/
theorem test_getRate :
    returned (.getRate 0 0) (rating [(.gate .core01, 3)]) = some (.hz 250000000) ∧
      returned (.getRate 2 0) (rating [(.gate .core23, 1), (.gate .core2, 4)]) = some (.hz 100000000) ∧
      returned (.getRate 0 2) (rating []) = some (.hz 200000000) ∧
      returned (.getRate 0 3) (rating []) = some (.hz 100000000) ∧
      returned (.getRate 0 5) (rating []) = some (.hz 50000000) ∧
      returned (.getRate 0 4) (rating [(.ctrl, 0x101)]) = some (.hz 200000000) := by decide +kernel

/-- V-RT-18, V-RT-19, V-RT-20, V-RT-21. -/
theorem test_getRate_peripherals :
    let s := rating [(.emacctl, 0x08000000), (.gate .emaca, 1), (.gate .emacb, 0x20000), (.gate .emacptp, 0x30003)]
    returned (.getRate 0 6) s = some (.hz 100000000) ∧ returned (.getRate 0 7) s = some (.hz 25000000) ∧
      returned (.getRate 0 8) s = some (.hz 100000000) ∧ returned (.getRate 0 9) s = some (.hz 100000000) ∧
      returned (.getRate 0 10) s = some (.hz 200000000) ∧ returned (.getRate 0 11) s = some (.hz 50000000) ∧
      returned (.getRate 0 13) s = some (.err .unsupportedClock) := by decide +kernel

/-- V-RT-23. -/
theorem test_enable :
    ran (.enable 0) State.reset = some { State.reset with result := some .unit } ∧
      ran (.enable 99) State.reset = some { State.reset with result := some .unit } := by decide +kernel

/-- The byte view of a transaction (R74): little-endian. -/
theorem test_bytes_little_endian :
    (Txn.write 0x100 0x12345678).bytes = [(0x100, 0x78), (0x101, 0x56), (0x102, 0x34), (0x103, 0x12)] := by
  decide +kernel

/-! ### Witnesses: states and operands that meet the hypotheses of the statements, each clause at a boundary value -/

/-- A command leaves a state with a property. -/
theorem exists_next {i : Instr} {s : State} {P : State → Prop} [DecidablePred P]
    (h : (ran i s).any (fun t => decide (P t)) = true) : ∃ t, exec i s = .next t ∧ P t := by
  unfold ran next? at h
  cases k : exec i s with
  | next t => rw [k] at h; exact ⟨t, rfl, by simpa using h⟩
  | fault f => rw [k] at h; cases h
  | refused r => rw [k] at h; cases h

/-- A step goes on in a state with a property. -/
theorem exists_step {s : State} {P : State → Prop} [DecidablePred P]
    (h : (next? (step s)).any (fun t => decide (P t)) = true) : ∃ t, step s = .next t ∧ P t := by
  unfold next? at h
  cases k : step s with
  | next t => rw [k] at h; exact ⟨t, rfl, by simpa using h⟩
  | fault f => rw [k] at h; cases h
  | refused r => rw [k] at h; cases h

/-- A part of a command ends without a fault. -/
def completes {α : Type} : Res α → Bool
  | .ok _ _ => true
  | .fault _ _ => false

theorem exists_ok {r : Res Unit} (h : completes r = true) : ∃ t, r = .ok () t := by
  cases r with
  | ok a t => exact ⟨t, rfl⟩
  | fault k t => cases h

/-- No register has an offset. -/
theorem no_register {p : Params} {off : Word} (h : allRegs.all (fun r => p.offset r != off) = true) :
    ∀ r, p.offset r ≠ off := fun r => by simpa using List.all_eq_true.mp h r (mem_allRegs r)

/-- Configuration T with the main bank's status mirror at its mailbox (R22, B3). -/
def sharedT : Params :=
  { Config.paramsT with offs := { Config.tOffsets with main := { Config.tOffsets.main with mempoll := 0x128 } } }

/-- Configuration T with a membus budget of 2. -/
def budget2 : Params := { Config.paramsT with membusBudget := 2 }

theorem witness_DecodedWordsAreEncoding :
    decode [0x105, 4, 0x100, 0xFFFFFFFF, 0x43] = .ok (.waitBit true 4 0x100 0xFFFFFFFF, [0x43]) := by decide +kernel

theorem witness_IllegalCommandFaults :
    illegalWord 0x00000000 ∧ illegalWord 0x00000044 ∧ illegalWord 0x00001001 ∧ illegalWord 0x80000042 ∧
      illegalWord 0x00000101 ∧ illegalWord 0x00000243 ∧ illegalWord 0x00000443 :=
  ⟨.inl (by decide), .inl (by decide), .inr (.inl (by decide)), .inr (.inl (by decide)),
    .inr (.inr (.inl (by decide))), .inr (.inr (.inr (.inl (by decide)))), .inr (.inr (.inr (.inr (by decide))))⟩

theorem witness_IllegalCommandFaults_legal :
    ¬ illegalWord 0x00000105 ∧ ¬ illegalWord 0x00000330 ∧ ¬ illegalWord 0x00000C42 ∧
      (State.reset.issue [0x101, 4]).fault = none ∧ (State.reset.issue [0x101, 4]).cmds = 0x101 :: [4] ∧
      12 < (13 : Word).toNat := by
  refine ⟨?_, ?_, ?_, by decide +kernel⟩ <;> · rintro (h | h | h | h | h) <;> exact absurd h (by decide)

theorem witness_StepRunsDecodedCommand :
    (State.reset.issue [0x43, 5, 0x30]).fault = none ∧
      decode (State.reset.issue [0x43, 5, 0x30]).cmds = .ok (.enable 5, [0x30]) := by decide +kernel

theorem witness_WaitsForACommand :
    State.reset.fault = none ∧ State.reset.cmds = [] ∧ 2 < (encode (.write32 0x104 0x50)).length ∧
      (State.reset.issue [2, 0x104]).cmds = (encode (.write32 0x104 0x50)).take 2 := by decide +kernel

theorem witness_FaultStopsTheCore :
    State.reset.fault = none ∧
      ∃ t, exec (.read32 0x102) State.reset = .next t ∧ t.fault = some ⟨.invalidOffset, 1, .idle, 0⟩ :=
  ⟨rfl, exists_next (by decide +kernel)⟩

theorem witness_ResultsAreTheOpcodesOwn :
    State.reset.fault = none ∧ ({ State.reset with fault := some ⟨.divideByZero, 0x40, .idle, 0⟩ } : State).fault ≠ none := by
  decide +kernel

theorem witness_Read32ByRegisterClass :
    State.reset.params.laidOut = true ∧ State.reset.params.sharedPoll .M = false ∧
      (State.reset.chan .M).pending = none ∧
      ((pendingM ⟨false, 0x4027, 0⟩ [0]).chan .M).pending = some ⟨false, 0x4027, 0⟩ ∧
      (pendingM ⟨false, 0x4027, 0⟩ [0]).drawAt 0 &&& Config.paramsT.mbxReq = 0 ∧
      (pendingM ⟨true, 0x4027, 1⟩ [0x01000000]).drawAt 0 &&& Config.paramsT.mbxReq ≠ 0 ∧
      sharedT.laidOut = true ∧ sharedT.accepted = true ∧ sharedT.sharedPoll .M = true := by decide +kernel

theorem witness_invalid_offsets :
    (0x102 : Word).toNat % 4 ≠ 0 ∧ (∀ r, Config.paramsT.offset r ≠ 0x044) ∧ ∀ r, Config.paramsT.offset r ≠ 0xFFFFFFFC :=
  ⟨by decide, no_register (by decide +kernel), no_register (by decide +kernel)⟩

theorem witness_Write32ByRegisterClass :
    State.reset.params.laidOut = true ∧ State.reset.params.sharedPoll .P = false ∧
      (0x02000000 : Word) &&& State.reset.params.mbxReq = 0 ∧ (0x01000000 : Word) &&& State.reset.params.mbxReq ≠ 0 ∧
      (State.reset.chan .M).pending = none ∧
      ((pendingM ⟨true, 0x4027, 1⟩ [1]).chan .M).pending = some ⟨true, 0x4027, 1⟩ := by decide +kernel

theorem witness_valid_offset :
    (0x128 : Word).toNat % 4 = 0 ∧ State.reset.params.offset (.mem .M) = 0x128 ∧ (0 : Word).toNat % 4 = 0 ∧
      State.reset.params.offset (.store .ctrl) = 0 := by decide +kernel

theorem witness_StorageReadsBack :
    State.reset.params.laidOut = true ∧ StoreReg.bank .P .pllm ≠ StoreReg.bank .M .pllm := by decide +kernel

/-- Both senses, at budgets 1 and 2: met at the first, at the last, and at no read; with a mask of two bits, a word that
has one of them meets neither sense. -/
theorem witness_WaitBitCountsItsReads :
    State.reset.params.laidOut = true ∧ 0 < (1 : Word).toNat ∧
      (drawing [0x101]).drawAt 0 &&& (0x101 : Word) = (if true then 0x101 else 0) ∧
      1 < (2 : Word).toNat ∧ (∀ j, j < 1 → (drawing [1, 0]).drawAt j &&& (0x1 : Word) ≠ (if false then 0x1 else 0)) ∧
      (drawing [1, 0]).drawAt 1 &&& (0x1 : Word) = (if false then 0x1 else 0) ∧
      (∀ j, j < (2 : Word).toNat → (drawing [1, 0x100]).drawAt j &&& (0x101 : Word) ≠ (if true then 0x101 else 0)) ∧
      ∀ j, j < (2 : Word).toNat → (drawing [1, 0x100]).drawAt j &&& (0x101 : Word) ≠ (if false then 0x101 else 0) := by
  decide +kernel

theorem witness_MembusWriteIsMailboxThenPoll :
    State.reset.params.accepted = true ∧ State.reset.params.laidOut = true := by decide +kernel

/-- Done at the first of 1000 polls, and at the last of 2; data that fit and data that do not (V-MB-5a). -/
theorem witness_MembusWriteStores :
    State.reset.params.accepted = true ∧ (State.reset.chan .M).pending = none ∧ 0 < State.reset.params.membusBudget ∧
      (drawing [0]).drawAt 0 &&& State.reset.params.mbxReq = 0 ∧
      budget2.accepted = true ∧ 1 < budget2.membusBudget ∧
      (∀ j, j < 1 → (withParams budget2 [0x01000000, 0]).drawAt j &&& budget2.mbxReq ≠ 0) ∧
      (withParams budget2 [0x01000000, 0]).drawAt 1 &&& budget2.mbxReq = 0 ∧
      (0xFF : Word) &&& ~~~ State.reset.params.calMask = 0 ∧ (0x1FF : Word) &&& ~~~ State.reset.params.calMask ≠ 0 := by
  decide +kernel

theorem witness_MembusTimeoutLeavesRequestPending :
    (withParams budget2 [0x01000000, 0xFFFFFFFF]).params.accepted = true ∧
      ((withParams budget2 [0x01000000, 0xFFFFFFFF]).chan .P).pending = none ∧
      ∀ j, j < budget2.membusBudget → (withParams budget2 [0x01000000, 0xFFFFFFFF]).drawAt j &&& budget2.mbxReq ≠ 0 := by
  decide +kernel

theorem witness_MembusCommandsTouchOneBank : Bank.P ≠ Bank.M := by decide

theorem witness_ApplyCaltableAppliesTheTable :
    (drawing (List.replicate 10 0)).params.accepted = true ∧
      ((drawing (List.replicate 10 0)).chan .M).pending = none ∧
      0 < (drawing (List.replicate 10 0)).params.membusBudget ∧
      ∀ j, j < 2 * (drawing (List.replicate 10 0)).params.calTable.length →
        (drawing (List.replicate 10 0)).drawAt j &&& Config.paramsT.mbxReq = 0 := by decide +kernel

/-- A first read met by no done, an empty table, and a request pending before. -/
theorem witness_ApplyCaltableStopsAtATimeout :
    ({ Config.paramsT with calTable := [] } : Params).accepted = true ∧
      (withParams budget2 [0x01000000, 0x01000000]).params.calTable = ⟨0x27, 0x80, 0x80⟩ :: Config.tCalTable.tail ∧
      (∀ j, j < budget2.membusBudget →
        (withParams budget2 [0x01000000, 0x01000000]).drawAt j &&& budget2.mbxReq ≠ 0) ∧
      (∃ t, exec (.applyCaltable .M) (withParams budget2 [0x01000000, 0x01000000]) = .next t ∧
        t.result = some (.err .timeout)) ∧
      ((pendingM ⟨true, 0x4027, 0x80⟩ []).chan .M).pending = some ⟨true, 0x4027, 0x80⟩ :=
  ⟨by decide +kernel, rfl, by decide +kernel, exists_next (by decide +kernel), rfl⟩

/-- V-MB-7 with a budget of 2: entry 3's read times out, entries 0 to 2 applied. -/
theorem witness_ApplyCaltableStopsAtATimeout_read :
    ∃ t, exec (.applyCaltable .M)
        { withParams budget2 (List.replicate 6 0 ++ [0x01000000, 0x01000000]) with
          busM := { Membus.reset with cal := memVMB6 } } = .next t ∧
      t.result = some (.err .timeout) ∧ t.busM.pending = some ⟨false, 0x4003, 0⟩ ∧
      t.busM.cal = [(0x4003, 0x35), (0x4007, 0xB5), (0x4027, 0x92), (0x40B3, 0x01), (0x40E6, 0xFF)] ∧
      t.bus.length = 18 ∧ t.bus[2]? = some (.write 0x128 0x01004003) := exists_next (by decide +kernel)

/-- The same memory, entry 1's write timed out. -/
theorem witness_ApplyCaltableStopsAtATimeout_write :
    ∃ t, exec (.applyCaltable .M)
        { withParams budget2 (List.replicate 3 0 ++ [0x01000000, 0x01000000]) with
          busM := { Membus.reset with cal := memVMB6 } } = .next t ∧
      t.result = some (.err .timeout) ∧ t.busM.pending = some ⟨true, 0x40B3, 0x01⟩ ∧
      t.busM.cal = [(0x4003, 0x35), (0x4007, 0xB5), (0x4027, 0x92), (0x40E6, 0xFF)] := exists_next (by decide +kernel)

theorem witness_TableIsIdempotent :
    let s : State := { drawing (List.replicate 20 0) with busM := { Membus.reset with cal := memVMB6 } }
    s.params.accepted = true ∧ tableFits s.params = true ∧ Membus.ok s.params (s.chan .M) = true ∧
      (s.chan .M).pending = none ∧
      ∃ t, exec (.applyCaltable .M) s = .next t ∧ t.result = some .unit ∧
        ∃ u, exec (.applyCaltable .M) t = .next u ∧ u.result = some .unit := by
  refine ⟨by decide +kernel, by decide +kernel, by decide +kernel, rfl, ?_⟩
  obtain ⟨t, h, k⟩ := exists_next (i := .applyCaltable .M)
    (s := { drawing (List.replicate 20 0) with busM := { Membus.reset with cal := memVMB6 } })
    (P := fun t => t.result = some .unit ∧
      (ran (.applyCaltable .M) t).any (fun u => decide (u.result = some .unit)) = true) (by decide +kernel)
  exact ⟨t, h, k.1, exists_next k.2⟩

theorem witness_VcocalibComputes :
    let f := Config.paramsT.fields
    f.mdiv.get 0 * BitVec.ofNat 32 (2 ^ (f.drefclkdiv.get 0x00100000).toNat) = 0 ∧ f.refclkdiv.get 0x100 = 0 ∧
      f.mdiv.get 0x200 * BitVec.ofNat 32 (2 ^ (f.drefclkdiv.get 0x00103000).toNat) ≠ 0 ∧
      f.refclkdiv.get 0x00103000 ≠ 0 := by decide +kernel

theorem witness_VcocalibIgnoresAref :
    State.reset.params.laidOut = true ∧
      (∃ t, exec (.vcocalib 0x50 0x00100100) State.reset = .next t ∧ t.result = some (.word 0x0001004C)) ∧
      Config.paramsT.fields.arefclkdiv.put 0x00100100 15 = 0x00100F00 :=
  ⟨by decide +kernel, exists_next (by decide +kernel), by decide +kernel⟩

theorem witness_BringupCompletesWhateverTheWaits :
    State.reset.params.laidOut = true ∧
      ∀ b ∈ [Bank.M, .P], vcoWord State.reset.params (State.reset.cfg.bank b).pllm (State.reset.cfg.bank b).pllglob ≠ none := by
  decide +kernel

theorem witness_LaterStageSkipsOutsideBootMode :
    State.reset.params.fields.ctrlBootmode.get State.reset.regs.ctrl = 0 ∧
      (with1 .ctrl 0x101 tapeOk.tail).params.fields.ctrlBootmode.get (with1 .ctrl 0x101 tapeOk.tail).regs.ctrl ≠ 0 ∧
      ∃ t, exec (.bringup .real .later) (with1 .ctrl 0x101 tapeOk.tail) = .next t ∧ t.seq = .done ∧ t.bus.length = 129 :=
  ⟨by decide +kernel, by decide +kernel, exists_next (by decide +kernel)⟩

theorem witness_RealPathEndState :
    vcoWord Config.paramsT Config.cfgT.main.pllm Config.cfgT.main.pllglob = some 0x0001004C ∧
      vcoWord Config.paramsT Config.cfgT.peri.pllm Config.cfgT.peri.pllglob = some 0x0001003C ∧
      (Stage.later = .later → Config.paramsT.fields.ctrlBootmode.get (with1 .ctrl 0x101).regs.ctrl ≠ 0) := by
  decide +kernel

theorem witness_EmulationTransactions :
    let s := drawing [0x100, 0, 0, 0, 0]
    s.params.laidOut = true ∧ s.drawAt 0 &&& s.params.fields.statLocked.mask = s.params.fields.statLocked.mask ∧
      ∀ j, j < 5 → 1 ≤ j → s.drawAt j &&& s.params.fields.statBusy.mask = 0 := by decide +kernel

/-- Two states that differ in all the statement leaves free. -/
theorem witness_BringupIsDeterministic :
    let s := drawing [1, 2, 3]
    let s' := pendingM ⟨true, 0x4027, 1⟩ []
    s'.params = s.params ∧ s'.cfg = s.cfg ∧ s'.regs = s.regs ∧ s'.fault = s.fault ∧ s'.tape ≠ s.tape ∧ s'.busM ≠ s.busM := by
  decide +kernel

theorem witness_StagedBeforeReset :
    State.reset.params.laidOut = true ∧
      vcoWord State.reset.params (State.reset.cfg.bank .P).pllm (State.reset.cfg.bank .P).pllglob = some 0x0001003C ∧
      ∃ t, runStates [.s2, .s3, .s4, .s5] (drawing [0, 0]) = .ok () t :=
  ⟨by decide +kernel, by decide +kernel, exists_ok (by decide +kernel)⟩

theorem witness_BanksRunAtTheEnd :
    (drawing tapeOk).params.laidOut = true ∧ (drawing tapeOk).fault = none ∧
      ∃ t, exec (.bringup .real .first) (drawing tapeOk) = .next t ∧ t.fault = none ∧ t.seq = .done :=
  ⟨by decide +kernel, rfl, exists_next (by decide +kernel)⟩

/-- V-BU-8, the same for the peripheral bank, and a later stage in boot mode. -/
theorem witness_UndefinedCalibrationStopsStepFour :
    let bad : BankCfg := { Config.cfgT.main with pllm := 0 }
    let sM : State := { drawing [0, 0, 0] with cfg := { Config.cfgT with main := bad } }
    let sP : State := { drawing [0, 0, 0] with cfg := { Config.cfgT with peri := bad } }
    let late : State := { with1 .ctrl 0x101 [0, 0] with cfg := { Config.cfgT with peri := bad } }
    sM.params.laidOut = true ∧ sM.fault = none ∧
      Config.paramsT.fields.ctrlBootmode.get late.regs.ctrl ≠ 0 ∧
      vcoWord sM.params sM.cfg.main.pllm sM.cfg.main.pllglob = none ∧
      (∃ t, exec (.bringup .real .first) sM = .next t ∧ t.fault = some ⟨.divideByZero, 0x30, .s4, 0⟩ ∧
        t.bus.length = 11 ∧ t.regs.main.bypass = 7 ∧ t.regs.nocdiv = 0) ∧
      vcoWord sP.params sP.cfg.main.pllm sP.cfg.main.pllglob = some 0x0001004C ∧
      vcoWord sP.params sP.cfg.peri.pllm sP.cfg.peri.pllglob = none ∧
      (∃ t, exec (.bringup .real .first) sP = .next t ∧ t.fault = some ⟨.divideByZero, 0x30, .s4, 10⟩ ∧
        t.bus.length = 21 ∧ t.regs.main.pllm = 0x50 ∧ t.regs.peri.fdbck = 0 ∧ t.regs.gates = StoreFile.zero.gates) ∧
      ∃ t, exec (.bringup .real .later) late = .next t ∧ t.fault = some ⟨.divideByZero, 0x230, .s4, 10⟩ ∧
        t.bus.length = 19 ∧ t.regs.ctrl = 0x101 :=
  ⟨by decide +kernel, rfl, by decide +kernel, by decide +kernel, exists_next (by decide +kernel), by decide +kernel,
    by decide +kernel, exists_next (by decide +kernel), exists_next (by decide +kernel)⟩

/-- R47's condition on `S9`: the lock wait met, and timed out. -/
theorem test_phase_after_lock_wait :
    SeqState.s9.phaseAtEnd [] = .lockedBypassed ∧
      SeqState.s10.phaseAtEnd [⟨.s2, 0, .busyWait⟩, ⟨.s9, 0, .lockWait⟩] = .configuredReset := by decide

/-- In configuration T bus addresses are the offsets, so they are distinct. -/
theorem witness_bus_distinct : (drawing [0x100, 0, 0, 0, 0]).busDistinct := by
  intro r r' h
  refine BitVec.eq_of_toNat_eq ?_
  have e : ∀ x : Word, (0 + x.toNat) % 2 ^ 32 = x.toNat := fun x => by rw [Nat.zero_add, Nat.mod_eq_of_lt x.isLt]
  have k : (0 + (Config.paramsT.offset r).toNat) % 2 ^ 32 = (0 + (Config.paramsT.offset r').toNat) % 2 ^ 32 := h
  rwa [e, e] at k

theorem witness_BypassAndControlWritesAreWaitedFor :
    ∃ t, exec (.bringup .emulation .later) (drawing [0x100, 0, 0, 0, 0]) = .next t ∧
      (t.bus = t.bus ++ (drawing [0x100, 0, 0, 0, 0]).bus ∧
        t.bus.reverse[5]? = some (.write ((drawing []).addrOf (.store (.bank .M .bypass))) 7)) :=
  exists_next (by decide +kernel)

theorem witness_SequencerWaitsAreWaitBits :
    (∃ t, exec (.waitBit false 4 1 2) (drawing [1, 0]) = .next t ∧ t.result = some .unit) ∧
      ∃ t, exec (.waitBit true 4 0x100 2) (drawing [1, 0]) = .next t ∧ t.result = some (.err .timeout) :=
  ⟨exists_next (by decide +kernel), exists_next (by decide +kernel)⟩

/-- An unrecognised source, a zero A-ref divider, and a rate, for each of the three sources. -/
theorem witness_VcoHzComputes :
    let f := Config.paramsT.fields
    let c := Config.paramsT.psrc
    f.psrc.get 0x00030000 ≠ c.eosc ∧ f.psrc.get 0x00030000 ≠ c.intosc ∧ f.psrc.get 0x00030000 ≠ c.fpga ∧
      f.psrc.get 0x100 = c.eosc ∧ (f.arefclkdiv.get 0x100).toNat ≠ 0 ∧ (f.arefclkdiv.get 0).toNat = 0 ∧
      f.psrc.get 0x10100 = c.intosc ∧ f.psrc.get 0x10100 ≠ c.eosc ∧ f.psrc.get 0x20100 = c.fpga ∧
      f.psrc.get 0x20100 ≠ c.eosc ∧ f.psrc.get 0x20100 ≠ c.intosc := by decide +kernel

theorem witness_ClksrcHzComputes :
    State.reset.params.laidOut = true ∧
      ∀ c : CntReg, State.reset.params.offset (.store c.reg) ≠ State.reset.params.offset .intr := by
  refine ⟨by decide +kernel, fun c h => ?_⟩
  have := Params.offset_distinct (p := Config.paramsT) (by decide +kernel) h
  rcases c with g | ⟨b, k⟩ <;> simp [mayShare, CntReg.reg] at this

theorem witness_GetRateRefinesTheDerivations :
    12 < (13 : Word).toNat ∧ [Clock.mpu, .l4main, .l4mp, .l4sp, .l4sysfree, .sdmmc, .emac .e0, .emac .e1, .emac .e2,
      .emacptp, .usb, .nand, .nandx][(12 : Word).toNat]? = some .nandx ∧
      rateRef Config.paramsT rateRegs 0 .nandx = some 200000000 := by decide +kernel

theorem witness_RateDivisorsAreSafe :
    State.reset.params.accepted = true ∧ State.reset.fault = none ∧
      ∃ t, exec (.getRate 0 1) State.reset = .next t ∧ t.fault ≠ none :=
  ⟨by decide +kernel, rfl, exists_next (by decide +kernel)⟩

/-- A state for each selector code of NOCCLK, and for code 5, which is none of the five. -/
theorem witness_EverySelectorCodeHasItsCase :
    State.reset.params.accepted = true ∧ State.reset.params.laidOut = true ∧
      (∀ code, code < 6 → Config.paramsT.fields.nocclkSrc.get (rating [(.nocclk, BitVec.ofNat 32 (code * 0x10000))]).regs.nocclk =
        BitVec.ofNat 32 code) ∧
      Config.paramsT.sel = ⟨0, 1, 2, 3, 4⟩ ∧
      (∃ t, exec (.vcoHz .M) (rating []) = .next t ∧ t.result = some (.hz 2000000000)) ∧
      ∃ t, exec (.vcoHz .M) (rating [(.bank .M .pllglob, 0)]) = .next t ∧ t.result = none :=
  ⟨by decide +kernel, by decide +kernel, by decide +kernel, by decide +kernel, exists_next (by decide +kernel),
    exists_next (by decide +kernel)⟩

theorem witness_ResetLeavesAnIdleCore :
    (State.reset = State.reset ∨ ∃ p c, State.reset = State.resetWith p c) ∧
      decode [0x00000043, 0x0000000A] = .ok (.enable 0xA, []) := ⟨.inl rfl, by decide⟩

theorem witness_ConstructionChecksItsInputs :
    Config.paramsT.accepted = true ∧
      (∀ k : Nat, k < 32 → ({ Config.paramsT with mbxReq := 0x03000000 } : Params).mbxReq ≠ 1#32 <<< k) ∧
      ({ Config.paramsT with mbxWr := 0x01000000 } : Params).mbxReq = ({ Config.paramsT with mbxWr := 0x01000000 } : Params).mbxWr ∧
      ({ Config.paramsT with mbxWdatShift := 8 } : Params).dataField &&& Config.paramsT.mbxAddrMask ≠ 0 := by
  decide +kernel

/-- A read issued while a write is pending, which a draw performs (R53). -/
theorem witness_StepKeepsInv :
    let s : State := { pendingM ⟨true, 0x4027, 0x80⟩ [1, 0] with cmds := [0x11, 0x27] }
    s.Inv ∧ ∃ t, step s = .next t ∧ t.result = some (.word 0x80) :=
  ⟨by decide +kernel, exists_step (by decide +kernel)⟩

/-- Accepted parameters other than configuration T's. -/
theorem witness_ResetHasInv :
    budget2.accepted = true ∧ budget2 ≠ Config.paramsT ∧ Config.cfgT.main.pllm ≠ 0 := by decide +kernel

theorem witness_OnlyWritesChangeStorage :
    ∃ t, exec (.setBits 0x100 3) State.reset = .next t ∧
      t.regs.get (.bank .M .pllglob) ≠ State.reset.regs.get (.bank .M .pllglob) := exists_next (by decide +kernel)

/-- The state of V-BU-7 with a budget of 2: the main bank's first request is never done. -/
def stuckMain : State :=
  withParams budget2 (List.replicate 3 0x100 ++ List.replicate 2 0x01000000 ++ List.replicate 10 0 ++ List.replicate 4 0x100)

/-- V-BU-7: the main bank's table noted, the peripheral bank's applied in full, the sequence done. -/
theorem witness_BringupTouchesMembusOnlyInStepSeven :
    stuckMain.params.laidOut = true ∧
      (∀ b, vcoWord stuckMain.params (stuckMain.cfg.bank b).pllm (stuckMain.cfg.bank b).pllglob ≠ none) ∧
      (Config.paramsT.fields.ctrlBootmode.get (with1 .ctrl 0x101).regs.ctrl ≠ 0) ∧
      ∃ t, exec (.bringup .real .first) stuckMain = .next t ∧ t.seq = .done ∧
        t.diag = [⟨.s7, 0, .applyCaltable .M⟩] ∧ t.busM.pending = some ⟨false, 0x4027, 0⟩ ∧ t.busM.cal = [] ∧
        t.busP.pending = none ∧ t.busP.cal.length = 5 :=
  ⟨by decide +kernel, by rintro (_ | _) <;> decide +kernel, by decide +kernel, exists_next (by decide +kernel)⟩

/-- Step 7 alone, both tables timed out. -/
theorem witness_StepSevenAppliesBothTables :
    (match runStates [.s7] (withParams budget2 (List.replicate 4 0x01000000)) with
      | .ok _ t => t.diag
      | .fault _ _ => []) = [⟨.s7, 0, .applyCaltable .M⟩, ⟨.s7, 1, .applyCaltable .P⟩] := by decide +kernel

/-- Both forms of `P_LATCH_CLR`; the latches cleared by CLRBITS are read first, each by a draw (R175). -/
theorem witness_BringupTraffic :
    let clr : State := withParams { Config.paramsT with latchClr := .clrbits }
      (List.replicate 3 0x100 ++ List.replicate 20 0 ++ [0x100, 0xF, 0xF, 0x100, 0x100, 0x3, 0x100])
    State.reset.params.laidOut = true ∧ clr.params.laidOut = true ∧
      vcoWord Config.paramsT Config.cfgT.main.pllm Config.cfgT.main.pllglob = some 0x0001004C ∧
      vcoWord Config.paramsT Config.cfgT.peri.pllm Config.cfgT.peri.pllglob = some 0x0001003C ∧
      Config.paramsT.fields.ctrlBootmode.get (with1 .ctrl 0x101).regs.ctrl ≠ 0 ∧
      (∃ t, exec (.bringup .real .first) clr = .next t ∧ t.bus.length = 134 ∧ t.diag = [] ∧ t.tape = []) ∧
      ∃ t, exec (.bringup .emulation .later) (drawing [0x100, 0, 0, 0, 0]) = .next t ∧ t.bus.length = 13 :=
  ⟨by decide +kernel, by decide +kernel, by decide +kernel, by decide +kernel, by decide +kernel,
    exists_next (by decide +kernel), exists_next (by decide +kernel)⟩

end Sys2Proof.Tests
end

section
/-!
Register access at an offset that names no register (R75).
-/

namespace Sys2Proof.Machine

open Sys2Proof

/-- R75: `P_OFF` of every register is a multiple of 4 in a layout the spec describes. -/
theorem offset_mod_four_of_laidOut {p : Params} (h : p.laidOut = true) (r : Reg) : (p.offset r).toNat % 4 = 0 := by
  obtain ⟨haligned, -⟩ := Params.laidOut_parts h
  simpa [aligned] using Params.offset_aligned haligned r

/-- A command that first looks up the register of an invalid offset records the fault and does nothing else, whatever it
would have done at a register. -/
theorem finish_withReg_of_invalid {s : State} {off : Word}
    (h : off.toNat % 4 ≠ 0 ∨ ∀ r, s.params.offset r ≠ off) (i : Instr) (f : Reg → Res Result) :
    finish i (s.withReg off f) = .next (s.faulted .invalidOffset i) := by
  rw [withReg_none (Params.regAt_invalid h)]
  rfl

/-- Settles O15: each register-access command is a lookup of its offset's register before anything else. -/
theorem invalidOffsetFaults : Obligations.InvalidOffsetFaults := by
  intro s
  refine ⟨offset_mod_four_of_laidOut, fun off hoff i v k w hi => ?_⟩
  rcases hi with rfl | rfl | rfl | rfl | rfl
  · exact finish_withReg_of_invalid hoff (.read32 off) _
  · exact finish_withReg_of_invalid hoff (.write32 off v) _
  · exact finish_withReg_of_invalid hoff (.setBits off v) _
  · exact finish_withReg_of_invalid hoff (.clrBits off v) _
  · exact finish_withReg_of_invalid hoff (.waitBit w off v k) _

end Sys2Proof.Machine
end

section
/-!
The membus commands as register-access commands: their mailbox words and their poll (R95, R96, R140 to R142).
-/

namespace Sys2Proof.Machine

open Sys2Proof

/-- An accepted membus budget is one a WAITBIT can carry (I14, R124). -/
theorem membusBudget_toNat {p : Params} (h : p.accepted = true) :
    (BitVec.ofNat 32 p.membusBudget : Word).toNat = p.membusBudget := by
  obtain ⟨-, -, -, -, hbudget, -⟩ := (Params.accepted_iff p).mp h
  have hlt : p.membusBudget < 20000 := by simpa [Params.budgetOk] using hbudget
  rw [BitVec.toNat_ofNat]
  exact Nat.mod_eq_of_lt (by omega)

/-- MEMBUS_WRITE answers what its poll does (R140). -/
theorem exec_membusWrite (b : Bank) (a d : Word) (s : State) :
    exec (.membusWrite b a d) s =
      .next ((s.membusWrite b a d).2.returns (okOrTimeout (s.membusWrite b a d).1)) := rfl

section
variable {s : State} (haccepted : s.params.accepted = true) (hlaid : s.params.laidOut = true)
include hlaid

/-- A WRITE32 of a bank's mailbox (R22, R121). -/
theorem exec_write32_mem (b : Bank) (v : Word) :
    exec (.write32 (s.params.offset (.mem b)) v) s = .next ((s.writeReg (.mem b) v).returns .unit) := by
  obtain ⟨haligned, hdistinct, -⟩ := Params.laidOut_parts hlaid
  exact exec_write32 (Params.regAt_mem haligned hdistinct b)

/-- A READ32 of a bank's memstat (R22, R120). -/
theorem exec_read32_memstat (b : Bank) :
    exec (.read32 (s.params.offset (.memstat b))) s =
      .next ((s.readReg (.memstat b)).2.returns (.word (s.readReg (.memstat b)).1)) := by
  obtain ⟨haligned, hdistinct, -⟩ := Params.laidOut_parts hlaid
  exact exec_read32 (Params.regAt_other haligned hdistinct (by simp) (by simp))

include haccepted

/-- The membus poll is the WAITBIT that waits for REQ clear in the status mirror within the membus budget, also where
the mirror is the mailbox itself (R22, R141). -/
theorem exec_waitBit_mempoll (b : Bank) :
    exec (.waitBit false (s.params.offset (.mempoll b)) s.params.mbxReq (BitVec.ofNat 32 s.params.membusBudget)) s =
      .next ((s.membusPoll b).2.returns (okOrTimeout (s.membusPoll b).1)) := by
  obtain ⟨haligned, hdistinct, -⟩ := Params.laidOut_parts hlaid
  rw [exec_waitBit (Params.regAt_mempoll haligned hdistinct b), membusBudget_toNat haccepted,
    poll_shared rfl _ _ _ rfl]
  rfl

end

theorem returns_membusPoll (s : State) (x : Result) (b : Bank) :
    (s.returns x).membusPoll b = ((s.membusPoll b).1, (s.membusPoll b).2.returns x) :=
  returns_poll ..

/-- The poll of a membus command, once a WRITE32 has written the mailbox: the result WRITE32 left is replaced. -/
theorem exec_waitBit_after_mailbox {s : State} (haccepted : s.params.accepted = true)
    (hlaid : s.params.laidOut = true) (b : Bank) (v : Word) :
    exec (.waitBit false (s.params.offset (.mempoll b)) s.params.mbxReq (BitVec.ofNat 32 s.params.membusBudget))
        ((s.writeReg (.mem b) v).returns .unit) =
      .next (((s.writeReg (.mem b) v).membusPoll b).2.returns
        (okOrTimeout ((s.writeReg (.mem b) v).membusPoll b).1)) := by
  have hparams : ((s.writeReg (.mem b) v).returns .unit).params = s.params := by simp
  have hwait := exec_waitBit_mempoll (s := (s.writeReg (.mem b) v).returns .unit) (by rwa [hparams])
    (by rwa [hparams]) b
  rwa [hparams, returns_membusPoll, returns_returns] at hwait

/-- Settles O18: MEMBUS_WRITE is the write of `mbxW` and then the WAITBIT on the status mirror. -/
theorem membusWriteIsMailboxThenPoll : Obligations.MembusWriteIsMailboxThenPoll := by
  intro s b a d haccepted hlaid
  refine ⟨_, exec_write32_mem hlaid b (s.params.mbxW a d), ?_⟩
  rw [exec_waitBit_after_mailbox haccepted hlaid, exec_membusWrite]
  rfl

/-- MEMBUS_READ whose poll timed out: memstat is not read (R142). -/
theorem exec_membusRead_of_timeout {s t : State} {b : Bank} {a : Word}
    (h : (s.writeReg (.mem b) (s.params.mbxR a)).membusPoll b = (false, t)) :
    exec (.membusRead b a) s = .next (t.returns (.err .timeout)) := by
  show execMembusRead b a s = _
  simp [execMembusRead, membusRead_eq, h]

/-- MEMBUS_READ whose poll ended in time answers the memstat it then reads (R142). -/
theorem exec_membusRead_of_done {s t : State} {b : Bank} {a : Word}
    (h : (s.writeReg (.mem b) (s.params.mbxR a)).membusPoll b = (true, t)) :
    exec (.membusRead b a) s =
      .next ((t.readReg (.memstat b)).2.returns (.word (t.readReg (.memstat b)).1)) := by
  show execMembusRead b a s = _
  simp [execMembusRead, membusRead_eq, h]

/-- Settles O19: by how the poll ends, with the READ32 of memstat only after a poll in time. -/
theorem membusReadIsMailboxPollMemstat : Obligations.MembusReadIsMailboxPollMemstat := by
  intro s b a haccepted hlaid
  refine ⟨_, _, exec_write32_mem hlaid b (s.params.mbxR a), exec_waitBit_after_mailbox haccepted hlaid b _, ?_⟩
  have hkeeps := (writeMem_onlyBank s b (s.params.mbxR a)).trans (membusPoll_onlyBank _ b)
  rcases hpoll : (s.writeReg (.mem b) (s.params.mbxR a)).membusPoll b with ⟨_ | _, t⟩ <;> rw [hpoll] at hkeeps
  · exact ⟨fun _ => exec_membusRead_of_timeout hpoll, nofun, .inl rfl⟩
  · refine ⟨nofun, fun _ => ?_, .inr rfl⟩
    have hparams : (t.returns .unit).params = s.params := hkeeps.params
    have hmemstat := exec_read32_memstat (s := t.returns .unit) (by rwa [hparams]) b
    rw [hparams, returns_readReg, returns_returns] at hmemstat
    exact (exec_membusRead_of_done hpoll).trans hmemstat.symm

end Sys2Proof.Machine
end

section
/-!
Construction's checks of its inputs (R98, R262).
-/

namespace Sys2Proof.Machine

open Sys2Proof

/-- R98: a mailbox layout whose REQ or WR is not a single bit of its own, or whose parts overlap, is not accepted. -/
theorem not_accepted_of_mailbox_overlap {p : Params}
    (h : (∀ k : Nat, k < 32 → p.mbxReq ≠ 1#32 <<< k) ∨ (∀ k : Nat, k < 32 → p.mbxWr ≠ 1#32 <<< k) ∨
      p.mbxReq = p.mbxWr ∨ p.mbxReq &&& p.mbxAddrMask ≠ 0 ∨ p.mbxWr &&& p.mbxAddrMask ≠ 0 ∨
      p.mbxReq &&& p.dataField ≠ 0 ∨ p.mbxWr &&& p.dataField ≠ 0 ∨ p.dataField &&& p.mbxAddrMask ≠ 0) :
    ¬ p.accepted = true := by
  intro haccepted
  have hlayout := accepted_layout haccepted
  obtain ⟨hbits, -⟩ := (Params.accepted_iff p).mp haccepted
  simp only [Params.mbxBitsOk, Bool.and_eq_true, bne_iff_ne] at hbits
  obtain ⟨⟨hreq, hwr⟩, hne⟩ := hbits
  obtain ⟨i, hi, hreqBit⟩ := singleBit_exists hreq
  obtain ⟨j, hj, hwrBit⟩ := singleBit_exists hwr
  rcases h with h | h | h | h | h | h | h | h
  · exact h i hi hreqBit
  · exact h j hj hwrBit
  · exact hne h
  · exact h hlayout.req_addr
  · exact h hlayout.wr_addr
  · exact h hlayout.req_data
  · exact h hlayout.wr_data
  · exact h hlayout.data_addr

/-- Construction with a base address (R262, R283). -/
theorem construct_some (a : Nat) (p : Params) (c : BringUpConfig) :
    construct (some a) p c =
      if p.accepted then .core (State.resetWith { p with base := a } c) else .refused .configuration := rfl

/-- Settles O50: the base is looked at before the parameters, and an accepted mailbox layout has no overlap. -/
theorem constructionChecksItsInputs : Obligations.ConstructionChecksItsInputs := by
  intro p c a
  refine ⟨rfl, fun h => ?_, fun h => ?_⟩
  · rw [construct_some, if_neg (not_accepted_of_mailbox_overlap h)]
  · rw [construct_some, if_pos h]

end Sys2Proof.Machine
end

section
/-!
The legality of a command word, field by field (R91, R93, R94).
-/

namespace Sys2Proof.Machine

open Sys2Proof

/-- The value of `OP` that stands for an opcode (R93). -/
def opByte : Opcode → Word
  | .read32 => 0x01
  | .write32 => 0x02
  | .setBits => 0x03
  | .clrBits => 0x04
  | .waitBit => 0x05
  | .membusWrite => 0x10
  | .membusRead => 0x11
  | .applyCaltable => 0x12
  | .vcocalib => 0x20
  | .bringup => 0x30
  | .vcoHz => 0x40
  | .clksrcHz => 0x41
  | .getRate => 0x42
  | .enable => 0x43

/-! ### Fields of a command word -/

/-- Field `OP` is the low byte of the word (R91). -/
theorem and_opMask (w : Word) : w &&& 0xFF = (cmdOp w).setWidth 32 := by
  ext i hi
  simp only [cmdOp, BitVec.getElem_and, BitVec.getElem_setWidth, BitVec.getLsbD_extractLsb']
  interval_cases i <;> simp

/-- Field `RSV` is the top 20 bits of the word (R91). -/
theorem and_rsvMask (w : Word) : w &&& 0xFFFFF000 = cmdRsv w ++ (0 : BitVec 12) := by
  ext i hi
  simp only [cmdRsv, BitVec.getElem_append]
  interval_cases i <;> simp

theorem cmdRsv_eq_zero_iff (w : Word) : cmdRsv w = 0 ↔ w &&& 0xFFFFF000 = 0 := by
  rw [and_rsvMask]
  exact (BitVec.append_left_inj (s₁ := cmdRsv w) (s₂ := 0) (0 : BitVec 12)).symm

/-! ### The opcode map -/

theorem opcodeOf_opByte (op : Opcode) : opcodeOf ((opByte op).setWidth 8) = some op := by
  cases op <;> rfl

theorem opByte_of_opcodeOf : ∀ b : Byte, ∀ op ∈ opcodeOf b, opByte op = b.setWidth 32 := by decide

/-- A command word holds an opcode where its low byte is that opcode's (R91, R93). -/
theorem opcodeOf_eq_some_iff {w : Word} {op : Opcode} : opcodeOf (cmdOp w) = some op ↔ opByte op = w &&& 0xFF := by
  rw [and_opMask]
  refine ⟨opByte_of_opcodeOf _ op, fun h => ?_⟩
  rw [← opcodeOf_opByte op, h]
  simp

theorem commandOps_eq : commandOps =
    [Opcode.read32, .write32, .setBits, .clrBits, .waitBit, .membusWrite, .membusRead, .applyCaltable, .vcocalib,
      .bringup, .vcoHz, .clksrcHz, .getRate, .enable].map opByte := rfl

/-- The listed values of `OP` are the opcodes' (R93). -/
theorem mem_commandOps_iff {v : Word} : v ∈ commandOps ↔ ∃ op, opByte op = v := by
  rw [commandOps_eq, List.mem_map]
  refine exists_congr fun op => and_iff_right ?_
  cases op <;> decide

/-! ### The fields an opcode does not use -/

/-- A field of mask `m` that an opcode either uses or does not: its unused bits are 0 exactly where a field that is not 0
is used. -/
theorem and_unused_eq_zero_iff {m used : Word} {P : Prop} (hused : P → m &&& ~~~used = 0)
    (hunused : ¬ P → m &&& ~~~used = m) (w : Word) : w &&& (m &&& ~~~used) = 0 ↔ (w &&& m ≠ 0 → P) := by
  by_cases hP : P
  · simp [hused hP, hP]
  · simp [hunused hP, hP]

theorem opcode_uses_B (op : Opcode) :
    (opByte op ∈ ([0x05, 0x10, 0x11, 0x12, 0x30, 0x40] : List Word) → 0x100 &&& ~~~op.usedBits = 0) ∧
      (opByte op ∉ ([0x05, 0x10, 0x11, 0x12, 0x30, 0x40] : List Word) → 0x100 &&& ~~~op.usedBits = 0x100) := by
  cases op <;> decide

theorem opcode_uses_S (op : Opcode) :
    (opByte op = 0x30 → 0x200 &&& ~~~op.usedBits = 0) ∧ (opByte op ≠ 0x30 → 0x200 &&& ~~~op.usedBits = 0x200) := by
  cases op <;> decide

theorem opcode_uses_CORE (op : Opcode) :
    (opByte op = 0x42 → 0xC00 &&& ~~~op.usedBits = 0) ∧ (opByte op ≠ 0x42 → 0xC00 &&& ~~~op.usedBits = 0xC00) := by
  cases op <;> decide

/-- The decoder's one test of the unused fields is a test of each of `B`, `S` and `CORE` (R91, R94). -/
theorem unusedFields_eq_zero_iff (op : Opcode) (w : Word) :
    (w &&& 0xF00) &&& ~~~op.usedBits = 0 ↔
      (w &&& 0x100 ≠ 0 → opByte op ∈ ([0x05, 0x10, 0x11, 0x12, 0x30, 0x40] : List Word)) ∧
      (w &&& 0x200 ≠ 0 → opByte op = 0x30) ∧ (w &&& 0xC00 ≠ 0 → opByte op = 0x42) := by
  have hsplit : (w &&& 0xF00) &&& ~~~op.usedBits =
      w &&& (0x100 &&& ~~~op.usedBits) ||| (w &&& (0x200 &&& ~~~op.usedBits) ||| w &&& (0xC00 &&& ~~~op.usedBits)) := by
    simp only [← BitVec.and_assoc, ← BitVec.and_or_distrib_right, ← BitVec.and_or_distrib_left]
    rfl
  obtain ⟨hB, hB'⟩ := opcode_uses_B op
  obtain ⟨hS, hS'⟩ := opcode_uses_S op
  obtain ⟨hC, hC'⟩ := opcode_uses_CORE op
  rw [hsplit]
  exact BitVec.or_eq_zero_iff.trans <| and_congr (and_unused_eq_zero_iff hB hB' w) <|
    BitVec.or_eq_zero_iff.trans <| and_congr (and_unused_eq_zero_iff hS hS' w) (and_unused_eq_zero_iff hC hC' w)

/-! ### The decoder's check -/

theorem checkWord_eq_ok_iff {w : Word} {op : Opcode} :
    checkWord w = .ok op ↔
      opcodeOf (cmdOp w) = some op ∧ cmdRsv w = 0 ∧ (w &&& 0xF00) &&& ~~~op.usedBits = 0 := by
  unfold checkWord
  cases opcodeOf (cmdOp w) with
  | none => simp
  | some o =>
    dsimp only
    split_ifs with hrsv hunused
    · exact ⟨nofun, fun ⟨_, hrsv0, _⟩ => absurd hrsv0 hrsv⟩
    · exact ⟨nofun, by rintro ⟨⟨⟩, -, hunused0⟩; exact absurd hunused0 hunused⟩
    · exact ⟨by rintro ⟨⟩; exact ⟨rfl, not_not.mp hrsv, not_not.mp hunused⟩, by rintro ⟨⟨⟩, -⟩; rfl⟩

theorem not_illegalWord_iff {w : Word} :
    ¬ illegalWord w ↔ w &&& 0xFF ∈ commandOps ∧ w &&& 0xFFFFF000 = 0 ∧
      (w &&& 0x100 ≠ 0 → w &&& 0xFF ∈ ([0x05, 0x10, 0x11, 0x12, 0x30, 0x40] : List Word)) ∧
      (w &&& 0x200 ≠ 0 → w &&& 0xFF = 0x30) ∧ (w &&& 0xC00 ≠ 0 → w &&& 0xFF = 0x42) := by
  simp only [illegalWord, not_or, not_and, not_not]

/-- The decoder's check finds an opcode exactly where the word is not illegal (R94). -/
theorem exists_checkWord_iff {w : Word} : (∃ op, checkWord w = .ok op) ↔ ¬ illegalWord w := by
  rw [not_illegalWord_iff]
  constructor
  · rintro ⟨op, hcheck⟩
    obtain ⟨hop, hrsv, hunused⟩ := checkWord_eq_ok_iff.mp hcheck
    have hbyte := opcodeOf_eq_some_iff.mp hop
    rw [unusedFields_eq_zero_iff, hbyte] at hunused
    exact ⟨mem_commandOps_iff.mpr ⟨op, hbyte⟩, (cmdRsv_eq_zero_iff w).mp hrsv, hunused⟩
  · rintro ⟨hmem, hrsv, hfields⟩
    obtain ⟨op, hbyte⟩ := mem_commandOps_iff.mp hmem
    rw [← hbyte, ← unusedFields_eq_zero_iff] at hfields
    exact ⟨op, checkWord_eq_ok_iff.mpr ⟨opcodeOf_eq_some_iff.mpr hbyte, (cmdRsv_eq_zero_iff w).mpr hrsv, hfields⟩⟩

/-- The check of a command word does not ask for its arguments (R94). -/
theorem checkWord_ne_incomplete (w : Word) : checkWord w ≠ .error .incomplete := by
  unfold checkWord
  split
  · simp
  · split_ifs <;> simp

theorem args1_error {k : Word → Instr} {ws : List Word} {e : DecodeError} (h : args1 k ws = .error e) :
    e = .incomplete := by
  unfold args1 at h; split at h <;> cases h; rfl

theorem args2_error {k : Word → Word → Instr} {ws : List Word} {e : DecodeError} (h : args2 k ws = .error e) :
    e = .incomplete := by
  unfold args2 at h; split at h <;> cases h; rfl

theorem args3_error {k : Word → Word → Word → Instr} {ws : List Word} {e : DecodeError}
    (h : args3 k ws = .error e) : e = .incomplete := by
  unfold args3 at h; split at h <;> cases h; rfl

/-- The arguments of a legal command word can only be missing (R92). -/
theorem decodeArgs_error {op : Opcode} {w : Word} {rest : List Word} {e : DecodeError}
    (h : decodeArgs op w rest = .error e) : e = .incomplete := by
  cases op with
  | read32 => exact args1_error h
  | write32 => exact args2_error h
  | setBits => exact args2_error h
  | clrBits => exact args2_error h
  | waitBit => exact args3_error h
  | membusWrite => exact args2_error h
  | membusRead => exact args1_error h
  | applyCaltable => cases h
  | vcocalib => exact args2_error h
  | bringup => cases h
  | vcoHz => cases h
  | clksrcHz => exact args3_error h
  | getRate => exact args1_error h
  | enable => exact args1_error h

/-! ### The step at a command word -/

theorem decode_of_checkWord_ok {w : Word} {op : Opcode} (h : checkWord w = .ok op) (rest : List Word) :
    decode (w :: rest) = decodeArgs op w rest := by
  simp only [decode, h]

theorem decode_of_checkWord_error {w : Word} {e : DecodeError} (h : checkWord w = .error e) (rest : List Word) :
    decode (w :: rest) = .error e := by
  simp only [decode, h]

section
variable {s : State} {w : Word} {rest : List Word} (hfault : s.fault = none) (hcmds : s.cmds = w :: rest)
include hfault hcmds

/-- The step at a queue that is not empty, by what the decoder answers (R78, R90). -/
theorem step_of_decode_ok {i : Instr} {rest' : List Word} (h : decode (w :: rest) = .ok (i, rest')) :
    step s = exec i { s with cmds := rest' } := by
  unfold step stepCore runQueued
  simp only [hfault, hcmds, h]

theorem step_of_decode_incomplete (h : decode (w :: rest) = .error .incomplete) : step s = .next s := by
  unfold step stepCore runQueued
  simp only [hfault, hcmds, h]

theorem step_of_decode_illegal {e : DecodeError} (h : decode (w :: rest) = .error e) (he : e ≠ .incomplete) :
    step s = .next (s.takeFault .illegalCommand w) := by
  unfold step stepCore runQueued
  cases e with
  | incomplete => exact absurd rfl he
  | reservedOpcode | reservedBits | unusedField => simp only [hfault, hcmds, h]

/-- R94: an illegal command word is a fault before its arguments are looked for. -/
theorem step_of_illegalWord (h : illegalWord w) : step s = .next (s.takeFault .illegalCommand w) := by
  cases hcheck : checkWord w with
  | ok op => exact absurd h (exists_checkWord_iff.mp ⟨op, hcheck⟩)
  | error e =>
    exact step_of_decode_illegal hfault hcmds (decode_of_checkWord_error hcheck rest)
      fun he => checkWord_ne_incomplete w (he ▸ hcheck)

/-- R94: at a word that is not illegal a step waits for arguments or runs a command. -/
theorem step_of_not_illegalWord (h : ¬ illegalWord w) :
    step s = .next s ∨ ∃ i rest', step s = exec i { s with cmds := rest' } := by
  obtain ⟨op, hcheck⟩ := exists_checkWord_iff.mpr h
  have hdecode := decode_of_checkWord_ok hcheck rest
  cases hargs : decodeArgs op w rest with
  | ok x => exact .inr ⟨x.1, x.2, step_of_decode_ok hfault hcmds (hdecode.trans hargs)⟩
  | error e =>
    obtain rfl := decodeArgs_error hargs
    exact .inl (step_of_decode_incomplete hfault hcmds (hdecode.trans hargs))

end

end Sys2Proof.Machine
end

section
/-!
No command's own meaning raises IllegalCommand (R94, R263).
-/

namespace Sys2Proof.Machine

open Sys2Proof

/-- A part of a command begun in `s` records no fault itself, and raises none for an illegal command word. -/
def NotIllegal {α : Type} (s : State) : Res α → Prop
  | .ok _ t => t.fault = s.fault
  | .fault k _ => k ≠ .illegalCommand

theorem NotIllegal.after {α : Type} {s t : State} {r : Res α} (hfault : t.fault = s.fault) (h : NotIllegal t r) :
    NotIllegal s r := by
  cases r with
  | ok a v => exact Eq.trans h hfault
  | fault k v => exact h

theorem NotIllegal.bind {α β : Type} {s : State} {r : Res α} {f : α → State → Res β} (h : NotIllegal s r)
    (hf : ∀ a t, NotIllegal t (f a t)) : NotIllegal s (r.bind f) := by
  cases r with
  | ok a t => exact (hf a t).after h
  | fault k t => exact h

/-- A command that ends so records no IllegalCommand. -/
theorem NotIllegal.finish {s t : State} {i : Instr} {r : Res Result} (hs : s.fault = none) (h : NotIllegal s r)
    (ht : finish i r = .next t) {q : FaultRecord} (hq : t.fault = some q) : q.kind ≠ .illegalCommand := by
  cases ht
  cases r with
  | ok x v =>
    have hv : v.fault = some q := hq
    rw [show v.fault = s.fault from h, hs] at hv
    cases hv
  | fault k v => cases hq; exact h

theorem withReg_notIllegal {α : Type} {s : State} {off : Word} {f : Reg → Res α} (h : ∀ r, NotIllegal s (f r)) :
    NotIllegal s (s.withReg off f) := by
  unfold State.withReg
  split
  · exact nofun
  · exact h _

/-! ### The sequencer -/

theorem guarded_notIllegal {s : State} {r : Reg} {f : State → State} (h : (f s).fault = s.fault) :
    NotIllegal s (s.guarded r f) := by
  unfold State.guarded
  split
  · exact h
  · exact nofun

theorem waitStat_notIllegal (s : State) (wantSet : Bool) (m : Word) (what : Wait) :
    NotIllegal s (s.waitStat wantSet m what) := by
  refine guarded_notIllegal ?_
  have hkeeps := poll_keeps .stat (senseMet wantSet m) waitBudget s
  rcases hpoll : State.poll .stat (senseMet wantSet m) waitBudget s with ⟨_ | _, t⟩ <;> rw [hpoll] at hkeeps
  · exact hkeeps.fault
  · exact hkeeps.fault

theorem clearLatch_notIllegal (s : State) (r : Reg) (m : Word) : NotIllegal s (s.clearLatch r m) := by
  unfold State.clearLatch
  split
  · exact (writeReg_keeps s r m).fault
  · exact guarded_notIllegal (clearMask_keeps s r m).fault

theorem writeBypass_notIllegal (s : State) (b : Bank) (v : Word) : NotIllegal s (s.writeBypass b v) :=
  (waitStat_notIllegal ..).after (writeReg_keeps s _ v).fault

/-- An operation of the sequencer faults for an offset or a division, never for a command word (R75, R180). -/
theorem runOp_notIllegal (s : State) (op : SeqOp) : NotIllegal s (s.runOp op) := by
  cases op with
  | write r v => exact (writeReg_keeps s (.store r) v).fault
  | setBits r m => exact guarded_notIllegal (f := fun s => s.setMask (.store r) m) (setMask_keeps ..).fault
  | clrBits r m => exact guarded_notIllegal (f := fun s => s.clearMask (.store r) m) (clearMask_keeps ..).fault
  | busyWait => exact waitStat_notIllegal ..
  | lockWait => exact waitStat_notIllegal ..
  | forceBypass b => exact writeBypass_notIllegal ..
  | clearBypass b => exact writeBypass_notIllegal ..
  | clearLostLock b => exact clearLatch_notIllegal ..
  | clearIntr => exact clearLatch_notIllegal ..
  | calTable b =>
    have hkeeps := applyCal_onlyBank s b
    simp only [State.runOp]
    rcases hcal : s.applyCal b with ⟨_ | _, t⟩ <;> rw [hcal] at hkeeps
    · exact hkeeps.fault
    · exact hkeeps.fault
  | editCtrl e => exact (writeReg_keeps _ (.store .ctrl) _).fault
  | divideByZero => exact nofun

theorem runOps_notIllegal (ops : List SeqOp) (u : Nat) (s : State) : NotIllegal s (runOps ops u s) := by
  induction ops generalizing u s with
  | nil => exact rfl
  | cons op ops ih => exact ((runOp_notIllegal (s.at s.seq u) op).after rfl).bind fun _ t => ih _ t

theorem runStates_notIllegal (qs : List SeqState) (s : State) : NotIllegal s (runStates qs s) := by
  induction qs generalizing s with
  | nil => exact rfl
  | cons q qs ih => exact ((runOps_notIllegal _ 0 (s.at q 0)).after rfl).bind fun _ t => ih t

theorem bringupDone_notIllegal {s : State} {r : Res Unit} (h : NotIllegal s r) : NotIllegal s (bringupDone r) :=
  h.bind fun _ _ => rfl

theorem bringup_notIllegal (s : State) (mode : Mode) (stage : Stage) : NotIllegal s (s.bringup mode stage) := by
  refine NotIllegal.after (t := { s with diag := [] }) rfl ?_
  unfold State.bringup
  split
  · exact bringupDone_notIllegal (runStates_notIllegal ..)
  · exact bringupDone_notIllegal (runStates_notIllegal ..)
  · dsimp only
    split
    · exact rfl
    · exact (bringupDone_notIllegal (runStates_notIllegal ..)).after rfl

/-! ### The queries -/

theorem returnHz_notIllegal {s : State} {r : Res Hz} {o : Option Nat} {l : List StoreReg} (h : Computes r s o l) :
    NotIllegal s (returnHz r) := by
  rw [h.2]
  cases o with
  | none => exact nofun
  | some n => exact rfl

/-! ### Every command -/

/-- Every command's meaning ends with a result or a fault other than IllegalCommand (R94, R263). -/
theorem exec_eq_finish (i : Instr) (s : State) : ∃ r, exec i s = finish i r ∧ NotIllegal s r := by
  cases i with
  | read32 off => exact ⟨_, rfl, withReg_notIllegal fun r => (readReg_keeps s r).fault⟩
  | write32 off value => exact ⟨_, rfl, withReg_notIllegal fun r => (writeReg_keeps s r value).fault⟩
  | setBits off mask => exact ⟨_, rfl, withReg_notIllegal fun r => (setMask_keeps s r mask).fault⟩
  | clrBits off mask => exact ⟨_, rfl, withReg_notIllegal fun r => (clearMask_keeps s r mask).fault⟩
  | waitBit wantSet off mask budget => exact ⟨_, rfl, withReg_notIllegal fun r => (poll_keeps r _ _ s).fault⟩
  | membusWrite b a d => exact ⟨_, rfl, (membusWrite_onlyBank s b a d).fault⟩
  | membusRead b a =>
    refine ⟨_, rfl, ?_⟩
    have hkeeps := membusRead_onlyBank s b a
    rcases hread : s.membusRead b a with ⟨_ | _, t⟩ <;> rw [hread] at hkeeps
    · exact hkeeps.fault
    · exact hkeeps.fault
  | applyCaltable b => exact ⟨_, rfl, (applyCal_onlyBank s b).fault⟩
  | vcocalib pllm pllglob =>
    refine ⟨_, rfl, ?_⟩
    split
    · exact nofun
    · exact rfl
  | bringup mode stage => exact ⟨_, rfl, bringup_notIllegal s mode stage⟩
  | vcoHz b => exact ⟨_, rfl, returnHz_notIllegal (vcoHz_computes s b)⟩
  | clksrcHz sel mctr pctr =>
    refine ⟨_, rfl, ?_⟩
    split
    · exact returnHz_notIllegal (clksrcHz_computes ..)
    · exact nofun
  | getRate core tag =>
    refine ⟨_, rfl, ?_⟩
    split
    · exact rfl
    · exact returnHz_notIllegal (rateHz_computes ..)
  | enable tag => exact ⟨_, rfl, rfl⟩

theorem exec_not_illegalCommand {i : Instr} {s t : State} (hs : s.fault = none) (ht : exec i s = .next t)
    {q : FaultRecord} (hq : t.fault = some q) : q.kind ≠ .illegalCommand := by
  obtain ⟨r, hexec, hr⟩ := exec_eq_finish i s
  exact hr.finish hs (hexec ▸ ht) hq

/-! ### Tags outside the catalog (R97, R225, R241) -/

theorem clockOfTag_eq_none {tag : Word} (h : 12 < tag.toNat) : clockOfTag tag = none :=
  List.getElem?_eq_none h

/-- GET_RATE of a tag outside R97 reads nothing (R225). -/
theorem exec_getRate_of_unsupported {tag : Word} (h : 12 < tag.toNat) (core : BitVec 2) (s : State) :
    exec (.getRate core tag) s = .next { s with result := some (.err .unsupportedClock) } := by
  show execGetRate core tag s = _
  unfold execGetRate
  rw [clockOfTag_eq_none h]
  rfl

/-- The words of GET_RATE decode to it for every tag (R91 to R93). -/
theorem decode_encode_getRate (core : BitVec 2) (tag : Word) :
    decode (encode (.getRate core tag)) = .ok (.getRate core tag, []) := by
  have hword : ∀ c : BitVec 2, checkWord (0x42 ||| (c.setWidth 32 <<< 10)) = .ok .getRate := by decide
  have hcore : ∀ c : BitVec 2, cmdCore (0x42 ||| (c.setWidth 32 <<< 10)) = c := by decide
  refine (decode_of_checkWord_ok (hword core) [tag]).trans ?_
  show Except.ok (Instr.getRate (cmdCore (0x42 ||| (core.setWidth 32 <<< 10))) tag, []) = _
  rw [hcore]

/-- The words of ENABLE decode to it for every tag (R91 to R93). -/
theorem decode_encode_enable (tag : Word) : decode (encode (.enable tag)) = .ok (.enable tag, []) :=
  decode_of_checkWord_ok (show checkWord 0x43 = .ok .enable by decide) [tag]

/-- Settles O3: the decoder's check is R94's, and no command's own meaning raises IllegalCommand. -/
theorem illegalCommandFaults : Obligations.IllegalCommandFaults := by
  intro s w rest hfault hcmds
  refine ⟨fun h => ?_, fun h t r ht hr => ?_, fun core tag htag => ?_⟩
  · exact ⟨_, step_of_illegalWord hfault hcmds h, rfl⟩
  · rcases step_of_not_illegalWord hfault hcmds h with hwait | ⟨i, rest', hrun⟩
    · cases hwait.symm.trans ht
      rw [hfault] at hr
      cases hr
    · exact exec_not_illegalCommand (by exact hfault) (hrun.symm.trans ht) hr
  · exact ⟨decode_encode_getRate core tag, decode_encode_enable tag, exec_getRate_of_unsupported htag core s, rfl⟩

end Sys2Proof.Machine
end

section
/-!
WRITE32, SETBITS, CLRBITS and WAITBIT at every offset (R121 to R124).
-/

namespace Sys2Proof.Machine

open Sys2Proof

/-! ### WRITE32 by register class (R121) -/

/-- WRITE32 of a latch or a volatile register that its offset names is a bus transaction and no more (R23). -/
theorem exec_write32_quiet {s : State} {off v : Word} {r : Reg} (h : s.params.regAt off = some r)
    (hclass : r.cls = .volatile ∨ r.cls = .latch) :
    exec (.write32 off v) s = .next { s with bus := .write (s.addrOf r) v :: s.bus, result := some .unit } := by
  rw [exec_write32 h, writeReg_quiet s v hclass]
  rfl

/-- A mailbox write with REQ clear is a bus transaction and starts no request (R53). -/
theorem writeReg_mem_of_reqClear {s : State} {b : Bank} {v : Word} (h : reqClear s.params v = true) :
    s.writeReg (.mem b) v = s.logWrite (.mem b) v := by
  rw [writeReg_mem, mailbox_eq, if_pos (by rwa [State.logWrite_params])]

/-- A mailbox write with REQ set that meets a request pending performs the old request or drops it, as the next draw
says, and leaves its own request pending (R53). -/
theorem writeReg_mem_of_pending {s : State} {b : Bank} {v : Word} {q : Request} (h : reqClear s.params v = false)
    (hq : (s.chan b).pending = some q) :
    ∃ c, (c = (s.chan b).performed q ∨ c = s.chan b) ∧
      s.writeReg (.mem b) v =
        ((s.logWrite (.mem b) v).skip 1).setChan b { c with pending := some (requestRef s.params v) } := by
  have hmailbox : s.writeReg (.mem b) v = ((s.logWrite (.mem b) v).settle b).setChan b
      { ((s.logWrite (.mem b) v).settle b).chan b with pending := some (requestRef s.params v) } := by
    rw [writeReg_mem, mailbox_eq, if_neg (by simp [h]), requestOf_ref, State.logWrite_params]
  rcases settle_cases (s.logWrite (.mem b) v) b with ⟨hnone, -⟩ | ⟨q', hq', hsettle⟩
  · rw [State.logWrite_chan, hq] at hnone
    cases hnone
  · rw [State.logWrite_chan, hq] at hq'
    cases hq'
    simp only [draw_eq] at hsettle
    rcases hsettle with ⟨hsettle, -⟩ | ⟨hsettle, -⟩ <;> rw [hmailbox, hsettle]
    · refine ⟨_, .inl rfl, ?_⟩
      rw [perform_eq]
      cases b <;> rfl
    · refine ⟨_, .inr rfl, ?_⟩
      rw [skip_chan, State.logWrite_chan]

/-- Settles O10: the offset names its register, and the write does what that register's class says. -/
theorem write32ByRegisterClass : Obligations.Write32ByRegisterClass := by
  intro s v hlaid
  obtain ⟨haligned, hdistinct, -⟩ := Params.laidOut_parts hlaid
  refine ⟨fun r => ?storage, fun r hr => ?quiet, fun b hreq => ?noRequest, fun b hreq hidle => ?request,
    fun b q hreq hq => ?requestMeetsPending, fun off hoff => ?invalid⟩
  case storage => exact exec_write32 (Params.regAt_store haligned hdistinct r)
  case quiet =>
    have hother : (∀ b, r ≠ .mem b) → (∀ b, r ≠ .mempoll b) → s.params.regAt (s.params.offset r) = some r :=
      Params.regAt_other haligned hdistinct
    rcases hr with rfl | rfl | ⟨b, rfl⟩ | ⟨b, rfl⟩ | ⟨b, rfl, hshared⟩
    · exact exec_write32_quiet (hother nofun nofun) (.inl rfl)
    · exact exec_write32_quiet (hother nofun nofun) (.inr rfl)
    · exact exec_write32_quiet (hother nofun nofun) (.inr rfl)
    · exact exec_write32_quiet (hother nofun nofun) (.inl rfl)
    · have hmirror := Params.regAt_mempoll haligned hdistinct b
      rw [hshared] at hmirror
      exact exec_write32_quiet hmirror (.inl rfl)
  case noRequest =>
    rw [exec_write32_mem hlaid, writeReg_mem_of_reqClear (by simpa [reqClear] using hreq)]
    rfl
  case request =>
    rw [exec_write32_mem hlaid, writeMem_idle (by simpa [reqClear] using hreq) hidle, requestOf_ref]
    cases b <;> rfl
  case requestMeetsPending =>
    obtain ⟨c, hc, hwrite⟩ := writeReg_mem_of_pending (by simpa [reqClear] using hreq) hq
    refine ⟨_, c, exec_write32_mem hlaid b v, hc, ?_⟩
    rw [hwrite]
    cases b <;> rfl
  case invalid => exact finish_withReg_of_invalid hoff (.write32 off v) _

/-! ### Commands that begin with a READ32 (R122 to R124) -/

/-- WRITE32 after READ32 at one offset: the result READ32 left is replaced (R120, R121). -/
theorem exec_write32_after_read {s : State} {off : Word} {r : Reg} (h : s.params.regAt off = some r) (x : Result)
    (v : Word) :
    exec (.write32 off v) ((s.readReg r).2.returns x) = .next (((s.readReg r).2.writeReg r v).returns .unit) := by
  rw [exec_write32 (r := r) (by rwa [State.returns_params, readReg_params]), returns_writeReg, returns_returns]

/-- Settles O11: at a valid offset both sides make the same read and the same write. -/
theorem setBitsIsReadThenWrite : Obligations.SetBitsIsReadThenWrite := by
  intro s off mask
  refine ⟨fun r hmod hr => ?_, fun hoff => finish_withReg_of_invalid hoff (.setBits off mask) _⟩
  obtain ⟨r', hr'⟩ := Params.regAt_valid hmod hr
  refine ⟨_, _, exec_read32 hr', rfl, ?_⟩
  rw [exec_setBits hr', exec_write32_after_read hr', setMask_eq]

/-- Settles O12: at a valid offset both sides make the same read and the same write. -/
theorem clrBitsIsReadThenWrite : Obligations.ClrBitsIsReadThenWrite := by
  intro s off mask
  refine ⟨fun r hmod hr => ?_, fun hoff => finish_withReg_of_invalid hoff (.clrBits off mask) _⟩
  obtain ⟨r', hr'⟩ := Params.regAt_valid hmod hr
  refine ⟨_, _, exec_read32 hr', rfl, ?_⟩
  rw [exec_clrBits hr', exec_write32_after_read hr', clearMask_eq]

/-- A budget that is not 0 is one iteration more than the budget after it (R124). -/
theorem toNat_eq_pred_succ {n : Word} (h : n ≠ 0) : n.toNat = (n - 1).toNat + 1 := by
  bv_omega

/-- WAITBIT with budget 0 makes no read (R124). -/
theorem exec_waitBit_zero {s : State} {off : Word} {r : Reg} (h : s.params.regAt off = some r) (w : Bool)
    (mask : Word) : exec (.waitBit w off mask 0) s = .next (s.returns (.err .timeout)) := by
  rw [exec_waitBit h]
  rfl

/-- WAITBIT whose first read meets its sense ends with that read (R124). -/
theorem exec_waitBit_of_met {s : State} {off : Word} {r : Reg} (h : s.params.regAt off = some r) {w : Bool}
    {mask n : Word} (hn : n ≠ 0) (hmet : senseMet w mask (s.readReg r).1 = true) :
    exec (.waitBit w off mask n) s = .next ((s.readReg r).2.returns .unit) := by
  rw [exec_waitBit h, toNat_eq_pred_succ hn, poll_succ, if_pos hmet]
  rfl

/-- WAITBIT whose first read does not meet its sense goes on from that read with the rest of its budget (R124). -/
theorem exec_waitBit_of_not_met {s : State} {off : Word} {r : Reg} (h : s.params.regAt off = some r) {w : Bool}
    {mask n : Word} (hn : n ≠ 0) (hmet : ¬ senseMet w mask (s.readReg r).1 = true) (x : Result) :
    exec (.waitBit w off mask n) s = exec (.waitBit w off mask (n - 1)) ((s.readReg r).2.returns x) := by
  rw [exec_waitBit h, toNat_eq_pred_succ hn, poll_succ, if_neg hmet,
    exec_waitBit (r := r) (by rwa [State.returns_params, readReg_params]), returns_poll, returns_returns]

/-- Settles O16: by the budget and by whether the first read meets the sense. -/
theorem waitBitIsABoundedPoll : Obligations.WaitBitIsABoundedPoll := by
  intro s w off mask
  refine ⟨fun r hmod hr => ?_, fun n hoff => finish_withReg_of_invalid hoff (.waitBit w off mask n) _⟩
  obtain ⟨r', hr'⟩ := Params.regAt_valid hmod hr
  refine ⟨exec_waitBit_zero hr' w mask, fun n hn => ⟨_, _, exec_read32 hr', rfl, fun hmet => ?_, fun hmet => ?_⟩⟩
  · exact exec_waitBit_of_met hr' hn ((senseMet_iff ..).mpr hmet)
  · exact exec_waitBit_of_not_met hr' hn (fun h => hmet ((senseMet_iff ..).mp h)) _

end Sys2Proof.Machine
end

section
/-!
The sequencer's waits as WAITBIT commands, and the waits that follow its writes of CTRL and of the bypass registers
(R130 to R133).
-/

namespace Sys2Proof.Machine

open Sys2Proof

/-! ### The sequencer's waits (R130, R132, R133) -/

/-- A wait of the sequencer, by how its poll of STAT ends: a Timeout is noted and the sequencer goes on (R133). -/
theorem waitStat_eq {s : State} (haligned : s.params.offsetsAligned = true) (wantSet : Bool) (mask : Word)
    (what : Wait) :
    s.waitStat wantSet mask what =
      .ok () (if (State.poll .stat (senseMet wantSet mask) waitBudget s).1 then
          (State.poll .stat (senseMet wantSet mask) waitBudget s).2
        else (State.poll .stat (senseMet wantSet mask) waitBudget s).2.note what) := by
  unfold State.waitStat
  rw [guarded_ok haligned]
  rcases State.poll .stat (senseMet wantSet mask) waitBudget s with ⟨_ | _, t⟩ <;> rfl

/-- A wait of the sequencer is the WAITBIT on STAT of the same sense and mask and of budget 20000, but for the result,
which the sequencer does not return; a Timeout is noted (R130, R132, R133). -/
theorem waitStat_is_waitBit {s : State} (hlaid : s.params.laidOut = true) (wantSet : Bool) (mask : Word)
    (what : Wait) :
    ∃ t, exec (.waitBit wantSet (s.params.offset .stat) mask 20000) s = .next t ∧
      (t.result = some .unit → s.waitStat wantSet mask what = .ok () { t with result := s.result }) ∧
      (t.result = some (.err .timeout) →
        s.waitStat wantSet mask what =
          .ok () { t with result := s.result, diag := s.diag ++ [⟨s.seq, s.u, what⟩] }) ∧
      (t.result = some .unit ∨ t.result = some (.err .timeout)) := by
  obtain ⟨haligned, hdistinct, -⟩ := Params.laidOut_parts hlaid
  have hstat : s.params.regAt (s.params.offset .stat) = some .stat :=
    Params.regAt_other haligned hdistinct nofun nofun
  have hkeeps := poll_keeps .stat (senseMet wantSet mask) waitBudget s
  refine ⟨_, exec_waitBit hstat wantSet mask 20000, ?_⟩
  rw [show (20000 : Word).toNat = waitBudget from rfl, waitStat_eq haligned, ← hkeeps.result, ← hkeeps.diag,
    ← hkeeps.seq, ← hkeeps.u]
  rcases State.poll .stat (senseMet wantSet mask) waitBudget s with ⟨_ | _, t⟩
  · exact ⟨nofun, fun _ => rfl, .inr rfl⟩
  · exact ⟨fun _ => rfl, nofun, .inl rfl⟩

/-- Settles O41: the busy-wait and the lock wait are the waits on STAT for BUSY clear and for LOCKED set. -/
theorem sequencerWaitsAreWaitBits : Obligations.SequencerWaitsAreWaitBits := fun s hlaid =>
  ⟨waitStat_is_waitBit hlaid false (busyMask s.params) .busyWait,
    waitStat_is_waitBit hlaid true (lockedMask s.params) .lockWait⟩

/-! ### Registers whose writes start a transition (R131) -/

/-- A register with the bus address of CTRL or of a bypass register is that register (R22, R70). -/
theorem eq_of_addrOf_eq_transitionReg {s : State} (hlaid : s.params.laidOut = true) (hbus : s.busDistinct)
    {r r' : Reg} (hr : r ∈ transitionRegs) (haddr : s.addrOf r = s.addrOf r') : r' = r := by
  obtain ⟨-, hdistinct, -⟩ := Params.laidOut_parts hlaid
  have hshare := Params.offset_distinct hdistinct (hbus r r' haddr)
  simp only [transitionRegs, List.mem_cons, List.not_mem_nil, or_false] at hr
  rcases hr with rfl | rfl | rfl <;> exact (by simpa [mayShare] using hshare : _ = r').symm

/-! ### The writes of a calibration table (R140 to R144) -/

/-- A transaction that, if it is a write, is one of the bank's mailbox. -/
def Txn.writesOnlyMem (p : Params) (b : Bank) : Txn → Prop
  | .read _ _ => True
  | .write addr _ => addr = p.busAddr (p.offset (.mem b))

/-- A request's traffic writes the mailbox alone (R140, R142). -/
theorem request_writesOnlyMem (s : State) (b : Bank) (w : Word) :
    Traffic (Txn.writesOnlyMem s.params b) s ((s.writeReg (.mem b) w).membusPoll b).2 :=
  (writeReg_traffic (P := Txn.writesOnlyMem s.params b) s (.mem b) w rfl).trans
    (poll_traffic _ _ _ _ fun _ => trivial)

/-- A membus read writes its bank's mailbox alone: memstat is read (R142). -/
theorem membusRead_writesOnlyMem (s : State) (b : Bank) (a : Word) :
    Traffic (Txn.writesOnlyMem s.params b) s (s.membusRead b a).2 := by
  have hrequest := request_writesOnlyMem s b (s.params.mbxR a)
  rw [membusRead_eq]
  split
  · exact hrequest.trans (readReg_traffic _ (.memstat b) fun _ => trivial)
  · exact hrequest

/-- APPLY_CALTABLE writes its bank's mailbox alone (R144). -/
theorem applyCal_writesOnlyMem (s : State) (b : Bank) :
    Traffic (Txn.writesOnlyMem s.params b) s (s.applyCal b).2 := by
  have htable := applyTable_induct
    (R := fun x y => y.params = x.params ∧ Traffic (Txn.writesOnlyMem x.params b) x y) b
    (fun x => ⟨rfl, Traffic.refl _ x⟩)
    (fun x y z hxy hyz => ⟨hyz.1.trans hxy.1, hxy.2.trans (hxy.1 ▸ hyz.2)⟩)
    (fun x a => ⟨(membusRead_onlyBank x b a).params, membusRead_writesOnlyMem x b a⟩)
    (fun x a w => ⟨(membusWrite_onlyBank x b a w).params, request_writesOnlyMem x b _⟩) s.params.calTable s
  exact htable.2

/-! ### Waits in a list of stretches (R131) -/

/-- A busy wait's reads of STAT begin the transactions `l`, oldest first (R130). -/
def State.BusyWaitFirst (s : State) (l : List Txn) : Prop :=
  ∃ (vs : List Word) (rest : List Txn),
    l = vs.map (Txn.read (s.addrOf .stat)) ++ rest ∧ 0 < vs.length ∧ vs.length ≤ 20000 ∧
      (∀ x ∈ vs.dropLast, x &&& s.params.fields.statBusy.mask ≠ 0) ∧
      (vs.length = 20000 ∨ ∃ x, vs.getLast? = some x ∧ x &&& s.params.fields.statBusy.mask = 0)

/-- In the transactions `l`, oldest first, a busy wait follows every write of CTRL or of a bypass register at once. -/
def State.TransitionsWaited (s : State) (l : List Txn) : Prop :=
  ∀ (k : Nat) (r : Reg) (v : Word), r ∈ transitionRegs → l[k]? = some (.write (s.addrOf r) v) →
    s.BusyWaitFirst (l.drop (k + 1))

/-- The stretch before `rest` writes no CTRL and no bypass register, or a busy wait is what `rest` begins with. -/
def Stretch.waitedBy (p : Params) (rest : List Stretch) : Stretch → Prop
  | .write r _ => .store r ∈ transitionRegs → rest.head? = some (.wait false (busyMask p))
  | .clearLatch r _ => r ∉ transitionRegs
  | .read _ _ => True
  | .wait _ _ => True
  | .table _ => True

/-- Each stretch of the list is waited by the ones after it. -/
def stretchesWaited (p : Params) : List Stretch → Prop
  | [] => True
  | e :: es => e.waitedBy p es ∧ stretchesWaited p es

theorem Stretch.waitedBy_append {p : Params} {e : Stretch} {es : List Stretch} (h : e.waitedBy p es)
    (fs : List Stretch) : e.waitedBy p (es ++ fs) := by
  cases e with
  | write r v => exact fun hr => by rw [List.head?_append, h hr]; rfl
  | clearLatch r m => exact h
  | _ => trivial

theorem stretchesWaited_append {p : Params} {es fs : List Stretch} (hes : stretchesWaited p es)
    (hfs : stretchesWaited p fs) : stretchesWaited p (es ++ fs) := by
  induction es with
  | nil => exact hfs
  | cons e es ih =>
    obtain ⟨he, hes⟩ := hes
    exact ⟨e.waitedBy_append he fs, ih hes⟩

/-- The transactions of a busy-wait stretch, whatever comes after them. -/
theorem busyWaitFirst_of_made {s : State} {es : List Stretch} {l : List Txn}
    (h : s.made (.wait false (busyMask s.params) :: es) l) : s.BusyWaitFirst l := by
  obtain ⟨wait, rest, rfl, ⟨vs, rfl, hpos, hle, hbusy, hlast⟩, -⟩ := h
  exact ⟨vs, rest, rfl, hpos, hle, by simpa [busyMask] using hbusy, by simpa [busyMask] using hlast⟩

section
variable {s : State} (hlaid : s.params.laidOut = true) (hbus : s.busDistinct)
include hlaid hbus

/-- A stretch that writes CTRL or a bypass register is that one write, and a busy wait is what follows it. -/
theorem write_of_stretch_made {e : Stretch} {es : List Stretch} {l : List Txn} (hmade : e.made s l)
    (hwaited : e.waitedBy s.params es) {k : Nat} {r : Reg} {v : Word} (hr : r ∈ transitionRegs)
    (hk : l[k]? = some (.write (s.addrOf r) v)) :
    l.length = k + 1 ∧ es.head? = some (.wait false (busyMask s.params)) := by
  have hmem : Txn.write (s.addrOf r) v ∈ l := List.mem_of_getElem? hk
  cases e with
  | read q w =>
    cases hmade
    simp at hmem
  | write q w =>
    cases hmade
    obtain ⟨haddr, -⟩ : s.addrOf r = s.addrOf (.store q) ∧ v = w := by simpa using hmem
    obtain rfl := eq_of_addrOf_eq_transitionReg hlaid hbus hr haddr
    obtain ⟨hlt, -⟩ := List.getElem?_eq_some_iff.mp hk
    have hzero : k = 0 := by simpa using hlt
    exact ⟨by rw [hzero]; rfl, hwaited hr⟩
  | clearLatch q m =>
    obtain ⟨hw1c, hclr⟩ := hmade
    have haddr : s.addrOf r = s.addrOf q := by
      cases hform : s.params.latchClr with
      | w1c =>
        obtain rfl := hw1c hform
        exact (by simpa using hmem : s.addrOf r = s.addrOf q ∧ v = m).1
      | clrbits =>
        obtain ⟨w, rfl⟩ := hclr hform
        exact (by simpa using hmem : s.addrOf r = s.addrOf q ∧ v = w &&& ~~~ m).1
    exact absurd (eq_of_addrOf_eq_transitionReg hlaid hbus hr haddr ▸ hr) hwaited
  | wait wantSet m =>
    obtain ⟨vs, rfl, -⟩ := hmade
    simp at hmem
  | table b =>
    obtain ⟨x, y, hparams, hexec, hy⟩ := hmade
    obtain ⟨l', hl', hwrites⟩ := applyCal_writesOnlyMem x b
    rw [exec_applyCaltable] at hexec
    cases hexec
    have hrev : l.reverse = l' := List.append_cancel_right (hy.symm.trans hl')
    have hwrite := hwrites (.write (s.addrOf r) v) (hrev ▸ List.mem_reverse.mpr hmem)
    have hmailbox : s.addrOf r = s.addrOf (.mem b) := Eq.trans hwrite (addrOf_congr hparams _)
    obtain rfl := eq_of_addrOf_eq_transitionReg hlaid hbus hr hmailbox
    simp [transitionRegs] at hr

/-- Waits that follow stretch by stretch follow transaction by transaction. -/
theorem transitionsWaited_of_made {es : List Stretch} {l : List Txn} (hmade : s.made es l)
    (hwaited : stretchesWaited s.params es) : s.TransitionsWaited l := by
  induction es generalizing l with
  | nil =>
    cases hmade
    intro k r v _ hk
    simp at hk
  | cons e es ih =>
    obtain ⟨l₁, l₂, rfl, hfirst, hrest⟩ := hmade
    obtain ⟨hwaitedFirst, hwaitedRest⟩ := hwaited
    intro k r v hr hk
    by_cases hlt : k < l₁.length
    · rw [List.getElem?_append_left hlt] at hk
      obtain ⟨hlength, hhead⟩ := write_of_stretch_made hlaid hbus hfirst hwaitedFirst hr hk
      obtain ⟨es', rfl⟩ := List.head?_eq_some_iff.mp hhead
      rw [← hlength, List.drop_left]
      exact busyWaitFirst_of_made hrest
    · rw [List.getElem?_append_right (by omega)] at hk
      have hdrop : (l₁ ++ l₂).drop (k + 1) = l₂.drop (k - l₁.length + 1) := by
        rw [List.drop_append, List.drop_eq_nil_of_le (by omega), List.nil_append]
        congr 1
        omega
      rw [hdrop]
      exact ih hrest hwaitedRest _ r v hr hk

end

/-! ### The traffic of runs that may divide by zero (R180, R197) -/

/-- The traffic of a run of operations: of all of them, or of those before the first division by zero. -/
theorem runOps_made_until_divide (ops : List SeqOp) {s : State} (haligned : s.params.offsetsAligned = true)
    (u : Nat) :
    Made (stretchesOf s.params (ops.takeWhile (· ≠ .divideByZero)) s.regs) s (runOps ops u s).state := by
  induction ops generalizing s u with
  | nil => exact Made.refl s
  | cons op ops ih =>
    by_cases hop : op = .divideByZero
    · subst hop
      exact (Made.refl (s.at s.seq u)).of_at
    · obtain ⟨t, ht, heffect⟩ := runOp_effect (s := s.at s.seq u) haligned hop
      have hfirst := (runOp_made (s := s.at s.seq u) haligned ht).of_at
      have hparams : t.params = s.params := heffect.params
      have hrest := ih (s := t) (by rwa [hparams]) (u + op.microSteps)
      rw [hparams, heffect.regs] at hrest
      have hstate : (runOps (op :: ops) u s).state = (runOps ops (u + op.microSteps) t).state := by
        simp [runOps, ht]
      rw [hstate, List.takeWhile_cons_of_pos (by simpa using hop)]
      exact hfirst.trans hparams hrest

/-- The writes of CTRL and of the bypass registers in a state's program are each followed by a busy wait, also in a
program cut short by a division by zero (R131, R171 to R195). -/
theorem program_stretchesWaited (p : Params) (c : BringUpConfig) (q : SeqState) (f : StoreFile) :
    stretchesWaited p (stretchesOf p ((program p c q).takeWhile (· ≠ .divideByZero)) f) := by
  cases q with
  | s4 =>
    cases hM : vcoWord p (c.bank .M).pllm (c.bank .M).pllglob <;>
      cases hP : vcoWord p (c.bank .P).pllm (c.bank .P).pllglob <;>
      simp [program, stageBank, hM, hP, allSlices, stretchesOf, SeqOp.stretches, stretchesWaited, Stretch.waitedBy,
        transitionRegs]
  | _ =>
    simp [program, allSlices, allGates, stretchesOf, SeqOp.stretches, rewrite, bypassStretch, busyMask,
      stretchesWaited, Stretch.waitedBy, transitionRegs]

/-- The traffic of a run of states is stretches whose writes of CTRL and of the bypass registers are waited for,
whether or not the run ends in a fault (R131). -/
theorem runStates_waited (qs : List SeqState) {s : State} (haligned : s.params.offsetsAligned = true) :
    ∃ es, Made es s (runStates qs s).state ∧ stretchesWaited s.params es := by
  induction qs generalizing s with
  | nil => exact ⟨[], Made.refl s, trivial⟩
  | cons q qs ih =>
    have hmade := (runOps_made_until_divide (program s.params s.cfg q) (s := s.at q 0) haligned 0).of_at
    have hwaited := program_stretchesWaited s.params s.cfg q s.regs
    have hparams := (runOps_sound (program s.params s.cfg q) 0 (s.at q 0)).params
    unfold runStates
    cases hrun : runOps (program s.params s.cfg q) 0 (s.at q 0) with
    | fault k t =>
      rw [hrun] at hmade
      exact ⟨_, hmade, hwaited⟩
    | ok _ t =>
      rw [hrun] at hmade hparams
      replace hparams : t.params = s.params := hparams
      obtain ⟨es, hrest, hwaitedRest⟩ := ih (s := t) (by rwa [hparams])
      rw [hparams] at hwaitedRest
      exact ⟨_, hmade.trans hparams hrest, stretchesWaited_append hwaited hwaitedRest⟩

/-! ### Bring-ups (R131, R170) -/

/-- Only the bus logs of the two states, and the parameters, say what traffic lies between them. -/
theorem Made.congr {es : List Stretch} {s s' t t' : State} (h : Made es s' t') (hparams : s'.params = s.params)
    (hstart : s'.bus = s.bus) (hend : t.bus = t'.bus) : Made es s t := by
  obtain ⟨l, hl, hmade⟩ := h
  exact ⟨l, by rw [hend, hl, hstart], (State.made_congr hparams es l).mp hmade⟩

/-- Ending a command, by a result or by a fault, makes no transaction (R264, R267). -/
theorem final_bus (w : Word) (r : Res Result) : (r.final w).bus = r.state.bus := by
  cases r <;> rfl

/-- The transactions of a BRINGUP command are those of its sequence (R72, R170). -/
theorem exec_bringup_bus {s t : State} {mode : Mode} {stage : Stage} (h : exec (.bringup mode stage) s = .next t) :
    t.bus = (s.bringup mode stage).state.bus := by
  cases h
  exact final_bus _ _

/-- `DONE` makes no transaction (R170). -/
theorem bringupDone_bus (r : Res Unit) : (bringupDone r).state.bus = r.state.bus := by
  cases r <;> rfl

/-- The traffic of every bring-up is stretches whose writes of CTRL and of the bypass registers are waited for (R131). -/
theorem bringup_waited {s : State} (haligned : s.params.offsetsAligned = true) (mode : Mode) (stage : Stage) :
    ∃ es, Made es s (s.bringup mode stage).state ∧ stretchesWaited s.params es := by
  cases mode with
  | emulation =>
    obtain ⟨es, hmade, hwaited⟩ := runStates_waited emulationPath (s := { s with diag := [] }) haligned
    exact ⟨es, hmade.congr rfl rfl (bringupDone_bus _), hwaited⟩
  | real =>
    cases stage with
    | first =>
      obtain ⟨es, hmade, hwaited⟩ := runStates_waited (.s1 :: realPath) (s := { s with diag := [] }) haligned
      exact ⟨es, hmade.congr rfl rfl (bringupDone_bus _), hwaited⟩
    | later =>
      have hread : Made [.read .ctrl s.regs.ctrl] s (s.logRead (.store .ctrl) s.regs.ctrl) :=
        ⟨[_], rfl, made_one rfl⟩
      unfold State.bringup
      dsimp only
      rw [readReg_store]
      dsimp only
      split
      · exact ⟨_, hread.congr rfl rfl rfl, trivial, trivial⟩
      · obtain ⟨es, hmade, hwaited⟩ := runStates_waited realPath
          (s := ({ s with diag := [] }.at .s1 0).logRead (.store .ctrl) s.regs.ctrl) haligned
        have hafter := hmade.congr (s := s.logRead (.store .ctrl) s.regs.ctrl) rfl rfl (bringupDone_bus _)
        exact ⟨.read .ctrl s.regs.ctrl :: es, Made.trans (readReg_params s (.store .ctrl)) hread hafter, trivial, hwaited⟩

/-- Settles O40: the bring-up's stretches are waited for, and so are the transactions they are made of. -/
theorem bypassAndControlWritesAreWaitedFor : Obligations.BypassAndControlWritesAreWaitedFor := by
  intro s t mode stage l hlaid hbus hexec hl
  obtain ⟨haligned, -⟩ := Params.laidOut_parts hlaid
  obtain ⟨es, ⟨m, hm, hmade⟩, hwaited⟩ := bringup_waited haligned mode stage
  have hrev : l.reverse = m := by
    rw [List.append_cancel_right (hl.symm.trans ((exec_bringup_bus hexec).trans hm)), List.reverse_reverse]
  rw [hrev]
  exact transitionsWaited_of_made hlaid hbus hmade hwaited

end Sys2Proof.Machine
end


section
/-!
The later-stage bring-up: one read of CTRL decides between skipping and the sequence from `S2` (R170, R176).
-/

namespace Sys2Proof.Machine

open Sys2Proof

/-- The state in which a later-stage run has read CTRL in `S1` and decides (R176). -/
def State.ctrlChecked (s : State) : State :=
  { s with
    seq := .s1
    u := 0
    diag := []
    bus := .read (s.addrOf (.store .ctrl)) s.regs.ctrl :: s.bus }

/-- A later-stage run is the read of CTRL and then, by boot mode, the skip or the sequence from `S2` (R170, R176). -/
theorem bringup_later (s : State) :
    s.bringup .real .later =
      if s.params.fields.ctrlBootmode.get s.regs.ctrl = 0 then .ok .unit (s.ctrlChecked.at .skipped 0)
      else bringupDone (runStates realPath s.ctrlChecked) := rfl

/-- A sequence that raises no fault is a command that returns its result (R170, R267). -/
theorem exec_bringup_of_ok {s t : State} {mode : Mode} {stage : Stage} {r : Result}
    (h : s.bringup mode stage = .ok r t) : exec (.bringup mode stage) s = .next (t.returns r) :=
  calc exec (.bringup mode stage) s
    _ = finish (.bringup mode stage) (s.bringup mode stage) := rfl
    _ = .next (t.returns r) := by rw [h, finish_eq, Res.final_ok]

theorem exec_bringup_later_skips {s : State} (hboot : s.params.fields.ctrlBootmode.get s.regs.ctrl = 0) :
    exec (.bringup .real .later) s = .next ((s.ctrlChecked.at .skipped 0).returns .unit) :=
  exec_bringup_of_ok (by rw [bringup_later, if_pos hboot])

theorem exec_bringup_later_runs {s v : State} (hboot : s.params.fields.ctrlBootmode.get s.regs.ctrl ≠ 0)
    (hrun : runStates realPath s.ctrlChecked = .ok () v) :
    exec (.bringup .real .later) s = .next ((v.at .done 0).returns .unit) :=
  exec_bringup_of_ok (by rw [bringup_later, if_neg hboot, hrun, bringupDone, Res.bind_ok])

/-- Settles O31, by the two outcomes of the read of CTRL. -/
theorem laterStageSkipsOutsideBootMode : Obligations.LaterStageSkipsOutsideBootMode := fun _ =>
  ⟨fun hboot => ⟨_, exec_bringup_later_skips hboot, rfl⟩,
    fun hboot _ hrun => ⟨_, exec_bringup_later_runs hboot hrun, rfl⟩⟩

end Sys2Proof.Machine
end

section
/-!
The rate queries: a query ends in the value or the fault of its reference, with the reads its reference names (R220,
R225, R241).
-/

namespace Sys2Proof.Machine

open Sys2Proof

/-! ### VCO_HZ, source by source (R220) -/

/-- The three sources are compared in order, the first match deciding (R99, R220). -/
theorem vcoSource_eq_some_iff {p : Params} {code : Word} {osc : Hz} :
    p.vcoSource code = some osc ↔
      code = p.psrc.eosc ∧ osc = p.oscHz ∨
        code = p.psrc.intosc ∧ code ≠ p.psrc.eosc ∧ osc = p.intoscHz ∨
        code = p.psrc.fpga ∧ code ≠ p.psrc.eosc ∧ code ≠ p.psrc.intosc ∧ osc = p.fpgaHz := by
  unfold Params.vcoSource
  split
  case isTrue heosc => simp [heosc, eq_comm (a := osc)]
  case isFalse heosc =>
    split
    case isTrue hintosc =>
      subst hintosc
      simp [heosc, eq_comm (a := osc)]
    case isFalse hintosc =>
      split
      case isTrue hfpga =>
        subst hfpga
        simp [heosc, hintosc, eq_comm (a := osc)]
      case isFalse hfpga => simp [heosc, hintosc, hfpga]

theorem vcoSource_eq_none {p : Params} {code : Word} (heosc : code ≠ p.psrc.eosc) (hintosc : code ≠ p.psrc.intosc)
    (hfpga : code ≠ p.psrc.fpga) : p.vcoSource code = none := by
  rw [Params.vcoSource, if_neg heosc, if_neg hintosc, if_neg hfpga]

section
variable {p : Params} {f : StoreFile} {b : Bank}

theorem vcoRef_of_source_none (hsrc : p.vcoSource (p.fields.psrc.get (f.get (.bank b .pllglob))) = none) :
    vcoRef p f b = some 0 := by
  simp only [vcoRef, hsrc]

theorem vcoReads_of_source_none (hsrc : p.vcoSource (p.fields.psrc.get (f.get (.bank b .pllglob))) = none) :
    vcoReads p f b = [.bank b .pllglob] := by
  simp only [vcoReads, hsrc]

variable {osc : Hz} (hsrc : p.vcoSource (p.fields.psrc.get (f.get (.bank b .pllglob))) = some osc)
include hsrc

theorem vcoRef_of_aref_zero (haref : (p.fields.arefclkdiv.get (f.get (.bank b .pllglob))).toNat = 0) :
    vcoRef p f b = none := by
  simp only [vcoRef, hsrc, if_pos haref]

theorem vcoReads_of_aref_zero (haref : (p.fields.arefclkdiv.get (f.get (.bank b .pllglob))).toNat = 0) :
    vcoReads p f b = [.bank b .pllglob] := by
  have hzero : p.fields.arefclkdiv.get (f.get (.bank b .pllglob)) = 0 := BitVec.eq_of_toNat_eq haref
  simp only [vcoReads, hsrc, if_pos hzero]

theorem vcoRef_of_aref_ne_zero (haref : (p.fields.arefclkdiv.get (f.get (.bank b .pllglob))).toNat ≠ 0) :
    vcoRef p f b = some (osc.toNat / (p.fields.arefclkdiv.get (f.get (.bank b .pllglob))).toNat *
      (p.fields.mdiv.get (f.get (.bank b .pllm))).toNat % 2 ^ 64) := by
  simp only [vcoRef, hsrc, if_neg haref]

theorem vcoReads_of_aref_ne_zero (haref : (p.fields.arefclkdiv.get (f.get (.bank b .pllglob))).toNat ≠ 0) :
    vcoReads p f b = [.bank b .pllglob, .bank b .pllm] := by
  have hne : p.fields.arefclkdiv.get (f.get (.bank b .pllglob)) ≠ 0 := fun h => haref (congrArg BitVec.toNat h)
  simp only [vcoReads, hsrc, if_neg hne]

end

theorem exec_vcoHz (s : State) (b : Bank) :
    exec (.vcoHz b) s = .next (s.rated (.vcoHz b) (vcoRef s.params s.regs b) (vcoReads s.params s.regs b)) :=
  finish_rated (vcoHz_computes s b)

/-- A result is a word of 64 bits, so a value taken modulo `2 ^ 64` is returned as it is (R220). -/
theorem rated_some_mod (s : State) (i : Instr) (n : Nat) (l : List StoreReg) :
    s.rated i (some (n % 2 ^ 64)) l = s.rated i (some n) l := by
  have hword : BitVec.ofNat 64 (n % 2 ^ 64) = BitVec.ofNat 64 n := BitVec.eq_of_toNat_eq (by simp)
  simp only [State.rated, hword]

/-- Settles O42, by what the source code names and by whether the A-ref divider is 0. -/
theorem vcoHzComputes : Obligations.VcoHzComputes := by
  intro s b
  refine ⟨fun heosc hintosc hfpga => ?_, fun osc hosc => ?_⟩
  · have hsrc := vcoSource_eq_none heosc hintosc hfpga
    rw [exec_vcoHz, vcoRef_of_source_none hsrc, vcoReads_of_source_none hsrc]
    rfl
  · have hsrc := vcoSource_eq_some_iff.mpr hosc
    refine ⟨fun haref => ?_, fun haref => ?_⟩
    · rw [exec_vcoHz, vcoRef_of_aref_zero hsrc haref, vcoReads_of_aref_zero hsrc haref]
      rfl
    · rw [exec_vcoHz, vcoRef_of_aref_ne_zero hsrc haref, vcoReads_of_aref_ne_zero hsrc haref, rated_some_mod]
      rfl

/-! ### GET_RATE and ENABLE (R225, R241) -/

/-- GET_RATE of a supported tag is the derivation of its identity (R225). -/
theorem exec_getRate_of_clock {tag : Word} {c : Clock} (h : clockOfTag tag = some c) (core : BitVec 2) (s : State) :
    exec (.getRate core tag) s =
      .next (s.rated (.getRate core tag) (rateRef s.params s.regs core c) (rateReads s.params s.regs core c)) :=
  calc exec (.getRate core tag) s
    _ = execGetRate core tag s := rfl
    _ = finish (.getRate core tag) (returnHz (s.rateHz core c)) := by simp only [execGetRate, h]
    _ = _ := finish_rated (rateHz_computes s core c)

/-- Settles O44: a tag above 12 names no clock, and any other one the clock at its position in the catalog. -/
theorem getRateRefinesTheDerivations : Obligations.GetRateRefinesTheDerivations := by
  intro s core tag
  refine ⟨fun htag => exec_getRate_of_unsupported htag core s, fun k c hk hc => ?_⟩
  have hclock : clockOfTag tag = some c := by rw [clockOfTag, hk]; exact hc
  exact exec_getRate_of_clock hclock core s

theorem exec_enable (tag : Word) (s : State) : exec (.enable tag) s = .next (s.returns .unit) := rfl

/-- Settles O48: the tag is not looked at. -/
theorem enableAlwaysSucceeds : Obligations.EnableAlwaysSucceeds := fun s tag => exec_enable tag s

end Sys2Proof.Machine
end

section
/-!
What every register access does, every command does: an induction over the accesses of a command, said once.
-/

namespace Sys2Proof.Machine

open Sys2Proof

/-- A relation between the states a command passes through: it chains, and every register access has it, and so does
every move and note of the sequencer. -/
structure AccessRelation (R : State → State → Prop) : Prop where
  refl : ∀ s, R s s
  trans : ∀ {s t v}, R s t → R t v → R s v
  read : ∀ s r, R s (s.readReg r).2
  write : ∀ s r v, R s (s.writeReg r v)
  move : ∀ s q u, R s (s.at q u)
  note : ∀ s w, R s (s.note w)
  clearDiag : ∀ s, R s { s with diag := [] }

namespace AccessRelation

variable {R : State → State → Prop} (h : AccessRelation R)
include h

/-! ### Operations over the register window -/

theorem setMask (s : State) (r : Reg) (m : Word) : R s (s.setMask r m) := h.trans (h.read s r) (h.write ..)

theorem clearMask (s : State) (r : Reg) (m : Word) : R s (s.clearMask r m) := h.trans (h.read s r) (h.write ..)

theorem poll (r : Reg) (ok : Word → Bool) (n : Nat) (s : State) : R s (State.poll r ok n s).2 :=
  poll_induct h.refl (fun _ _ _ => h.trans) r (fun s => h.read s r) ok n s

theorem request (s : State) (b : Bank) (w : Word) : R s ((s.writeReg (.mem b) w).membusPoll b).2 :=
  h.trans (h.write s (.mem b) w) (h.poll ..)

theorem membusRead (s : State) (b : Bank) (a : Word) : R s (s.membusRead b a).2 := by
  have hrequest := h.request s b (s.params.mbxR a)
  rw [membusRead_eq]
  split
  · exact h.trans hrequest (h.read _ (.memstat b))
  · exact hrequest

theorem applyCal (s : State) (b : Bank) : R s (s.applyCal b).2 :=
  applyTable_induct b h.refl (fun _ _ _ => h.trans) (fun s a => h.membusRead s b a)
    (fun s a w => h.request s b (s.params.mbxW a w)) s.params.calTable s

/-! ### Parts of a command, however they end (R264, R268) -/

theorem bind {α β : Type} {s : State} {x : Res α} {f : α → State → Res β} (hx : R s x.state)
    (hf : ∀ a t, R t (f a t).state) : R s (x.bind f).state := by
  cases x with
  | ok a t => exact h.trans hx (hf a t)
  | fault k t => exact hx

theorem withReg {α : Type} {s : State} {off : Word} {f : Reg → Res α} (hf : ∀ r, R s (f r).state) :
    R s (s.withReg off f).state := by
  unfold State.withReg
  split
  · exact h.refl s
  · exact hf _

theorem guarded {s : State} {r : Reg} {f : State → State} (hf : R s (f s)) : R s (s.guarded r f).state := by
  unfold State.guarded
  split
  · exact hf
  · exact h.refl s

/-! ### The sequencer -/

theorem waitStat (s : State) (wantSet : Bool) (m : Word) (what : Wait) : R s (s.waitStat wantSet m what).state := by
  refine h.guarded ?_
  have hpoll := h.poll .stat (senseMet wantSet m) waitBudget s
  rcases hend : State.poll .stat (senseMet wantSet m) waitBudget s with ⟨_ | _, t⟩ <;> rw [hend] at hpoll
  · exact h.trans hpoll (h.note t what)
  · exact hpoll

theorem clearLatch (s : State) (r : Reg) (m : Word) : R s (s.clearLatch r m).state := by
  unfold State.clearLatch
  split
  · exact h.write s r m
  · exact h.guarded (h.clearMask s r m)

theorem writeBypass (s : State) (b : Bank) (v : Word) : R s (s.writeBypass b v).state :=
  h.trans (h.write s _ v) (h.waitStat ..)

theorem runOp (s : State) (op : SeqOp) : R s (s.runOp op).state := by
  cases op with
  | write r v => exact h.write ..
  | setBits r m => exact h.guarded (f := fun s => s.setMask (.store r) m) (h.setMask ..)
  | clrBits r m => exact h.guarded (f := fun s => s.clearMask (.store r) m) (h.clearMask ..)
  | busyWait => exact h.waitStat ..
  | lockWait => exact h.waitStat ..
  | forceBypass b => exact h.writeBypass ..
  | clearBypass b => exact h.writeBypass ..
  | clearLostLock b => exact h.clearLatch ..
  | clearIntr => exact h.clearLatch ..
  | calTable b =>
    have htable := h.applyCal s b
    simp only [State.runOp]
    rcases hend : s.applyCal b with ⟨_ | _, t⟩ <;> rw [hend] at htable
    · exact h.trans htable (h.note t _)
    · exact htable
  | editCtrl e => exact h.trans (h.trans (h.read s (.store .ctrl)) (h.move ..)) (h.write _ (.store .ctrl) _)
  | divideByZero => exact h.refl s

theorem runOps (ops : List SeqOp) (u : Nat) (s : State) : R s (runOps ops u s).state := by
  induction ops generalizing u s with
  | nil => exact h.refl s
  | cons op ops ih => exact h.bind (h.trans (h.move s s.seq u) (h.runOp ..)) fun _ t => ih _ t

theorem runStates (qs : List SeqState) (s : State) : R s (runStates qs s).state := by
  induction qs generalizing s with
  | nil => exact h.refl s
  | cons q qs ih => exact h.bind (h.trans (h.move s q 0) (h.runOps ..)) fun _ t => ih t

theorem bringupDone {s : State} {x : Res Unit} (hx : R s x.state) : R s (bringupDone x).state :=
  h.bind hx fun _ t => h.move t .done 0

theorem bringup (s : State) (mode : Mode) (stage : Stage) : R s (s.bringup mode stage).state := by
  refine h.trans (h.clearDiag s) ?_
  unfold State.bringup
  split
  · exact h.bringupDone (h.runStates ..)
  · exact h.bringupDone (h.runStates ..)
  · have hread := h.trans (h.move { s with diag := [] } .s1 0) (h.read _ (.store .ctrl))
    dsimp only
    split
    · exact h.trans hread (h.move ..)
    · exact h.bringupDone (h.trans hread (h.runStates ..))

/-! ### The queries -/

/-- The reads of storage registers in order are accesses. -/
theorem afterRegs (s : State) (l : List StoreReg) : R s (s.afterRegs l) := by
  induction l generalizing s with
  | nil => exact h.refl s
  | cons r l ih =>
    have hrest := ih (s.afterRegs [r])
    rw [afterRegs_afterRegs] at hrest
    exact h.trans (h.read s (.store r)) hrest

theorem returnHz {s : State} {x : Res Hz} {o : Option Nat} {l : List StoreReg} (hx : Computes x s o l) :
    R s (returnHz x).state := by
  rw [hx.2]
  cases o <;> exact h.afterRegs s l

/-! ### Every command -/

/-- The state in which a command's meaning ends, before the end is recorded, is related to the state it began in. -/
theorem exec (i : Instr) (s : State) : ∃ x, exec i s = finish i x ∧ R s x.state := by
  cases i with
  | read32 off => exact ⟨_, rfl, h.withReg fun r => h.read s r⟩
  | write32 off value => exact ⟨_, rfl, h.withReg fun r => h.write s r value⟩
  | setBits off mask => exact ⟨_, rfl, h.withReg fun r => h.setMask s r mask⟩
  | clrBits off mask => exact ⟨_, rfl, h.withReg fun r => h.clearMask s r mask⟩
  | waitBit wantSet off mask budget => exact ⟨_, rfl, h.withReg fun r => h.poll r _ _ s⟩
  | membusWrite b a d => exact ⟨_, rfl, h.request s b _⟩
  | membusRead b a =>
    refine ⟨_, rfl, ?_⟩
    have hread := h.membusRead s b a
    rcases hend : s.membusRead b a with ⟨_ | _, t⟩ <;> rw [hend] at hread <;> exact hread
  | applyCaltable b => exact ⟨_, rfl, h.applyCal s b⟩
  | vcocalib pllm pllglob =>
    refine ⟨_, rfl, ?_⟩
    split <;> exact h.refl s
  | bringup mode stage => exact ⟨_, rfl, h.bringup s mode stage⟩
  | vcoHz b => exact ⟨_, rfl, h.returnHz (vcoHz_computes s b)⟩
  | clksrcHz sel mctr pctr =>
    refine ⟨_, rfl, ?_⟩
    split
    · exact h.returnHz (clksrcHz_computes ..)
    · exact h.refl s
  | getRate core tag =>
    refine ⟨_, rfl, ?_⟩
    split
    · exact h.refl s
    · exact h.returnHz (rateHz_computes ..)
  | enable tag => exact ⟨_, rfl, h.refl s⟩

end AccessRelation

end Sys2Proof.Machine
end

section
/-!
Faults: what a faulting command leaves, and that the CORE then stops (R263, R264).
-/

namespace Sys2Proof.Machine

open Sys2Proof

/-- An access adds its transaction to the bus log and takes none away (R72). -/
theorem busSuffix_accessRelation : AccessRelation fun s t => s.bus <:+ t.bus where
  refl _ := List.suffix_rfl
  trans := List.IsSuffix.trans
  read s r := ⟨[_], (readReg_bus s r).symm⟩
  write s r v := ⟨[_], (writeReg_bus s r v).symm⟩
  move _ _ _ := List.suffix_rfl
  note _ _ := List.suffix_rfl
  clearDiag _ := List.suffix_rfl

/-- No command undoes a bus transaction, however it ends (R72, R264). -/
theorem exec_bus_suffix {i : Instr} {s t : State} (ht : exec i s = .next t) : s.bus <:+ t.bus := by
  obtain ⟨x, hexec, hbus⟩ := busSuffix_accessRelation.exec i s
  cases hexec.symm.trans ht
  rwa [final_bus]

/-- A command that leaves a fault record took its own fault, and in the state where it stopped (R263). -/
theorem exec_eq_takeFault {i : Instr} {s t : State} {q : FaultRecord} (hs : s.fault = none)
    (ht : exec i s = .next t) (hq : t.fault = some q) : ∃ k, ∃ v : State, t = v.takeFault k i.cmdWord := by
  obtain ⟨x, hexec, hx⟩ := exec_eq_finish i s
  cases hexec.symm.trans ht
  cases x with
  | ok a v =>
    have hnone : v.fault = none := Eq.trans hx hs
    cases hnone.symm.trans hq
  | fault k v => exact ⟨k, v, rfl⟩

/-- A CORE that holds a fault record executes no command (R264). -/
theorem step_of_fault {s : State} {q : FaultRecord} (h : s.fault = some q) : step s = .fault (.stopped q) := by
  simp only [step, stepCore, h]

/-- Settles O7: a faulting command ends by taking its fault, its transactions only added to, and the record left is one
the next step stops at. -/
theorem faultStopsTheCore : Obligations.FaultStopsTheCore := by
  refine ⟨fun s r hr => step_of_fault hr, fun i s t r hs ht hr => ?_⟩
  have hkind := exec_not_illegalCommand hs ht hr
  obtain ⟨l, hbus⟩ := exec_bus_suffix ht
  have hstops (words : List Word) : step { t with cmds := words } = .fault (.stopped r) := step_of_fault hr
  obtain ⟨k, v, rfl⟩ := exec_eq_takeFault hs ht hr
  obtain rfl : FaultRecord.mk k i.cmdWord v.seq v.u = r := Option.some.inj hr
  exact ⟨rfl, rfl, rfl, rfl, hkind, ⟨l, hbus.symm⟩, hstops⟩

end Sys2Proof.Machine
end

section
/-!
The CORE after reset: at rest until its caller issues a command (R280).
-/

namespace Sys2Proof.Machine

open Sys2Proof

/-- With no command to run, a step is no operation (R280). -/
theorem step_of_cmds_nil {s : State} (hfault : s.fault = none) (hcmds : s.cmds = []) : step s = .next s := by
  unfold step stepCore runQueued
  simp only [hfault, hcmds]

/-- A command at the head of the queue is not the empty list of words (R90). -/
theorem decode_ne_ok_of_nil {i : Instr} {rest : List Word} : decode [] ≠ .ok (i, rest) := nofun

/-- A CORE with no fault runs the command that the caller issues to it, and that command alone (R78, R90). -/
theorem step_of_issued {s : State} {words rest : List Word} {i : Instr} (hfault : s.fault = none)
    (h : decode words = .ok (i, rest)) : step { s with cmds := words } = exec i { s with cmds := rest } := by
  cases words with
  | nil => exact absurd h decode_ne_ok_of_nil
  | cons w ws => exact step_of_decode_ok (s := { s with cmds := w :: ws }) hfault rfl h

/-- Settles O49: reset leaves no fault and no command, so nothing runs before the first command issued. -/
theorem resetLeavesAnIdleCore : Obligations.ResetLeavesAnIdleCore := by
  intro s hs
  obtain ⟨p, c, rfl⟩ : ∃ p c, s = State.resetWith p c := hs.elim (fun h => ⟨_, _, h⟩) id
  have hfault := State.resetWith_fault p c
  have hwaits := step_of_cmds_nil hfault (State.resetWith_cmds p c)
  exact ⟨State.resetWith_seq p c, State.resetWith_u p c, State.resetWith_diag p c, hfault, State.resetWith_bus p c,
    hwaits, fun _ _ _ => step_of_issued hfault⟩

end Sys2Proof.Machine
end

section
/-!
The round trip between commands and their words (R90 to R94).
-/

namespace Sys2Proof.Machine

open Sys2Proof

/-- The opcode of a command (R93). -/
def opcodeOfInstr : Instr → Opcode
  | .read32 _ => .read32
  | .write32 _ _ => .write32
  | .setBits _ _ => .setBits
  | .clrBits _ _ => .clrBits
  | .waitBit _ _ _ _ => .waitBit
  | .membusWrite _ _ _ => .membusWrite
  | .membusRead _ _ => .membusRead
  | .applyCaltable _ => .applyCaltable
  | .vcocalib _ _ => .vcocalib
  | .bringup _ _ => .bringup
  | .vcoHz _ => .vcoHz
  | .clksrcHz _ _ _ => .clksrcHz
  | .getRate _ _ => .getRate
  | .enable _ => .enable

/-! ### The fields of a command's word -/

@[simp] theorem bankOf_bankBit (b : Bank) : bankOf (bankBit b) = b := by cases b <;> rfl

@[simp] theorem bankBit_bankOf (b : Bool) : bankBit (bankOf b) = b := by cases b <;> rfl

@[simp] theorem modeOf_modeBit (m : Mode) : modeOf (modeBit m) = m := by cases m <;> rfl

@[simp] theorem modeBit_modeOf (b : Bool) : modeBit (modeOf b) = b := by cases b <;> rfl

@[simp] theorem stageOf_stageBit (g : Stage) : stageOf (stageBit g) = g := by cases g <;> rfl

@[simp] theorem stageBit_stageOf (b : Bool) : stageBit (stageOf b) = b := by cases b <;> rfl

/-- Field `B` of a word that an opcode and the field make up (R91). -/
theorem cmdB_opByte_or_fieldB (op : Opcode) (b : Bool) : cmdB (opByte op ||| fieldB b) = b := by
  cases op <;> cases b <;> decide

/-- Fields `B` and `S` of BRINGUP's word (R91). -/
theorem cmdBS_bringup (b s : Bool) :
    cmdB (0x30 ||| fieldB b ||| fieldS s) = b ∧ cmdS (0x30 ||| fieldB b ||| fieldS s) = s := by
  cases b <;> cases s <;> decide

/-- Field `CORE` of GET_RATE's word (R91). -/
theorem cmdCore_getRate : ∀ core : BitVec 2, cmdCore (0x42 ||| (core.setWidth 32 <<< 10)) = core := by decide

/-- Field `B` in place is bit 8 of the word (R91). -/
theorem fieldB_cmdB (w : Word) : fieldB (cmdB w) = w &&& 0x100 := by
  ext i hi
  unfold fieldB cmdB
  interval_cases i <;> cases h : w.getLsbD 8 <;> simp_all [BitVec.getLsbD_eq_getElem]

/-- Fields `B` and `S` in place are bits 8 and 9 of the word (R91). -/
theorem fieldBS_cmdBS (w : Word) : fieldB (cmdB w) ||| fieldS (cmdS w) = w &&& 0x300 := by
  have hS : fieldS (cmdS w) = w &&& 0x200 := by
    ext i hi
    unfold fieldS cmdS
    interval_cases i <;> cases h : w.getLsbD 9 <;> simp_all [BitVec.getLsbD_eq_getElem]
  rw [fieldB_cmdB, hS, ← BitVec.and_or_distrib_left]
  rfl

/-- Field `CORE` in place is bits 10 and 11 of the word (R91). -/
theorem fieldCore_cmdCore (w : Word) : (cmdCore w).setWidth 32 <<< 10 = w &&& 0xC00 := by
  ext i hi
  unfold cmdCore
  interval_cases i <;> simp

/-! ### From a command to its words and back -/

/-- A command's word is legal and holds the command's opcode (R93, R94). -/
theorem checkWord_cmdWord (i : Instr) : checkWord i.cmdWord = .ok (opcodeOfInstr i) := by
  cases i with
  | waitBit w | membusWrite w | membusRead w | applyCaltable w | vcoHz w =>
    dsimp only [Instr.cmdWord, opcodeOfInstr]
    cases w <;> decide
  | bringup mode stage => cases mode <;> cases stage <;> decide
  | getRate core tag =>
    have hword : ∀ c : BitVec 2, checkWord (0x42 ||| (c.setWidth 32 <<< 10)) = .ok .getRate := by decide
    exact hword core
  | _ =>
    dsimp only [Instr.cmdWord, opcodeOfInstr]
    decide

/-- The operands read back from a command's own words (R91, R92). -/
theorem decodeArgs_cmdWord (i : Instr) (rest : List Word) :
    decodeArgs (opcodeOfInstr i) i.cmdWord (i.argWords ++ rest) = .ok (i, rest) := by
  have hB := cmdB_opByte_or_fieldB (opcodeOfInstr i)
  cases i with
  | bringup mode stage =>
    obtain ⟨hmode, hstage⟩ := cmdBS_bringup (modeBit mode) (stageBit stage)
    simp only [decodeArgs, opcodeOfInstr, Instr.cmdWord, Instr.argWords, List.nil_append, hmode, hstage, modeOf_modeBit,
      stageOf_stageBit]
  | getRate core tag =>
    have hcore := cmdCore_getRate core
    simp only [decodeArgs, opcodeOfInstr, Instr.cmdWord, Instr.argWords, List.cons_append, args1, hcore, List.nil_append]
  | waitBit | membusWrite | membusRead | applyCaltable | vcoHz =>
    simp only [opcodeOfInstr, opByte] at hB
    simp only [decodeArgs, opcodeOfInstr, Instr.cmdWord, Instr.argWords, args1, args2, args3, List.cons_append,
      List.nil_append, hB, bankOf_bankBit]
  | _ => rfl

/-- Settles O1: the command word is legal, and the operands are where the decoder looks for them. -/
theorem decodeOfEncode : Obligations.DecodeOfEncode := fun i rest =>
  calc decode (encode i ++ rest)
    _ = decodeArgs (opcodeOfInstr i) i.cmdWord (i.argWords ++ rest) := decode_of_checkWord_ok (checkWord_cmdWord i) _
    _ = .ok (i, rest) := decodeArgs_cmdWord i rest

/-- Settles O4: each clause is the round trip of the command it names. -/
theorem writtenWordsDecode : Obligations.WrittenWordsDecode :=
  ⟨decodeOfEncode (.write32 0x104 0x50) [], decodeOfEncode (.waitBit true 0x4 0x100 20000) [],
    decodeOfEncode (.membusWrite .P 0x27 0x80) [], decodeOfEncode (.vcocalib 0x50 0x00100100) [],
    decodeOfEncode (.bringup .emulation .first) [], decodeOfEncode (.bringup .real .later) [0x00000140],
    decodeOfEncode (.getRate 3 0) []⟩

/-! ### From words to a command and back -/

/-- A legal command word is its opcode and the fields the opcode uses (R91, R94). -/
theorem eq_of_checkWord_ok {w : Word} {op : Opcode} (h : checkWord w = .ok op) :
    w = opByte op ||| w &&& op.usedBits := by
  obtain ⟨hop, hrsv, hunused⟩ := checkWord_eq_ok_iff.mp h
  rw [cmdRsv_eq_zero_iff] at hrsv
  have hused : (w &&& 0xF00) &&& op.usedBits = w &&& op.usedBits := by
    have hsub : 0xF00 &&& op.usedBits = op.usedBits := by cases op <;> rfl
    rw [BitVec.and_assoc, hsub]
  have hall : (0xFF ||| 0xF00 ||| 0xFFFFF000 : Word) = BitVec.allOnes 32 := rfl
  calc w
    _ = w &&& (0xFF ||| 0xF00 ||| 0xFFFFF000) := by rw [hall, BitVec.and_allOnes]
    _ = w &&& 0xFF ||| w &&& 0xF00 ||| w &&& 0xFFFFF000 := by
      rw [BitVec.and_or_distrib_left, BitVec.and_or_distrib_left]
    _ = opByte op ||| w &&& 0xF00 := by rw [← opcodeOf_eq_some_iff.mp hop, hrsv]; exact BitVec.or_zero
    _ = opByte op ||| (w &&& 0xF00) &&& (op.usedBits ||| ~~~op.usedBits) := by
      rw [BitVec.or_not_self, BitVec.and_allOnes]
    _ = opByte op ||| w &&& op.usedBits := by
      rw [BitVec.and_or_distrib_left, hunused, hused]
      exact congrArg (opByte op ||| ·) BitVec.or_zero

/-- What a decoder of one argument word took is the words it was given (R92). -/
theorem args1_ok {k : Word → Instr} {ws rest : List Word} {i : Instr} (h : args1 k ws = .ok (i, rest)) :
    ∃ a, i = k a ∧ ws = a :: rest := by
  unfold args1 at h
  split at h <;> cases h
  exact ⟨_, rfl, rfl⟩

theorem args2_ok {k : Word → Word → Instr} {ws rest : List Word} {i : Instr} (h : args2 k ws = .ok (i, rest)) :
    ∃ a b, i = k a b ∧ ws = a :: b :: rest := by
  unfold args2 at h
  split at h <;> cases h
  exact ⟨_, _, rfl, rfl⟩

theorem args3_ok {k : Word → Word → Word → Instr} {ws rest : List Word} {i : Instr}
    (h : args3 k ws = .ok (i, rest)) : ∃ a b c, i = k a b c ∧ ws = a :: b :: c :: rest := by
  unfold args3 at h
  split at h <;> cases h
  exact ⟨_, _, _, rfl, rfl⟩

/-- The words of the command that an opcode's operands decode to, the fields of the command word in place (R91, R92). -/
theorem encode_of_decodeArgs {op : Opcode} {w : Word} {ws rest : List Word} {i : Instr}
    (h : decodeArgs op w ws = .ok (i, rest)) : encode i ++ rest = (opByte op ||| w &&& op.usedBits) :: ws := by
  have hzero : ∀ v : Word, v ||| w &&& 0 = v := fun v => by simp
  cases op with
  | read32 | enable =>
    obtain ⟨a, rfl, rfl⟩ := args1_ok h
    exact congrArg (· :: _) (hzero _).symm
  | write32 | setBits | clrBits | vcocalib =>
    obtain ⟨a, b, rfl, rfl⟩ := args2_ok h
    exact congrArg (· :: _) (hzero _).symm
  | clksrcHz =>
    obtain ⟨a, b, c, rfl, rfl⟩ := args3_ok h
    exact congrArg (· :: _) (hzero _).symm
  | membusRead =>
    obtain ⟨a, rfl, rfl⟩ := args1_ok h
    simp [encode, Instr.cmdWord, Instr.argWords, opByte, Opcode.usedBits, fieldB_cmdB]
  | membusWrite =>
    obtain ⟨a, b, rfl, rfl⟩ := args2_ok h
    simp [encode, Instr.cmdWord, Instr.argWords, opByte, Opcode.usedBits, fieldB_cmdB]
  | waitBit =>
    obtain ⟨a, b, c, rfl, rfl⟩ := args3_ok h
    simp [encode, Instr.cmdWord, Instr.argWords, opByte, Opcode.usedBits, fieldB_cmdB]
  | applyCaltable | vcoHz =>
    cases h
    simp [encode, Instr.cmdWord, Instr.argWords, opByte, Opcode.usedBits, fieldB_cmdB]
  | bringup =>
    cases h
    simp [encode, Instr.cmdWord, Instr.argWords, opByte, Opcode.usedBits, BitVec.or_assoc, fieldBS_cmdBS]
  | getRate =>
    obtain ⟨a, rfl, rfl⟩ := args1_ok h
    exact congrArg (fun core => (0x42 ||| core) :: a :: rest) (fieldCore_cmdCore w)

/-- Settles O2: the decoder's check leaves no bit of the command word but those of its opcode and its operands. -/
theorem decodedWordsAreEncoding : Obligations.DecodedWordsAreEncoding := by
  intro ws i rest h
  cases ws with
  | nil => cases h
  | cons w ws =>
    cases hcheck : checkWord w with
    | error e => cases (decode_of_checkWord_error hcheck ws).symm.trans h
    | ok op =>
      rw [decode_of_checkWord_ok hcheck] at h
      rw [encode_of_decodeArgs h, ← eq_of_checkWord_ok hcheck]

/-! ### The step at the caller's queue (R78, R90, R280) -/

/-- Settles O5: the queue's words are those of the command issued. -/
theorem stepRunsDecodedCommand : Obligations.StepRunsDecodedCommand := fun _ _ _ hfault h =>
  step_of_issued hfault h

/-- Argument words fewer than the opcode asks for are waited for (R90, R92). -/
theorem decodeArgs_of_short {op : Opcode} {ws : List Word} (h : ws.length < op.nargs) (w : Word) :
    decodeArgs op w ws = .error .incomplete := by
  have h1 : ∀ k, ws.length < 1 → args1 k ws = .error .incomplete := by
    intro k hlt
    match ws, hlt with
    | [], _ => rfl
  have h2 : ∀ k, ws.length < 2 → args2 k ws = .error .incomplete := by
    intro k hlt
    match ws, hlt with
    | [], _ | [_], _ => rfl
  have h3 : ∀ k, ws.length < 3 → args3 k ws = .error .incomplete := by
    intro k hlt
    match ws, hlt with
    | [], _ | [_], _ | [_, _], _ => rfl
  cases op with
  | read32 | membusRead | getRate | enable => exact h1 _ h
  | write32 | setBits | clrBits | membusWrite | vcocalib => exact h2 _ h
  | waitBit | clksrcHz => exact h3 _ h
  | applyCaltable | bringup | vcoHz => exact absurd h (Nat.not_lt_zero _)

theorem argWords_length (i : Instr) : i.argWords.length = (opcodeOfInstr i).nargs := by cases i <;> rfl

/-- Settles O6: an empty queue holds no command, and a command's first words are its legal command word and too few
arguments. -/
theorem waitsForACommand : Obligations.WaitsForACommand := by
  intro s hfault
  refine ⟨step_of_cmds_nil hfault, fun i k hk hcmds => ?_⟩
  cases k with
  | zero => exact step_of_cmds_nil hfault hcmds
  | succ k =>
    have hshort : (i.argWords.take k).length < (opcodeOfInstr i).nargs := by
      rw [← argWords_length, List.length_take]
      have hlength : k + 1 < i.argWords.length + 1 := hk
      omega
    refine step_of_decode_incomplete (w := i.cmdWord) (rest := i.argWords.take k) hfault hcmds ?_
    rw [decode_of_checkWord_ok (checkWord_cmdWord i), decodeArgs_of_short hshort]

end Sys2Proof.Machine
end

section
/-!
Lines of text and the commands they stand for (R101, R102).
-/

namespace Sys2Proof.Machine

open Sys2Proof

/-- A program of two lines is the words of its lines' commands in order (R101). -/
theorem assemble_two {p : Params} {l l' : List Char} {is js : List Instr} (h : assembleLine p l = some is)
    (h' : assembleLine p l' = some js) : assemble p [l, l'] = some (is.flatMap encode ++ js.flatMap encode) := by
  simp [assemble, h, h']

/-- Settles O56: each line assembles to its commands, and each command to its words. -/
theorem linesAssemble : Obligations.LinesAssemble := by
  have hwait : assembleLine Config.paramsT "wait_bit STAT, 0x100, set, 20000".toList =
      some [.waitBit true 0x4 0x100 20000] := by decide +kernel
  have hbringup : assembleLine Config.paramsT "bringup real, later".toList = some [.bringup .real .later] := by
    decide +kernel
  have hrate : assembleLine Config.paramsT "get_rate MPU, core=3".toList = some [.getRate 3 0] := by decide +kernel
  have hforce : assembleLine Config.paramsT "force_bypass P".toList =
      some [.write32 0x220 0x7, .waitBit false 0x4 0x1 20000] := by decide +kernel
  have hclksrc : assembleLine Config.paramsT "clksrc_hz CORE01CTR, M.PLLC1, 0x20C".toList =
      some [.clksrcHz 0x34 0x10C 0x20C] := by decide +kernel
  have henable : assembleLine Config.paramsT "enable USB".toList = some [.enable 0xA] := by decide +kernel
  exact ⟨assemble_two hwait hbringup, assemble_two hrate hforce, assemble_two hclksrc henable⟩

end Sys2Proof.Machine
end

section
/-!
What every command keeps, and what only some commands change: the inputs, the queue, the sequencer, the storage
registers and the invariant (R20, R21, R46, R58, R71, R93).
-/

namespace Sys2Proof.Machine

open Sys2Proof

/-! ### The end of a command (R264, R267) -/

@[simp] theorem final_params (w : Word) (x : Res Result) : (x.final w).params = x.state.params := by cases x <;> rfl
@[simp] theorem final_cfg (w : Word) (x : Res Result) : (x.final w).cfg = x.state.cfg := by cases x <;> rfl
@[simp] theorem final_regs (w : Word) (x : Res Result) : (x.final w).regs = x.state.regs := by cases x <;> rfl
@[simp] theorem final_seq (w : Word) (x : Res Result) : (x.final w).seq = x.state.seq := by cases x <;> rfl
@[simp] theorem final_u (w : Word) (x : Res Result) : (x.final w).u = x.state.u := by cases x <;> rfl
@[simp] theorem final_diag (w : Word) (x : Res Result) : (x.final w).diag = x.state.diag := by cases x <;> rfl
@[simp] theorem final_cmds (w : Word) (x : Res Result) : (x.final w).cmds = x.state.cmds := by cases x <;> rfl
@[simp] theorem final_chan (w : Word) (x : Res Result) (b : Bank) : (x.final w).chan b = x.state.chan b := by
  cases x <;> cases b <;> rfl

/-- A lookup of a register ends in the state it began in, or in what the command makes of a register with the offset. -/
theorem withReg_state {α : Type} {P : State → Prop} {s : State} {off : Word} {f : Reg → Res α} (hs : P s)
    (hf : ∀ r, s.params.offset r = off → P (f r).state) : P (s.withReg off f).state := by
  cases hreg : s.params.regAt off with
  | none => rwa [withReg_none hreg]
  | some r =>
    obtain ⟨-, hoff⟩ := Params.regAt_some hreg
    rw [withReg_some hreg]
    exact hf r hoff

/-! ### Inputs, queue and fault record -/

/-- `t` has the inputs, the queue and the fault record of `s`. -/
def SameInputs (s t : State) : Prop := t.params = s.params ∧ t.cfg = s.cfg ∧ t.cmds = s.cmds ∧ t.fault = s.fault

theorem Keeps.sameInputs {s t : State} (h : Keeps s t) : SameInputs s t := ⟨h.params, h.cfg, h.cmds, h.fault⟩

theorem sameInputs_accessRelation : AccessRelation SameInputs where
  refl s := (Keeps.refl s).sameInputs
  trans := fun ⟨p, c, q, f⟩ ⟨p', c', q', f'⟩ => ⟨p'.trans p, c'.trans c, q'.trans q, f'.trans f⟩
  read s r := (readReg_keeps s r).sameInputs
  write s r v := (writeReg_keeps s r v).sameInputs
  move _ _ _ := ⟨rfl, rfl, rfl, rfl⟩
  note _ _ := ⟨rfl, rfl, rfl, rfl⟩
  clearDiag _ := ⟨rfl, rfl, rfl, rfl⟩

/-- No command changes an input or takes a queued word (R21, R93). -/
theorem exec_inputs {i : Instr} {s t : State} (h : exec i s = .next t) :
    t.params = s.params ∧ t.cfg = s.cfg ∧ t.cmds = s.cmds := by
  obtain ⟨x, hexec, hparams, hcfg, hcmds, -⟩ := sameInputs_accessRelation.exec i s
  cases hexec.symm.trans h
  exact ⟨(final_params ..).trans hparams, (final_cfg ..).trans hcfg, (final_cmds ..).trans hcmds⟩

/-! ### Results (R93) -/

/-- A command that ends with a result ends with one of the given ones. -/
def Returns (P : Result → Bool) : Res Result → Prop
  | .ok x _ => P x = true
  | .fault _ _ => True

theorem withReg_returns {P : Result → Bool} {s : State} {off : Word} {f : Reg → Res Result}
    (h : ∀ r, Returns P (f r)) : Returns P (s.withReg off f) := by
  unfold State.withReg
  split
  · trivial
  · exact h _

theorem returnHz_returns {P : Result → Bool} (h : ∀ v, P (.hz v) = true) (x : Res Hz) : Returns P (returnHz x) := by
  cases x with
  | ok v t => exact h v
  | fault k t => trivial

theorem bringup_returns {P : Result → Bool} (h : P .unit = true) (s : State) (mode : Mode) (stage : Stage) :
    Returns P (s.bringup mode stage) := by
  have hdone : ∀ x, Returns P (bringupDone x) := by
    intro x
    cases x with
    | ok _ t => exact h
    | fault k t => trivial
  unfold State.bringup
  split
  · exact hdone _
  · exact hdone _
  · dsimp only
    split
    · exact h
    · exact hdone _

/-- Every command ends with a result of its opcode or with a fault (R93). -/
theorem exec_returns (i : Instr) (s : State) : ∃ x, exec i s = finish i x ∧ Returns (resultAllowed i) x := by
  cases i with
  | read32 off => exact ⟨_, rfl, withReg_returns fun _ => rfl⟩
  | write32 off value => exact ⟨_, rfl, withReg_returns fun _ => rfl⟩
  | setBits off mask => exact ⟨_, rfl, withReg_returns fun _ => rfl⟩
  | clrBits off mask => exact ⟨_, rfl, withReg_returns fun _ => rfl⟩
  | waitBit wantSet off mask budget =>
    refine ⟨_, rfl, withReg_returns fun r => ?_⟩
    rcases State.poll r (senseMet wantSet mask) budget.toNat s with ⟨_ | _, t⟩ <;> rfl
  | membusWrite b a d =>
    refine ⟨_, rfl, ?_⟩
    rcases s.membusWrite b a d with ⟨_ | _, t⟩ <;> rfl
  | membusRead b a =>
    refine ⟨_, rfl, ?_⟩
    rcases s.membusRead b a with ⟨_ | v, t⟩ <;> rfl
  | applyCaltable b =>
    refine ⟨_, rfl, ?_⟩
    rcases s.applyCal b with ⟨_ | _, t⟩ <;> rfl
  | vcocalib pllm pllglob =>
    refine ⟨_, rfl, ?_⟩
    split
    · trivial
    · rfl
  | bringup mode stage => exact ⟨_, rfl, bringup_returns rfl s mode stage⟩
  | vcoHz b => exact ⟨_, rfl, returnHz_returns (fun _ => rfl) _⟩
  | clksrcHz sel mctr pctr =>
    refine ⟨_, rfl, ?_⟩
    split
    · exact returnHz_returns (fun _ => rfl) _
    · trivial
  | getRate core tag =>
    refine ⟨_, rfl, ?_⟩
    split
    · rfl
    · exact returnHz_returns (fun _ => rfl) _
  | enable tag => exact ⟨_, rfl, rfl⟩

/-- A command's result is one its opcode allows (R93). -/
theorem exec_resultAllowed {i : Instr} {s t : State} {r : Result} (h : exec i s = .next t) (hnone : t.fault = none)
    (hr : t.result = some r) : resultAllowed i r = true := by
  obtain ⟨x, hexec, hx⟩ := exec_returns i s
  cases hexec.symm.trans h
  cases x with
  | ok r' v =>
    cases hr
    exact hx
  | fault k v => cases hnone

/-- Settles O8: a command ends by returning one of its opcode's results, the fault record as it was, or by taking a
fault. -/
theorem resultsAreTheOpcodesOwn : Obligations.ResultsAreTheOpcodesOwn := by
  intro i s
  obtain ⟨t, ht⟩ := exec_next i s
  obtain ⟨-, -, hcmds⟩ := exec_inputs ht
  refine ⟨t, ht, hcmds, ?_⟩
  have hallowed := fun r => exec_resultAllowed (r := r) ht
  obtain ⟨x, hexec, -, -, -, hfault⟩ := sameInputs_accessRelation.exec i s
  cases hexec.symm.trans ht
  cases x with
  | ok r v =>
    replace hfault : v.fault = s.fault := hfault
    exact ⟨fun hs => .inl ⟨hfault.trans hs, r, rfl, hallowed r (hfault.trans hs) rfl⟩, fun hs => hfault ▸ hs⟩
  | fault k v => exact ⟨fun _ => .inr ⟨nofun, rfl⟩, fun _ => nofun⟩

/-! ### The sequencer (R46, R48) -/

theorem returnHz_keeps {s : State} {x : Res Hz} {o : Option Nat} {l : List StoreReg} (h : Computes x s o l) :
    Keeps s (returnHz x).state := by
  rw [h.2]
  cases o <;> exact ⟨rfl, rfl, rfl, rfl, rfl, rfl, rfl, rfl⟩

/-- Every command but BRINGUP touches no more of the CORE than its result and fault record (R20, R46). -/
theorem exec_keeps {i : Instr} (hi : ∀ m g, i ≠ .bringup m g) (s : State) :
    ∃ x, exec i s = finish i x ∧ Keeps s x.state := by
  have hrefl := Keeps.refl s
  cases i with
  | read32 off => exact ⟨_, rfl, withReg_state hrefl fun r _ => readReg_keeps s r⟩
  | write32 off value => exact ⟨_, rfl, withReg_state hrefl fun r _ => writeReg_keeps s r value⟩
  | setBits off mask => exact ⟨_, rfl, withReg_state hrefl fun r _ => setMask_keeps s r mask⟩
  | clrBits off mask => exact ⟨_, rfl, withReg_state hrefl fun r _ => clearMask_keeps s r mask⟩
  | waitBit wantSet off mask budget => exact ⟨_, rfl, withReg_state hrefl fun r _ => poll_keeps r _ _ s⟩
  | membusWrite b a d => exact ⟨_, rfl, (membusWrite_onlyBank s b a d).toKeeps⟩
  | membusRead b a =>
    refine ⟨_, rfl, ?_⟩
    have hread := (membusRead_onlyBank s b a).toKeeps
    rcases hend : s.membusRead b a with ⟨_ | _, t⟩ <;> rw [hend] at hread <;> exact hread
  | applyCaltable b => exact ⟨_, rfl, (applyCal_onlyBank s b).toKeeps⟩
  | vcocalib pllm pllglob =>
    refine ⟨_, rfl, ?_⟩
    split <;> exact hrefl
  | bringup mode stage => exact absurd rfl (hi mode stage)
  | vcoHz b => exact ⟨_, rfl, returnHz_keeps (vcoHz_computes s b)⟩
  | clksrcHz sel mctr pctr =>
    refine ⟨_, rfl, ?_⟩
    split
    · exact returnHz_keeps (clksrcHz_computes ..)
    · exact hrefl
  | getRate core tag =>
    refine ⟨_, rfl, ?_⟩
    split
    · exact hrefl
    · exact returnHz_keeps (rateHz_computes ..)
  | enable tag => exact ⟨_, rfl, hrefl⟩

/-- Settles O54: no other command's accesses move the sequencer. -/
theorem onlyBringupMovesTheSequencer : Obligations.OnlyBringupMovesTheSequencer := by
  intro s i hi
  obtain ⟨x, hexec, hkeeps⟩ := exec_keeps hi s
  exact ⟨_, hexec, (final_seq ..).trans hkeeps.seq, (final_u ..).trans hkeeps.u, (final_diag ..).trans hkeeps.diag⟩

/-! ### The storage registers (R58, R71) -/

/-- `t` has the storage registers of `s`, but for the one at offset `off`, if one is. -/
def ChangesAt (off : Word) (s t : State) : Prop :=
  t.regs = s.regs ∨ ∃ q v, s.params.offset (.store q) = off ∧ t.regs = s.regs.set q v

theorem writeReg_changesAt {s t : State} (hregs : t.regs = s.regs) {r : Reg} {off : Word}
    (h : s.params.offset r = off) (v : Word) : ChangesAt off s (t.writeReg r v) := by
  cases r with
  | store q => exact .inr ⟨q, v, h, by rw [writeReg_store, ← hregs]⟩
  | _ => exact .inl ((writeReg_regs_of_ne t v (by simp [Reg.cls])).trans hregs)

/-- A register that differs is the one at the offset. -/
theorem ChangesAt.offset_eq {off : Word} {s t : State} (h : ChangesAt off s t) {r : StoreReg}
    (hr : t.regs.get r ≠ s.regs.get r) : s.params.offset (.store r) = off := by
  rcases h with h | ⟨q, v, hoff, h⟩
  · exact absurd (congrArg (StoreFile.get · r) h) hr
  · by_cases hq : r = q
    · rwa [hq]
    · rw [h, StoreFile.get_set_of_ne _ _ hq] at hr
      exact absurd rfl hr

/-- The commands that write no storage register (R71). -/
def Instr.writesNoStorage : Instr → Bool
  | .write32 _ _ => false
  | .setBits _ _ => false
  | .clrBits _ _ => false
  | .bringup _ _ => false
  | _ => true

theorem returnHz_regs {s : State} {x : Res Hz} {o : Option Nat} {l : List StoreReg} (h : Computes x s o l) :
    (returnHz x).state.regs = s.regs := by
  rw [h.2]
  cases o <;> rfl

theorem exec_regs_of_writesNoStorage {i : Instr} (hi : Instr.writesNoStorage i = true) (s : State) :
    ∃ x, exec i s = finish i x ∧ x.state.regs = s.regs := by
  cases i with
  | read32 off => exact ⟨_, rfl, withReg_state (P := fun t => t.regs = s.regs) rfl fun r _ => readReg_regs s r⟩
  | waitBit wantSet off mask budget =>
    exact ⟨_, rfl, withReg_state (P := fun t => t.regs = s.regs) rfl fun r _ => poll_regs r _ _ s⟩
  | membusWrite b a d => exact ⟨_, rfl, (membusWrite_onlyBank s b a d).regs⟩
  | membusRead b a =>
    refine ⟨_, rfl, ?_⟩
    have hread := (membusRead_onlyBank s b a).regs
    rcases hend : s.membusRead b a with ⟨_ | _, t⟩ <;> rw [hend] at hread <;> exact hread
  | applyCaltable b => exact ⟨_, rfl, (applyCal_onlyBank s b).regs⟩
  | vcocalib pllm pllglob =>
    refine ⟨_, rfl, ?_⟩
    split <;> rfl
  | vcoHz b => exact ⟨_, rfl, returnHz_regs (vcoHz_computes s b)⟩
  | clksrcHz sel mctr pctr =>
    refine ⟨_, rfl, ?_⟩
    split
    · exact returnHz_regs (clksrcHz_computes ..)
    · rfl
  | getRate core tag =>
    refine ⟨_, rfl, ?_⟩
    split
    · rfl
    · exact returnHz_regs (rateHz_computes ..)
  | enable tag => exact ⟨_, rfl, rfl⟩
  | write32 | setBits | clrBits | bringup => cases hi

/-- A command that looks up its offset's register and writes that register alone changes no other one. -/
theorem offset_eq_of_regs_ne {i : Instr} {off : Word} {f : Reg → Res Result} {s t : State} {r : StoreReg}
    (h : finish i (s.withReg off f) = .next t) (hr : t.regs.get r ≠ s.regs.get r)
    (hf : ∀ r, s.params.offset r = off → ChangesAt off s (f r).state) : s.params.offset (.store r) = off := by
  have hchanges : ChangesAt off s (s.withReg off f).state := withReg_state (.inl rfl) hf
  cases h
  rw [final_regs] at hr
  exact hchanges.offset_eq hr

/-- Settles O55: WRITE32, SETBITS and CLRBITS write the register their offset names, and every other command but BRINGUP
writes no storage register. -/
theorem onlyWritesChangeStorage : Obligations.OnlyWritesChangeStorage := by
  intro s t i r h hr
  have hquiet : Instr.writesNoStorage i = true → t.regs = s.regs := by
    intro hi
    obtain ⟨x, hexec, hregs⟩ := exec_regs_of_writesNoStorage hi s
    cases hexec.symm.trans h
    exact (final_regs ..).trans hregs
  cases i with
  | write32 off v =>
    have hoff := offset_eq_of_regs_ne h hr fun q hq => writeReg_changesAt rfl hq v
    exact .inl ⟨v, by rw [hoff]⟩
  | setBits off m =>
    have hoff := offset_eq_of_regs_ne h hr fun q hq => writeReg_changesAt (readReg_regs s q) hq _
    exact .inr (.inl ⟨m, by rw [hoff]⟩)
  | clrBits off m =>
    have hoff := offset_eq_of_regs_ne h hr fun q hq => writeReg_changesAt (readReg_regs s q) hq _
    exact .inr (.inr (.inl ⟨m, by rw [hoff]⟩))
  | bringup m g => exact .inr (.inr (.inr ⟨m, g, rfl⟩))
  | _ => exact absurd (congrArg (StoreFile.get · r) (hquiet rfl)) hr

/-! ### Steps (R78, R264, R280) -/

/-- A step that goes on left the machine as it was, refused an illegal command word, or ran a queued command. -/
theorem step_next_cases {s t : State} (h : step s = .next t) :
    s.fault = none ∧ (t = s ∨ (∃ w, t = s.takeFault .illegalCommand w) ∨
      ∃ i rest, exec i { s with cmds := rest } = .next t) := by
  obtain hfault | ⟨q, hfault⟩ := Option.eq_none_or_eq_some s.fault
  · refine ⟨hfault, ?_⟩
    cases hcmds : s.cmds with
    | nil =>
      cases (step_of_cmds_nil hfault hcmds).symm.trans h
      exact .inl rfl
    | cons w rest =>
      by_cases hword : illegalWord w
      · cases (step_of_illegalWord hfault hcmds hword).symm.trans h
        exact .inr (.inl ⟨w, rfl⟩)
      · rcases step_of_not_illegalWord hfault hcmds hword with hwait | ⟨i, rest', hrun⟩
        · cases hwait.symm.trans h
          exact .inl rfl
        · exact .inr (.inr ⟨i, rest', hrun.symm.trans h⟩)
  · cases (step_of_fault hfault).symm.trans h

/-- Settles O53: a command keeps the inputs and only adds to the bus log; the other steps touch neither. -/
theorem stepKeepsInputsAndTraffic : Obligations.StepKeepsInputsAndTraffic := by
  intro s t h
  obtain ⟨-, rfl | ⟨w, rfl⟩ | ⟨i, rest, hexec⟩⟩ := step_next_cases h
  · exact ⟨rfl, rfl, [], rfl⟩
  · exact ⟨rfl, rfl, [], rfl⟩
  · obtain ⟨hparams, hcfg, -⟩ := exec_inputs hexec
    obtain ⟨l, hbus⟩ := exec_bus_suffix hexec
    exact ⟨hparams, hcfg, l, hbus.symm⟩

/-! ### The invariant (R46, R52, R53, R98) -/

/-- The invariant, with the two banks' membus sides together. -/
theorem inv_iff {s : State} :
    s.Inv ↔ s.params.accepted = true ∧ MemOk s ∧ (s.fault = none → s.seq.resting = true ∧ s.u = 0) := by
  have hmem : MemOk s ↔ Membus.ok s.params s.busM = true ∧ Membus.ok s.params s.busP = true :=
    ⟨fun h => ⟨h .M, h .P⟩, fun ⟨hM, hP⟩ b => by cases b <;> assumption⟩
  rw [hmem]
  simp only [State.Inv, and_assoc]

theorem sound_accessRelation : AccessRelation Sound where
  refl := Sound.refl
  trans := Sound.trans
  read := readReg_sound
  write := writeReg_sound
  move := at_sound
  note := note_sound
  clearDiag _ := Sound.ofChan rfl fun b => by cases b <;> rfl

/-- Every command keeps good membus sides (R52, R53). -/
theorem exec_memOk {i : Instr} {s t : State} (h : exec i s = .next t) (hmem : MemOk s) : MemOk t := by
  obtain ⟨x, hexec, hsound⟩ := sound_accessRelation.exec i s
  cases hexec.symm.trans h
  intro b
  rw [final_params, final_chan]
  exact hsound.mem hmem b

/-- A bring-up that raises no fault leaves the sequencer at rest (R46, R170). -/
theorem bringup_rests {s t : State} {mode : Mode} {stage : Stage} {r : Result} (h : s.bringup mode stage = .ok r t) :
    t.seq.resting = true ∧ t.u = 0 := by
  have hdone : ∀ x, bringupDone x = .ok r t → t.seq.resting = true ∧ t.u = 0 := by
    intro x hx
    cases x with
    | ok _ v =>
      cases hx
      exact ⟨rfl, rfl⟩
    | fault k v => cases hx
  unfold State.bringup at h
  split at h
  · exact hdone _ h
  · exact hdone _ h
  · dsimp only at h
    split at h
    · cases h
      exact ⟨rfl, rfl⟩
    · exact hdone _ h

/-- A command that raises no fault leaves a resting sequencer at rest (R46). -/
theorem exec_rests {i : Instr} {s t : State} (h : exec i s = .next t) (hnone : t.fault = none)
    (hrest : s.seq.resting = true ∧ s.u = 0) : t.seq.resting = true ∧ t.u = 0 := by
  by_cases hi : ∃ m g, i = .bringup m g
  · obtain ⟨mode, stage, rfl⟩ := hi
    cases hrun : s.bringup mode stage with
    | ok r v =>
      cases (exec_bringup_of_ok hrun).symm.trans h
      exact bringup_rests (t := v) hrun
    | fault k v =>
      have hfaults : exec (.bringup mode stage) s = .next (v.takeFault k (Instr.cmdWord (.bringup mode stage))) :=
        congrArg (finish (.bringup mode stage)) hrun
      cases hfaults.symm.trans h
      cases hnone
  · obtain ⟨x, hexec, hkeeps⟩ := exec_keeps (fun m g e => hi ⟨m, g, e⟩) s
    cases hexec.symm.trans h
    rw [final_seq, final_u, hkeeps.seq, hkeeps.u]
    exact hrest

/-- Settles O51: commands keep the membus sides good and the sequencer at rest; no other step touches them. -/
theorem stepKeepsInv : Obligations.StepKeepsInv := by
  intro s t hinv h
  obtain ⟨hnone, hcases⟩ := step_next_cases h
  obtain ⟨haccepted, hmem, hrest⟩ := inv_iff.mp hinv
  rcases hcases with rfl | ⟨w, rfl⟩ | ⟨i, rest, hexec⟩
  · exact hinv
  · refine inv_iff.mpr ⟨haccepted, fun b => ?_, nofun⟩
    rw [State.takeFault_params, State.takeFault_chan]
    exact hmem b
  · obtain ⟨hparams, -⟩ := exec_inputs hexec
    have hstart : MemOk { s with cmds := rest } := fun b => by cases b; exacts [hmem .M, hmem .P]
    exact inv_iff.mpr ⟨hparams ▸ haccepted, exec_memOk hexec hstart, fun ht => exec_rests hexec ht (hrest hnone)⟩

theorem resetWith_inv {p : Params} (c : BringUpConfig) (h : p.accepted = true) : (State.resetWith p c).Inv :=
  ⟨h, rfl, rfl, fun _ => ⟨rfl, rfl⟩⟩

/-- Settles O52: after reset the memories are empty, nothing is pending and the sequencer is idle. -/
theorem resetHasInv : Obligations.ResetHasInv :=
  ⟨resetWith_inv Config.cfgT (show Config.paramsT.accepted = true by decide +kernel), fun _ c => resetWith_inv c⟩

end Sys2Proof.Machine
end

section
/-!
READ32, SETBITS, CLRBITS and WAITBIT by register class (R120, R122 to R124).
-/

namespace Sys2Proof.Machine

open Sys2Proof

/-! ### READ32 (R120) -/

/-- READ32 of a register whose reads are draws (R23). -/
theorem exec_read32_drawn {s : State} {off : Word} {r : Reg} (h : s.params.regAt off = some r)
    (hdrawn : drawnReg s.params r) :
    exec (.read32 off) s = .next
      { s.skip 1 with bus := .read (s.addrOf r) (s.drawAt 0) :: s.bus, result := some (.word (s.drawAt 0)) } := by
  rw [exec_read32 h, readReg_drawn hdrawn]
  rfl

/-- A mailbox that is not its own status mirror reads as a draw (R22, R23). -/
theorem drawnReg_mem {p : Params} {b : Bank} (h : p.sharedPoll b = false) : drawnReg p (.mem b) :=
  ⟨by simp [polls, h], by simp [Reg.cls], by simp⟩

/-- READ32 of a bank's status mirror, also where the mirror is the mailbox itself (R22, R54). -/
theorem exec_read32_mempoll {s : State} (hlaid : s.params.laidOut = true) (b : Bank) :
    exec (.read32 (s.params.offset (.mempoll b))) s =
      .next ((s.readReg (.mempoll b)).2.returns (.word (s.readReg (.mempoll b)).1)) := by
  obtain ⟨haligned, hdistinct, -⟩ := Params.laidOut_parts hlaid
  have hmirror : s.readReg (if s.params.sharedPoll b then .mem b else .mempoll b) = s.readReg (.mempoll b) := by
    split
    case isTrue hshared => exact readReg_shared hshared
    case isFalse => rfl
  rw [exec_read32 (Params.regAt_mempoll haligned hdistinct b), hmirror]

/-- A read of a status mirror with nothing pending answers the draw with REQ clear (R54). -/
theorem readPoll_idle {s : State} {b : Bank} (h : (s.chan b).pending = none) :
    s.readReg (.mempoll b) = (s.drawAt 0 &&& ~~~s.params.mbxReq,
      (s.skip 1).logRead (.mempoll b) (s.drawAt 0 &&& ~~~s.params.mbxReq)) := by
  rcases answerPoll_cases s b with ⟨-, hanswer⟩ | ⟨q, hq, -⟩
  · rw [readReg_mempoll, hanswer, draw_eq]
  · cases h.symm.trans hq

/-- Settles O9: the offset names its register, and the read answers what that register's class says. -/
theorem read32ByRegisterClass : Obligations.Read32ByRegisterClass := by
  intro s hlaid
  obtain ⟨haligned, hdistinct, -⟩ := Params.laidOut_parts hlaid
  refine ⟨fun r => ?storage, fun r hr => ?drawn, fun b => ?memstat, fun b hidle => ?idlePoll,
    fun b q hq => ?pendingPoll, fun off hoff => ?invalid⟩
  case storage => exact exec_read32 (Params.regAt_store haligned hdistinct r)
  case drawn =>
    have hother : (∀ b, r ≠ .mem b) → (∀ b, r ≠ .mempoll b) → s.params.regAt (s.params.offset r) = some r :=
      Params.regAt_other haligned hdistinct
    rcases hr with rfl | rfl | ⟨b, rfl⟩ | ⟨b, rfl, hshared⟩
    · exact exec_read32_drawn (hother nofun nofun) (drawnReg_stat _)
    · exact exec_read32_drawn (hother nofun nofun) (drawnReg_intr _)
    · exact exec_read32_drawn (hother nofun nofun) (drawnReg_lostlock _ b)
    · exact exec_read32_drawn (Params.regAt_mem haligned hdistinct b) (drawnReg_mem hshared)
  case memstat => exact exec_read32_memstat hlaid b
  case idlePoll =>
    rw [exec_read32_mempoll hlaid, readPoll_idle hidle]
    rfl
  case pendingPoll =>
    rw [exec_read32_mempoll hlaid, readPoll_pending hq]
    by_cases hdone : s.drawAt 0 &&& s.params.mbxReq = 0
    · rw [if_pos (by simpa [reqClear] using hdone), perform_eq]
      simp only [hdone, if_true]
      cases b <;> rfl
    · rw [if_neg (by simpa [reqClear] using hdone)]
      simp only [hdone, if_false]
      cases b <;> rfl
  case invalid => exact finish_withReg_of_invalid hoff (.read32 off) _

/-! ### Storage registers (R23, R58) -/

/-- Settles O13: the offset names the storage register, which is read and then written. -/
theorem setClrBitsOfStorage : Obligations.SetClrBitsOfStorage := by
  intro s r mask hlaid
  obtain ⟨haligned, hdistinct, -⟩ := Params.laidOut_parts hlaid
  have hreg := Params.regAt_store haligned hdistinct r
  refine ⟨?_, ?_⟩
  · rw [exec_setBits hreg]
    rfl
  · rw [exec_clrBits hreg]
    rfl

/-- Settles O14: the three commands act on the two registers their offsets name, and a register file reads as last
written. -/
theorem storageReadsBack : Obligations.StorageReadsBack := by
  intro s r r' v w hlaid hne
  obtain ⟨haligned, hdistinct, -⟩ := Params.laidOut_parts hlaid
  have hstore := fun q : StoreReg => Params.regAt_store haligned hdistinct q
  refine ⟨_, _, _, exec_write32 (hstore r), exec_write32 (hstore r'), exec_read32 (hstore r), ?_, fun x hx hx' => ?_⟩
  · show some (Result.word (((s.regs.set r v).set r' w).get r)) = _
    rw [StoreFile.get_set_of_ne _ _ (Ne.symm hne), StoreFile.get_set_self]
  · show ((s.regs.set r v).set r' w).get x = _
    rw [StoreFile.get_set_of_ne _ _ hx', StoreFile.get_set_of_ne _ _ hx]

/-! ### WAITBIT on a drawn register (R124) -/

/-- Settles O17: every read is a draw, so the draws say which read is the first to meet the sense, or that none does. -/
theorem waitBitCountsItsReads : Obligations.WaitBitCountsItsReads := by
  intro s r w mask n hlaid hr
  obtain ⟨haligned, hdistinct, -⟩ := Params.laidOut_parts hlaid
  have hreg : s.params.regAt (s.params.offset r) = some r ∧ drawnReg s.params r := by
    rcases hr with rfl | rfl | ⟨b, rfl⟩
    · exact ⟨Params.regAt_other haligned hdistinct nofun nofun, drawnReg_stat _⟩
    · exact ⟨Params.regAt_other haligned hdistinct nofun nofun, drawnReg_intr _⟩
    · exact ⟨Params.regAt_other haligned hdistinct nofun nofun, drawnReg_lostlock _ b⟩
  obtain ⟨hoff, hdrawn⟩ := hreg
  have hunmet : ∀ j, s.drawAt j &&& mask ≠ (if w then mask else 0) → senseMet w mask (s.drawAt j) = false :=
    fun j hj => Bool.eq_false_iff.mpr fun h => hj ((senseMet_iff ..).mp h)
  refine ⟨fun k hk hno hyes => ?_, fun hno => ?_⟩
  · rw [exec_waitBit hoff,
      poll_drawn_ok hdrawn hk (fun j hj => hunmet j (hno j hj)) ((senseMet_iff ..).mpr hyes)]
    rfl
  · rw [exec_waitBit hoff, poll_drawn_timeout hdrawn fun j hj => hunmet j (hno j hj)]
    rfl

end Sys2Proof.Machine
end

section
/-!
Membus requests met with nothing pending, by how many polls they take (R53, R54, R140 to R142).
-/

namespace Sys2Proof.Machine

open Sys2Proof

/-! ### One request -/

/-- `s` after a mailbox write of `w` on bank `b` and `n` polls, the bank's membus side being `c` then. -/
def State.afterRequest (s : State) (b : Bank) (w : Word) (n : Nat) (c : Membus) : State :=
  { (s.skip n).setChan b c with
    bus := (List.range n).reverse.map (fun j => .read (s.addrOf (.mempoll b)) (s.drawAt j))
      ++ .write (s.addrOf (.mem b)) w :: s.bus }

theorem afterRequest_chan (s : State) (b : Bank) (w : Word) (n : Nat) (c : Membus) :
    (s.afterRequest b w n c).chan b = c := by
  cases b <;> rfl

theorem afterRequest_bus (s : State) (b : Bank) (w : Word) (n : Nat) (c : Membus) :
    (s.afterRequest b w n c).bus =
      (List.range n).reverse.map (fun j => .read (s.addrOf (.mempoll b)) (s.drawAt j))
        ++ .write (s.addrOf (.mem b)) w :: s.bus := rfl

section
variable {s : State} {b : Bank} {w : Word} (hword : reqClear s.params w = false) (hidle : (s.chan b).pending = none)
include hword hidle

theorem writeMem_drawAt (j : Nat) : (s.writeReg (.mem b) w).drawAt j = s.drawAt j := by
  rw [writeMem_idle hword hidle]
  cases b <;> rfl

theorem writeMem_pending : ((s.writeReg (.mem b) w).chan b).pending = some (requestOf s.params w) := by
  rw [writeMem_idle hword hidle, State.setChan_chan_self]

/-- A request whose `k`-th poll is the first to read REQ clear is performed then (R54, R141). -/
theorem request_done {k : Nat} (hk : k < s.params.membusBudget)
    (hno : ∀ j, j < k → s.drawAt j &&& s.params.mbxReq ≠ 0) (hyes : s.drawAt k &&& s.params.mbxReq = 0) :
    (s.writeReg (.mem b) w).membusPoll b =
      (true, s.afterRequest b w (k + 1) ((s.chan b).performed (requestOf s.params w))) := by
  have hparams := writeReg_params s (.mem b) w
  have hset : ∀ j, j < k → reqClear (s.writeReg (.mem b) w).params ((s.writeReg (.mem b) w).drawAt j) = false := by
    intro j hj
    rw [writeMem_drawAt hword hidle, hparams]
    simpa [reqClear] using hno j hj
  have hclear : reqClear (s.writeReg (.mem b) w).params ((s.writeReg (.mem b) w).drawAt k) = true := by
    rw [writeMem_drawAt hword hidle, hparams]
    simpa [reqClear] using hyes
  rw [membusPoll_done (writeMem_pending hword hidle) (by rwa [hparams]) hset hclear, perform_eq,
    writeMem_idle hword hidle]
  cases b <;> cases hwr : (requestOf s.params w).wr <;> simp only [Membus.performed, hwr] <;> rfl

/-- A request none of whose polls reads REQ clear stays pending (R61, R141). -/
theorem request_timeout (hno : ∀ j, j < s.params.membusBudget → s.drawAt j &&& s.params.mbxReq ≠ 0) :
    (s.writeReg (.mem b) w).membusPoll b =
      (false, s.afterRequest b w s.params.membusBudget
        { s.chan b with pending := some (requestOf s.params w) }) := by
  have hparams := writeReg_params s (.mem b) w
  have hset : ∀ j, j < (s.writeReg (.mem b) w).params.membusBudget →
      reqClear (s.writeReg (.mem b) w).params ((s.writeReg (.mem b) w).drawAt j) = false := by
    intro j hj
    rw [hparams] at hj
    rw [writeMem_drawAt hword hidle, hparams]
    simpa [reqClear] using hno j hj
  rw [membusPoll_timeout (writeMem_pending hword hidle) hset, hparams, writeMem_idle hword hidle]
  cases b <;> rfl

end

/-! ### What a request does to the membus side of its bank (R53, R54, R95, R96) -/

section
variable {p : Params} (haccepted : p.accepted = true)
include haccepted

/-- The mailbox words of an accepted configuration are requests (R53, R98). -/
theorem mailboxWords_not_clear (a d : Word) :
    reqClear p (p.mbxW a d) = false ∧ reqClear p (p.mbxR a) = false := by
  obtain ⟨hbits, -⟩ := (Params.accepted_iff p).mp haccepted
  exact ⟨mbxW_not_clear hbits a d, mbxR_not_clear hbits a⟩

/-- A write request performed stores its data (R54, R95). -/
theorem performed_mbxW (c : Membus) (a d : Word) :
    c.performed (requestOf p (p.mbxW a d)) =
      { c with
        cal := c.cal.write (requestRef p (p.mbxW a d)).a.toNat (requestRef p (p.mbxW a d)).d
        pending := none } := by
  rw [Membus.performed, if_pos (requestOf_mbxW_wr haccepted a d), requestOf_ref]

/-- A read request performed leaves the memory's word in memstat (R54, R96). -/
theorem performed_mbxR (c : Membus) (a : Word) :
    c.performed (requestOf p (p.mbxR a)) =
      { c with memstat := c.cal.read (p.calAddr a).toNat, pending := none } := by
  rw [requestOf_mbxR (accepted_layout haccepted)]
  rfl

end

/-! ### The commands -/

/-- Settles O20: the command is one write request, performed at its `k`-th poll. -/
theorem membusWriteStores : Obligations.MembusWriteStores := by
  intro s b a d k haccepted hidle hk hno hyes
  obtain ⟨hword, -⟩ := mailboxWords_not_clear haccepted a d
  refine ⟨?_, fun hfits => ?_⟩
  · have hpoll : s.membusWrite b a d = _ := request_done hword hidle hk hno hyes
    rw [exec_membusWrite, hpoll, performed_mbxW haccepted]
    rfl
  · rw [← requestOf_ref, requestOf_mbxW (accepted_layout haccepted) a hfits]
    rfl

/-- Settles O21: the command is one read request, performed at its `k`-th poll, and a read of memstat. -/
theorem membusReadReturns : Obligations.MembusReadReturns := by
  intro s b a k haccepted hidle hk hno hyes
  obtain ⟨-, hword⟩ := mailboxWords_not_clear haccepted a 0
  rw [exec_membusRead_of_done (request_done hword hidle hk hno hyes), performed_mbxR haccepted, readReg_memstat,
    afterRequest_chan]
  cases b <;> rfl

/-- Settles O22: either command is one request, pending after its budget of polls. -/
theorem membusTimeoutLeavesRequestPending : Obligations.MembusTimeoutLeavesRequestPending := by
  intro s b a d haccepted hidle hno
  obtain ⟨hwrite, hread⟩ := mailboxWords_not_clear haccepted a d
  refine ⟨?_, ?_⟩
  · have hpoll : s.membusWrite b a d = _ := request_timeout hwrite hidle hno
    rw [exec_membusWrite, hpoll, requestOf_ref]
    rfl
  · rw [exec_membusRead_of_timeout (request_timeout hread hidle hno), requestOf_mbxR (accepted_layout haccepted)]
    rfl

/-- A membus command ends in a state its bank's accesses alone lead to, with a result (R140, R142, R144). -/
theorem exec_membusCommand {s : State} {b : Bank} {a d : Word} {i : Instr}
    (hi : i = .membusWrite b a d ∨ i = .membusRead b a ∨ i = .applyCaltable b) :
    ∃ v r, exec i s = .next (v.returns r) ∧ OnlyBank b s v ∧ Traffic (Txn.writesOnlyMem s.params b) s v := by
  rcases hi with rfl | rfl | rfl
  · exact ⟨_, _, exec_membusWrite b a d s, membusWrite_onlyBank s b a d, request_writesOnlyMem s b _⟩
  · have honly := membusRead_onlyBank s b a
    have htraffic := membusRead_writesOnlyMem s b a
    rw [membusRead_eq] at honly htraffic
    rcases hpoll : (s.writeReg (.mem b) (s.params.mbxR a)).membusPoll b with ⟨_ | _, t⟩ <;>
      rw [hpoll] at honly htraffic
    · exact ⟨_, _, exec_membusRead_of_timeout hpoll, honly, htraffic⟩
    · exact ⟨_, _, exec_membusRead_of_done hpoll, honly, htraffic⟩
  · exact ⟨_, _, exec_applyCaltable b s, applyCal_onlyBank s b, applyCal_writesOnlyMem s b⟩

/-- Settles O23: the command's accesses are its bank's, and the only ones that write are of the mailbox. -/
theorem membusCommandsTouchOneBank : Obligations.MembusCommandsTouchOneBank := by
  intro s b b' a d i hi hne
  obtain ⟨v, r, hexec, honly, l, hbus, hwrites⟩ := exec_membusCommand (s := s) hi
  refine ⟨v.returns r, hexec, honly.params, honly.cfg, honly.regs, ?_, honly.seq, honly.u, honly.diag, honly.fault,
    honly.cmds, l, hbus, fun x hx hwrite => ?_⟩
  · rw [State.returns_chan]
    exact honly.other b' hne
  · have haddr := hwrites x hx
    cases x with
    | read addr w => cases hwrite
    | write addr w => exact ⟨w, congrArg (Txn.write · w) haddr⟩

end Sys2Proof.Machine
end

section
/-!
APPLY_CALTABLE: a table in time, a table stopped, and a table applied twice (R144 to R146).
-/

namespace Sys2Proof.Machine

open Sys2Proof

/-! ### A table whose every poll is done at once (R144) -/

/-- Between `s` and `t` lie `draws` draws and `txns` transactions, `writes` of them writes. -/
structure Spends (draws txns writes : Nat) (s t : State) : Prop where
  tape : t.tape = (s.skip draws).tape
  drawn : t.drawn = (s.skip draws).drawn
  bus : ∃ l, t.bus = l ++ s.bus ∧ l.length = txns ∧ (l.filter fun x => !x.isRead).length = writes

theorem Spends.refl (s : State) : Spends 0 0 0 s s := ⟨by simp, by simp, [], rfl, rfl, rfl⟩

/-- The draws that come after some are spent. -/
theorem Spends.drawAt {n k m : Nat} {s t : State} (h : Spends n k m s t) (j : Nat) :
    t.drawAt j = s.drawAt (n + j) := by
  rw [← drawAt_skip]
  simp only [State.drawAt, h.tape, h.drawn]

theorem Spends.trans {n k m n' k' m' : Nat} {s t v : State} (h : Spends n k m s t) (g : Spends n' k' m' t v) :
    Spends (n + n') (k + k') (m + m') s v := by
  obtain ⟨l, hl, hlength, hwrites⟩ := h.bus
  obtain ⟨l', hl', hlength', hwrites'⟩ := g.bus
  have hskip : (t.skip n').tape = ((s.skip n).skip n').tape ∧ (t.skip n').drawn = ((s.skip n).skip n').drawn := by
    simp only [State.skip, h.tape, h.drawn, and_self]
  rw [skip_skip] at hskip
  refine ⟨g.tape.trans hskip.1, g.drawn.trans hskip.2, l' ++ l, by rw [hl', hl, List.append_assoc], ?_, ?_⟩
  · rw [List.length_append, hlength, hlength', Nat.add_comm]
  · rw [List.filter_append, List.length_append, hwrites, hwrites', Nat.add_comm]

/-- A request done at its first poll takes one draw and two transactions (R140, R142). -/
theorem afterRequest_spends (s : State) (b : Bank) (w : Word) (c : Membus) :
    Spends 1 2 1 s (s.afterRequest b w 1 c) := by
  refine ⟨?_, ?_, [.read (s.addrOf (.mempoll b)) (s.drawAt 0), .write (s.addrOf (.mem b)) w], rfl, rfl, rfl⟩ <;>
    cases b <;> rfl

theorem readMemstat_spends (s : State) (b : Bank) : Spends 0 1 0 s (s.readReg (.memstat b)).2 := by
  refine ⟨?_, ?_, [_], readReg_bus s (.memstat b), rfl, rfl⟩ <;> simp

section
variable {s : State} {b : Bank} (haccepted : s.params.accepted = true) (hidle : (s.chan b).pending = none)
  (hbudget : 0 < s.params.membusBudget) (hdone : s.drawAt 0 &&& s.params.mbxReq = 0)
include haccepted hidle hbudget hdone

/-- A membus write done at its first poll (R140). -/
theorem membusWrite_at_once (a d : Word) :
    (s.membusWrite b a d).1 = true ∧ Spends 1 2 1 s (s.membusWrite b a d).2 ∧
      ((s.membusWrite b a d).2.chan b).pending = none := by
  obtain ⟨hword, -⟩ := mailboxWords_not_clear haccepted a d
  have hpoll : s.membusWrite b a d = _ := request_done hword hidle hbudget (by simp) hdone
  rw [hpoll]
  refine ⟨rfl, afterRequest_spends .., ?_⟩
  rw [afterRequest_chan, performed_mbxW haccepted]

/-- A membus read done at its first poll, memstat read after it (R142). -/
theorem membusRead_at_once (a : Word) :
    ∃ v, (s.membusRead b a).1 = some v ∧ Spends 1 3 1 s (s.membusRead b a).2 ∧
      ((s.membusRead b a).2.chan b).pending = none := by
  obtain ⟨-, hword⟩ := mailboxWords_not_clear haccepted a 0
  rw [membusRead_eq, request_done hword hidle hbudget (by simp) hdone]
  refine ⟨_, rfl, (afterRequest_spends ..).trans (readMemstat_spends ..), ?_⟩
  simp only [if_true, readReg_memstat, State.logRead_chan, afterRequest_chan, performed_mbxR haccepted]

end

/-- An entry whose two requests are done in time goes on with the rest of the table (R144). -/
theorem applyTable_cons_of_done {s : State} {b : Bank} {e : CalEntry} {old : Word} (es : List CalEntry)
    (hread : (s.membusRead b e.addrOffset).1 = some old)
    (hwrite : ((s.membusRead b e.addrOffset).2.membusWrite b e.addrOffset (calUpdate e old)).1 = true) :
    State.applyTable b (e :: es) s =
      State.applyTable b es ((s.membusRead b e.addrOffset).2.membusWrite b e.addrOffset (calUpdate e old)).2 := by
  rw [State.applyTable]
  rcases hx : s.membusRead b e.addrOffset with ⟨answer, t⟩
  rw [hx] at hread hwrite
  obtain rfl : answer = some old := hread
  dsimp only at hwrite ⊢
  rcases hy : t.membusWrite b e.addrOffset (calUpdate e old) with ⟨done, v⟩
  rw [hy] at hwrite
  obtain rfl : done = true := hwrite
  rfl

/-- A table whose every poll is done at its first read is applied whole, two draws and five transactions an entry. -/
theorem applyTable_at_once {b : Bank} (es : List CalEntry) {s : State} (haccepted : s.params.accepted = true)
    (hidle : (s.chan b).pending = none) (hbudget : 0 < s.params.membusBudget)
    (hdone : ∀ j, j < 2 * es.length → s.drawAt j &&& s.params.mbxReq = 0) :
    (State.applyTable b es s).1 = true ∧
      Spends (2 * es.length) (5 * es.length) (2 * es.length) s (State.applyTable b es s).2 := by
  induction es generalizing s with
  | nil => exact ⟨rfl, Spends.refl s⟩
  | cons e es ih =>
    rw [List.length_cons] at hdone
    obtain ⟨old, hread, hspent, hidle'⟩ :=
      membusRead_at_once haccepted hidle hbudget (hdone 0 (by omega)) e.addrOffset
    have hparams := (membusRead_onlyBank s b e.addrOffset).params
    obtain ⟨hwrite, hspent', hidle''⟩ := membusWrite_at_once (by rwa [hparams]) hidle' (by rwa [hparams])
      (by rw [hspent.drawAt, hparams]; exact hdone 1 (by omega)) e.addrOffset (calUpdate e old)
    rw [applyTable_cons_of_done es hread hwrite]
    generalize hv : ((s.membusRead b e.addrOffset).2.membusWrite b e.addrOffset (calUpdate e old)).2 = v at *
    have hentry := hspent.trans hspent'
    have hvparams : v.params = s.params := by
      rw [← hv]
      exact (membusWrite_onlyBank ..).params.trans hparams
    obtain ⟨hrest, hspentRest⟩ := ih (s := v) (by rwa [hvparams]) hidle'' (by rwa [hvparams]) fun j hj => by
      rw [hentry.drawAt, hvparams]
      exact hdone _ (by omega)
    have hall := hentry.trans hspentRest
    rw [List.length_cons]
    refine ⟨hrest, ?_⟩
    convert hall using 1 <;> omega

/-- Settles O24: the whole table is applied, and what it does to the memory is its image. -/
theorem applyCaltableAppliesTheTable : Obligations.ApplyCaltableAppliesTheTable := by
  intro s b haccepted hidle hbudget hdone
  obtain ⟨hwhole, hspent⟩ := applyTable_at_once s.params.calTable haccepted hidle hbudget hdone
  obtain ⟨hcal, hpending⟩ := applyTable_chan haccepted b s.params.calTable s rfl hidle hwhole
  have hregs := (applyCal_onlyBank s b).regs
  refine ⟨_, exec_applyCaltable b s, ?_, ?_, ?_, hspent.tape, hspent.drawn, hregs, hspent.bus⟩
  · show some (okOrTimeout (s.applyCal b).1) = _
    rw [show (s.applyCal b).1 = true from hwhole]
    rfl
  · rw [State.returns_chan]
    exact hcal
  · rw [State.returns_chan]
    exact hpending

/-! ### How a table ends (R144, R146) -/

/-- A write to the bus log changes nothing of what settling leaves on the membus sides (R53). -/
theorem settle_logWrite_chan (s : State) (b : Bank) (r : Reg) (w : Word) :
    ((s.logWrite r w).settle b).chan b = (s.settle b).chan b := by
  have hdraw : (s.logWrite r w).draw.1 = s.draw.1 := by
    rw [draw_eq, draw_eq]
    rfl
  have hchan : (s.logWrite r w).chan b = s.chan b := State.logWrite_chan ..
  rcases settle_cases s b with ⟨hidle, hs⟩ | ⟨q, hq, ⟨hs, hbit⟩ | ⟨hs, hbit⟩⟩ <;>
    rcases settle_cases (s.logWrite r w) b with ⟨hidle', hs'⟩ | ⟨q', hq', ⟨hs', hbit'⟩ | ⟨hs', hbit'⟩⟩ <;>
    simp_all [perform_eq]

/-- With nothing pending there is nothing to settle on the membus sides; what is pending is performed or dropped (R53). -/
theorem settledMemory_cases (s : State) (b : Bank) :
    ((s.chan b).pending = none → ((s.settle b).chan b).cal = (s.chan b).cal) ∧
      ∀ q, (s.chan b).pending = some q →
        ((s.settle b).chan b).cal = (s.chan b).cal ∨ ((s.settle b).chan b).cal = ((s.chan b).performed q).cal := by
  refine ⟨fun hidle => by rw [settle_idle hidle], fun q hq => ?_⟩
  rcases settle_chan_cases s b with h | ⟨q', hq', h⟩
  · exact .inl (by rw [h])
  · cases hq.symm.trans hq'
    exact .inr (by rw [h])

/-- A table that stops leaves the request it stopped at pending (R61). -/
theorem tableStops_pending {s t : State} {b : Bank} {es : List CalEntry} {m₀ : Memory}
    (h : s.tableStops b es m₀ t) : (t.chan b).pending ≠ none := by
  obtain ⟨_, _, _, _, _, _, _, _, hpending, _⟩ := h
  rw [hpending]
  exact nofun

/-- The result a command leaves is no part of how a table stopped. -/
theorem tableStops_returns {s t : State} {b : Bank} {es : List CalEntry} {m₀ : Memory} (x : Result)
    (h : s.tableStops b es m₀ t) : s.tableStops b es m₀ (t.returns x) := by
  unfold State.tableStops
  rw [State.returns_chan, State.returns_bus]
  exact h

/-- Settles O25, by how the table's application ends. -/
theorem applyCaltableStopsAtATimeout : Obligations.ApplyCaltableStopsAtATimeout := by
  intro s b haccepted
  refine ⟨fun hempty => ?empty, fun e es htable hidle hno => ?firstRead, ?ends⟩
  case empty =>
    rw [exec_applyCaltable, State.applyCal, hempty]
    rfl
  case firstRead =>
    obtain ⟨-, hword⟩ := mailboxWords_not_clear haccepted e.addrOffset 0
    have hpoll := request_timeout hword hidle hno
    have hcal : s.applyCal b = (false, ((s.writeReg (.mem b) (s.params.mbxR e.addrOffset)).membusPoll b).2) := by
      rw [State.applyCal, htable, State.applyTable, membusRead_eq, hpoll]
      rfl
    rw [exec_membusRead_of_timeout hpoll, exec_applyCaltable, hcal, hpoll]
    rfl
  case ends =>
    obtain ⟨hidle, hpending⟩ := settledMemory_cases s b
    obtain ⟨hwhole, hstops⟩ := applyTable_outcome haccepted b s.params.calTable s rfl ((s.settle b).chan b).cal
      fun w => by rw [settle_logWrite_chan]
    refine ⟨_, ((s.settle b).chan b).cal, exec_applyCaltable b s, (applyCal_onlyBank s b).regs, hidle, hpending, ?_⟩
    rw [State.returns_chan]
    cases hend : (s.applyCal b).1 with
    | true => exact .inl ⟨rfl, hwhole hend⟩
    | false =>
      have hstop := hstops hend
      exact .inr ⟨rfl, tableStops_pending hstop, tableStops_returns _ hstop⟩

end Sys2Proof.Machine
end

section
/-!
The calibration table as a map of the memory, and the map applied twice (R145).
-/

namespace Sys2Proof.Machine

open Sys2Proof

/-! ### Words bit by bit -/

/-- Each bit of the value is the argument's bit, or the same for every argument. -/
def BitwiseFixed (g : Word → Word) : Prop :=
  ∀ i, (∀ x, (g x).getLsbD i = x.getLsbD i) ∨ ∃ c, ∀ x, (g x).getLsbD i = c

theorem BitwiseFixed.id : BitwiseFixed fun x => x := fun _ => .inl fun _ => rfl

theorem BitwiseFixed.comp {g h : Word → Word} (hg : BitwiseFixed g) (hh : BitwiseFixed h) :
    BitwiseFixed fun x => g (h x) := by
  intro i
  rcases hg i with hg | ⟨c, hg⟩
  · rcases hh i with hh | ⟨c, hh⟩
    · exact .inl fun x => (hg _).trans (hh x)
    · exact .inr ⟨c, fun x => (hg _).trans (hh x)⟩
  · exact .inr ⟨c, fun x => hg _⟩

/-- Applied twice, such a map is as applied once. -/
theorem BitwiseFixed.idempotent {g : Word → Word} (h : BitwiseFixed g) (x : Word) : g (g x) = g x := by
  refine BitVec.eq_of_getLsbD_eq fun i _ => ?_
  rcases h i with h | ⟨c, h⟩
  · exact h _
  · rw [h, h]

/-- An entry's map of a calibration word: each bit is set by the value, cleared by the mask, or left (R145). -/
theorem entry_bitwiseFixed (mask value calMask : Word) :
    BitwiseFixed fun x => ((x &&& ~~~mask) ||| value) &&& calMask := by
  intro i
  simp only [BitVec.getLsbD_and, BitVec.getLsbD_or, BitVec.getLsbD_not]
  by_cases hi : i < 32
  · cases mask.getLsbD i <;> cases value.getLsbD i <;> cases calMask.getLsbD i <;> simp [hi]
  · simp [BitVec.getLsbD_of_ge _ i (Nat.le_of_not_lt hi)]

/-! ### The table at one address -/

/-- What a list of entries makes of the word at address `a` (R145). -/
def tableWord (p : Params) (a : Nat) : List CalEntry → Word → Word
  | [], x => x
  | e :: es, x =>
    tableWord p a es
      (if a = (p.calAddr e.addrOffset).toNat then ((x &&& ~~~e.mask) ||| e.value) &&& p.calMask else x)

theorem tableWord_bitwiseFixed (p : Params) (a : Nat) (es : List CalEntry) : BitwiseFixed (tableWord p a es) := by
  induction es with
  | nil => exact BitwiseFixed.id
  | cons e es ih =>
    by_cases ha : a = (p.calAddr e.addrOffset).toNat
    · simp only [tableWord, if_pos ha]
      exact ih.comp (entry_bitwiseFixed e.mask e.value p.calMask)
    · simp only [tableWord, if_neg ha]
      exact ih

/-- A table keeps the canonical form of a memory. -/
theorem tableRef_wf {p : Params} (es : List CalEntry) {m : Memory} (h : m.wf = true) : (tableRef p es m).wf = true := by
  induction es generalizing m with
  | nil => exact h
  | cons e es ih => exact ih (Memory.write_wf h _ _)

/-- A table keeps a memory of words that fit (R52). -/
theorem tableRef_fits {p : Params} (es : List CalEntry) {m : Memory} (h : calFits p m = true) :
    calFits p (tableRef p es m) = true := by
  induction es generalizing m with
  | nil => exact h
  | cons e es ih =>
    refine ih (write_fits h _ ?_)
    rw [BitVec.and_assoc, BitVec.and_not_self]
    exact BitVec.and_zero

/-- Each word of a memory is changed by the entries at its address (R145). -/
theorem tableRef_read {p : Params} (es : List CalEntry) {m : Memory} (h : m.wf = true) (a : Nat) :
    (tableRef p es m).read a = tableWord p a es (m.read a) := by
  induction es generalizing m with
  | nil => rfl
  | cons e es ih =>
    rw [tableRef, ih (Memory.write_wf h _ _), Memory.read_write_wf h, tableWord]
    split
    case isTrue ha => rw [ha]
    case isFalse => rfl

/-- R145: a table applied to a memory it was applied to changes nothing. -/
theorem tableRef_idempotent {p : Params} (es : List CalEntry) {m : Memory} (h : m.wf = true) :
    tableRef p es (tableRef p es m) = tableRef p es m := by
  have hwf := tableRef_wf (p := p) es h
  refine Memory.ext_read (tableRef_wf (p := p) es hwf) hwf fun a => ?_
  rw [tableRef_read es hwf, tableRef_read es h, (tableWord_bitwiseFixed p a es).idempotent]

/-! ### The command twice -/

/-- APPLY_CALTABLE that returns Ok with nothing pending before it has applied the table's maps (R144, R145). -/
theorem exec_applyCaltable_ok {s t : State} {b : Bank} (haccepted : s.params.accepted = true)
    (hfits : tableFits s.params = true) (hcal : calFits s.params (s.chan b).cal = true)
    (hidle : (s.chan b).pending = none) (h : exec (.applyCaltable b) s = .next t) (hok : t.result = some .unit) :
    t.params = s.params ∧ (t.chan b).pending = none ∧
      (t.chan b).cal = tableRef s.params s.params.calTable (s.chan b).cal := by
  obtain ⟨hparams, -⟩ := exec_inputs h
  cases (exec_applyCaltable b s).symm.trans h
  have hwhole : (s.applyCal b).1 = true := by
    cases hend : (s.applyCal b).1 with
    | true => rfl
    | false =>
      rw [hend] at hok
      cases hok
  obtain ⟨himage, hpending⟩ := applyTable_chan haccepted b s.params.calTable s rfl hidle hwhole
  have hvalues : ∀ e ∈ s.params.calTable, e.value &&& ~~~s.params.calMask = 0 := by
    simpa [tableFits] using hfits
  rw [State.returns_chan, State.applyCal]
  exact ⟨hparams, hpending, himage.trans (tableImage_eq_tableRef haccepted hvalues hcal)⟩

/-- Settles O26: each of the two runs acts as the table's map, which is idempotent on canonical memories. -/
theorem tableIsIdempotent : Obligations.TableIsIdempotent := by
  intro s t u b haccepted hfits hmem hidle ht hokt hu hoku
  obtain ⟨hwf, hcal, -⟩ := Membus.ok_iff.mp hmem
  obtain ⟨hparams, hidle', hfirst⟩ := exec_applyCaltable_ok haccepted hfits hcal hidle ht hokt
  obtain ⟨-, -, hsecond⟩ := exec_applyCaltable_ok (by rwa [hparams]) (by rwa [hparams])
    (by rw [hparams, hfirst]; exact tableRef_fits _ hcal) hidle' hu hoku
  refine ⟨hfirst, ?_⟩
  rw [hsecond, hparams, hfirst, tableRef_idempotent _ hwf]

end Sys2Proof.Machine
end

section
/-!
The VCO calibration calculator (R160 to R163), and the fields of a laid-out PLLGLOB and CTRL (D3, R24, R29).
-/

namespace Sys2Proof.Machine

open Sys2Proof

/-! ### Fields of one register -/

/-- The fields of CTRL and of PLLGLOB fit and do not overlap (D3). -/
theorem Params.laidOut_fields {p : Params} (h : p.laidOut = true) :
    fieldsOk [p.fields.ctrlBootmode, p.fields.ctrlSwbtclken, p.fields.ctrlSwbtclksel] = true ∧
      fieldsOk [p.fields.pd, p.fields.rst, p.fields.psrc, p.fields.arefclkdiv, p.fields.drefclkdiv, p.fields.refclkdiv,
        p.fields.llbyp] = true := by
  obtain ⟨-, -, hfields, -⟩ := Params.laidOut_parts h
  simp only [Params.fieldsLaidOut, Bool.and_eq_true] at hfields
  obtain ⟨⟨⟨⟨⟨⟨⟨⟨⟨⟨⟨hctrl, -⟩, -⟩, -⟩, hglob⟩, -⟩, -⟩, -⟩, -⟩, -⟩, -⟩, -⟩ := hfields
  exact ⟨hctrl, hglob⟩

/-- The A-ref divider shares no bit with the divisors of the calibration (D3, R29). -/
theorem Params.aref_apart {p : Params} (h : p.laidOut = true) :
    p.fields.arefclkdiv.apart p.fields.drefclkdiv = true ∧ p.fields.arefclkdiv.apart p.fields.refclkdiv = true := by
  obtain ⟨-, hglob⟩ := Params.laidOut_fields h
  obtain ⟨-, hapart⟩ := fieldsOk_iff.mp hglob
  simp only [List.pairwise_cons] at hapart
  obtain ⟨-, -, -, haref, -⟩ := hapart
  exact ⟨haref _ (by simp), haref _ (by simp)⟩

/-! ### The formula over naturals (R160) -/

theorem udiv_eq_ofNat (x y : Word) : x / y = BitVec.ofNat 32 (x.toNat / y.toNat) := by
  refine BitVec.eq_of_toNat_eq ?_
  rw [BitVec.toNat_udiv, BitVec.toNat_ofNat]
  exact (Nat.mod_eq_of_lt (Nat.lt_of_le_of_lt (Nat.div_le_self ..) x.isLt)).symm

theorem vcoDen_eq (p : Params) (pllm pllglob : Word) :
    vcoDen p pllm pllglob =
      p.fields.mdiv.get pllm * BitVec.ofNat 32 (2 ^ (p.fields.drefclkdiv.get pllglob).toNat) := by
  rw [vcoDen, pow2_eq]

/-- `mscnt` is the quotient, at least 1 (R160). -/
theorem vcoMscnt_eq (p : Params) (pllm pllglob : Word) :
    vcoMscnt p pllm pllglob =
      BitVec.ofNat 32 (max 1 (p.mscntConst.toNat / (vcoDen p pllm pllglob).toNat)) := by
  simp only [vcoMscnt]
  split
  case isTrue hzero =>
    have hquot : p.mscntConst.toNat / (vcoDen p pllm pllglob).toNat = 0 := by
      rw [← BitVec.toNat_udiv, hzero]
      rfl
    rw [hquot]
    rfl
  case isFalse hne =>
    have hpos : p.mscntConst.toNat / (vcoDen p pllm pllglob).toNat ≠ 0 := fun h => by
      refine hne (BitVec.eq_of_toNat_eq ?_)
      rwa [BitVec.toNat_udiv]
    rw [Nat.max_eq_right (Nat.one_le_iff_ne_zero.mpr hpos), udiv_eq_ofNat]

theorem one_le_vcoMscnt (p : Params) (pllm pllglob : Word) : 1 ≤ (vcoMscnt p pllm pllglob).toNat := by
  simp only [vcoMscnt]
  split
  case isTrue => decide
  case isFalse hne => exact Nat.one_le_iff_ne_zero.mpr fun h => hne (BitVec.eq_of_toNat_eq h)

theorem vcoHscnt_eq (p : Params) (pllm pllglob : Word) :
    vcoHscnt p pllm pllglob =
      BitVec.ofNat 32
        ((p.fields.mdiv.get pllm * vcoMscnt p pllm pllglob *
            BitVec.ofNat 32 (2 ^ (p.fields.drefclkdiv.get pllglob).toNat)).toNat /
          (p.fields.refclkdiv.get pllglob).toNat) - p.hscntConst := by
  rw [vcoHscnt, pow2_eq, udiv_eq_ofNat]

/-! ### The command (R160) -/

theorem exec_vcocalib_of_none {s : State} {pllm pllglob : Word} (h : vcoWord s.params pllm pllglob = none) :
    exec (.vcocalib pllm pllglob) s = .next (s.faulted .divideByZero (.vcocalib pllm pllglob)) := by
  show execVcocalib pllm pllglob s = _
  simp only [execVcocalib, h]
  rfl

theorem exec_vcocalib_of_some {s : State} {pllm pllglob w : Word} (h : vcoWord s.params pllm pllglob = some w) :
    exec (.vcocalib pllm pllglob) s = .next { s with result := some (.word w) } := by
  show execVcocalib pllm pllglob s = _
  simp only [execVcocalib, h]
  rfl

/-- A calibration is defined where neither divisor is 0 (R160). -/
theorem vcoWord_of_ne_zero {p : Params} {pllm pllglob : Word}
    (hden : p.fields.mdiv.get pllm * BitVec.ofNat 32 (2 ^ (p.fields.drefclkdiv.get pllglob).toNat) ≠ 0)
    (href : p.fields.refclkdiv.get pllglob ≠ 0) :
    vcoWord p pllm pllglob = some (vcoPack p (vcoHscnt p pllm pllglob) (vcoMscnt p pllm pllglob)) := by
  rw [← vcoDen_eq] at hden
  rw [vcoWord, if_neg (not_or.mpr ⟨hden, href⟩)]

theorem vcoWord_of_zero {p : Params} {pllm pllglob : Word}
    (h : p.fields.mdiv.get pllm * BitVec.ofNat 32 (2 ^ (p.fields.drefclkdiv.get pllglob).toNat) = 0 ∨
      p.fields.refclkdiv.get pllglob = 0) : vcoWord p pllm pllglob = none := by
  rw [← vcoDen_eq] at h
  rw [vcoWord, if_pos h]

/-- Settles O27: construction checks HSCNT's position, and the command's word is the formula's. -/
theorem vcocalibComputes : Obligations.VcocalibComputes := by
  refine ⟨fun p c a hlsb => ?_, fun s pllm pllglob => ⟨fun hzero => ?_, fun hden href => ?_⟩⟩
  · have hrefused : ¬ p.accepted = true := by
      intro haccepted
      obtain ⟨-, -, -, hhscnt, -⟩ := (Params.accepted_iff p).mp haccepted
      exact hlsb (by simpa [Params.hscntOk] using hhscnt)
    rw [construct_some, if_neg hrefused]
  · exact exec_vcocalib_of_none (vcoWord_of_zero hzero)
  · rw [exec_vcocalib_of_some (vcoWord_of_ne_zero hden href), vcoHscnt_eq, vcoMscnt_eq, vcoDen_eq]
    rfl

/-- Settles O28: the command's result is a function of the calibration word, and the word of the parameters. -/
theorem vcocalibIsPure : Obligations.VcocalibIsPure := by
  intro s s' pllm pllglob hparams
  refine ⟨fun t t' ht ht' => ?_, fun hden href => ?_⟩
  · cases hword : vcoWord s.params pllm pllglob with
    | none =>
      cases (exec_vcocalib_of_none hword).symm.trans ht
      cases (exec_vcocalib_of_none (hparams ▸ hword)).symm.trans ht'
      rfl
    | some w =>
      cases (exec_vcocalib_of_some hword).symm.trans ht
      cases (exec_vcocalib_of_some (hparams ▸ hword)).symm.trans ht'
      rfl
  · exact ⟨⟨_, exec_vcocalib_of_some (vcoWord_of_ne_zero hden href)⟩, one_le_vcoMscnt ..⟩

/-- The calibration word of a PLLGLOB is that of another with the same D-ref and ref dividers (R160). -/
theorem vcoWord_congr {p : Params} {g g' : Word} (hdref : p.fields.drefclkdiv.get g' = p.fields.drefclkdiv.get g)
    (href : p.fields.refclkdiv.get g' = p.fields.refclkdiv.get g) (pllm : Word) :
    vcoWord p pllm g' = vcoWord p pllm g := by
  have hden : vcoDen p pllm g' = vcoDen p pllm g := by rw [vcoDen, vcoDen, hdref]
  have hmscnt : vcoMscnt p pllm g' = vcoMscnt p pllm g := by rw [vcoMscnt, vcoMscnt, hden]
  have hhscnt : vcoHscnt p pllm g' = vcoHscnt p pllm g := by rw [vcoHscnt, vcoHscnt, hmscnt, hdref, href]
  rw [vcoWord, vcoWord, hden, hmscnt, hhscnt, href]

/-- Settles O29: the A-ref divider is apart from the two dividers the formula reads. -/
theorem vcocalibIgnoresAref : Obligations.VcocalibIgnoresAref := by
  intro s t t' pllm pllglob x hlaid ht ht'
  obtain ⟨hdref, href⟩ := Params.aref_apart hlaid
  have hword := vcoWord_congr (Field.get_put_apart hdref pllglob x) (Field.get_put_apart href pllglob x) pllm
  have hexec : exec (.vcocalib pllm (s.params.fields.arefclkdiv.put pllglob x)) s = exec (.vcocalib pllm pllglob) s := by
    show execVcocalib _ _ s = execVcocalib _ _ s
    rw [execVcocalib, execVcocalib, hword]
    rfl
  cases ht'.symm.trans (hexec.trans ht)
  rfl

end Sys2Proof.Machine
end

section
/-!
CLKSRC_HZ and what the rate queries touch (R221, R225, R240, R242).
-/

namespace Sys2Proof.Machine

open Sys2Proof

/-! ### The operands of CLKSRC_HZ (R221) -/

theorem selAt_offset {p : Params} (h : p.laidOut = true) (sel : SelReg) :
    p.selAt (p.offset (.store sel.reg)) = some sel := by
  obtain ⟨haligned, hdistinct, -⟩ := Params.laidOut_parts h
  rw [Params.selAt, Params.regAt_store haligned hdistinct, Option.bind_some, asSel_eq]

theorem cntAt_offset {p : Params} (h : p.laidOut = true) (c : CntReg) :
    p.cntAt (p.offset (.store c.reg)) = some c := by
  obtain ⟨haligned, hdistinct, -⟩ := Params.laidOut_parts h
  rw [Params.cntAt, Params.regAt_store haligned hdistinct, Option.bind_some, asCnt_eq]

theorem selAt_eq_none {p : Params} {off : Word} (h : ∀ sel : SelReg, p.offset (.store sel.reg) ≠ off) :
    p.selAt off = none := by
  refine Option.eq_none_iff_forall_ne_some.mpr fun sel hsel => ?_
  obtain ⟨r, hr, hasSel⟩ := Option.bind_eq_some_iff.mp hsel
  obtain ⟨-, hoff⟩ := Params.regAt_some hr
  rw [asSel_eq.mp hasSel] at hoff
  exact h sel hoff

theorem cntAt_eq_none {p : Params} {off : Word} (h : ∀ c : CntReg, p.offset (.store c.reg) ≠ off) :
    p.cntAt off = none := by
  refine Option.eq_none_iff_forall_ne_some.mpr fun c hc => ?_
  obtain ⟨r, hr, hasCnt⟩ := Option.bind_eq_some_iff.mp hc
  obtain ⟨-, hoff⟩ := Params.regAt_some hr
  rw [asCnt_eq.mp hasCnt] at hoff
  exact h c hoff

/-- CLKSRC_HZ of operands that name a selector and two counters (R221). -/
theorem exec_clksrcHz_of_some {s : State} {a0 a1 a2 : Word} {sel : SelReg} {m c : CntReg}
    (hsel : s.params.selAt a0 = some sel) (hm : s.params.cntAt a1 = some m) (hc : s.params.cntAt a2 = some c) :
    exec (.clksrcHz a0 a1 a2) s = finish (.clksrcHz a0 a1 a2) (returnHz (s.clksrcHz sel m c)) := by
  show execClksrcHz a0 a1 a2 s = _
  simp only [execClksrcHz, hsel, hm, hc]

/-- CLKSRC_HZ with an operand that names no register with the needed field (R221). -/
theorem exec_clksrcHz_of_none {s : State} {a0 a1 a2 : Word}
    (h : s.params.selAt a0 = none ∨ s.params.cntAt a1 = none ∨ s.params.cntAt a2 = none) :
    exec (.clksrcHz a0 a1 a2) s = .next (s.faulted .invalidOffset (.clksrcHz a0 a1 a2)) := by
  show execClksrcHz a0 a1 a2 s = _
  unfold execClksrcHz
  split
  case h_1 hsel hm hc => simp [hsel, hm, hc] at h
  case h_2 => rfl

/-- Settles O43: the operands are looked up first, and the derivation is its reference's. -/
theorem clksrcHzComputes : Obligations.ClksrcHzComputes := by
  intro s hlaid
  refine ⟨fun sel m c => ?_, fun a0 a1 a2 h => exec_clksrcHz_of_none ?_⟩
  · exact (exec_clksrcHz_of_some (selAt_offset hlaid sel) (cntAt_offset hlaid m) (cntAt_offset hlaid c)).trans
      (finish_rated (clksrcHz_computes s sel m c))
  · exact h.imp selAt_eq_none (Or.imp cntAt_eq_none cntAt_eq_none)

/-! ### Queries only read (R71) -/

/-- `t` is `s` after reads, but for its result and its fault record. -/
def OnlyReads (s t : State) : Prop :=
  ∃ l, t = { s with bus := l ++ s.bus, result := t.result, fault := t.fault } ∧ ∀ x ∈ l, x.isRead = true

theorem rated_onlyReads (s : State) (i : Instr) (o : Option Nat) (l : List StoreReg) : OnlyReads s (s.rated i o l) := by
  refine ⟨(l.map fun r => Txn.read (s.addrOf (.store r)) (s.regs.get r)).reverse, ?_, fun x hx => ?_⟩
  · cases o <;> rfl
  · obtain ⟨r, -, rfl⟩ := List.mem_map.mp (List.mem_reverse.mp hx)
    rfl

theorem faulted_onlyReads (s : State) (k : FaultKind) (i : Instr) : OnlyReads s (s.faulted k i) := ⟨[], rfl, by simp⟩

theorem exec_clksrcHz_onlyReads (s : State) (a0 a1 a2 : Word) :
    ∃ t, exec (.clksrcHz a0 a1 a2) s = .next t ∧ OnlyReads s t := by
  cases hsel : s.params.selAt a0 with
  | none => exact ⟨_, exec_clksrcHz_of_none (.inl hsel), faulted_onlyReads ..⟩
  | some sel =>
    cases hm : s.params.cntAt a1 with
    | none => exact ⟨_, exec_clksrcHz_of_none (.inr (.inl hm)), faulted_onlyReads ..⟩
    | some m =>
      cases hc : s.params.cntAt a2 with
      | none => exact ⟨_, exec_clksrcHz_of_none (.inr (.inr hc)), faulted_onlyReads ..⟩
      | some c =>
        exact ⟨_, (exec_clksrcHz_of_some hsel hm hc).trans (finish_rated (clksrcHz_computes s sel m c)),
          rated_onlyReads ..⟩

/-- GET_RATE of a tag of no clock identity (R225). -/
theorem exec_getRate_of_no_clock {tag : Word} (h : clockOfTag tag = none) (core : BitVec 2) (s : State) :
    exec (.getRate core tag) s = .next (s.returns (.err .unsupportedClock)) := by
  show execGetRate core tag s = _
  simp only [execGetRate, h, finish_eq, Res.final_ok]

theorem exec_getRate_onlyReads (s : State) (core : BitVec 2) (tag : Word) :
    ∃ t, exec (.getRate core tag) s = .next t ∧ OnlyReads s t := by
  cases hclock : clockOfTag tag with
  | none => exact ⟨_, exec_getRate_of_no_clock hclock core s, [], rfl, by simp⟩
  | some c => exact ⟨_, exec_getRate_of_clock hclock core s, rated_onlyReads ..⟩

/-- Settles O45: the rate queries read registers, and the other two commands make no access. -/
theorem queriesOnlyRead : Obligations.QueriesOnlyRead := by
  intro s i hi
  rcases hi with ⟨b, rfl⟩ | ⟨x, y, z, rfl⟩ | ⟨c, x, rfl⟩ | ⟨x, y, rfl⟩ | ⟨x, rfl⟩
  · obtain ⟨l, ht, hreads⟩ := rated_onlyReads s (.vcoHz b) (vcoRef s.params s.regs b) (vcoReads s.params s.regs b)
    exact ⟨_, l, exec_vcoHz s b, ht, hreads, nofun⟩
  · obtain ⟨t, hexec, l, ht, hreads⟩ := exec_clksrcHz_onlyReads s x y z
    exact ⟨t, l, hexec, ht, hreads, nofun⟩
  · obtain ⟨t, hexec, l, ht, hreads⟩ := exec_getRate_onlyReads s c x
    exact ⟨t, l, hexec, ht, hreads, nofun⟩
  · cases hword : vcoWord s.params x y with
    | none => exact ⟨_, [], exec_vcocalib_of_none hword, rfl, by simp, fun _ => rfl⟩
    | some w => exact ⟨_, [], exec_vcocalib_of_some hword, rfl, by simp, fun _ => rfl⟩
  · exact ⟨_, [], exec_enable x s, rfl, by simp, fun _ => rfl⟩

/-! ### Divisions by zero (R240) -/

section
variable {p : Params} {f : StoreFile}

/-- VCO_HZ divides by zero where a recognised source meets a zero A-ref divider, and nowhere else (R220). -/
theorem vcoRef_eq_none {b : Bank} (h : vcoRef p f b = none) :
    p.vcoSource (p.fields.psrc.get (f.get (.bank b .pllglob))) ≠ none ∧
      p.fields.arefclkdiv.get (f.get (.bank b .pllglob)) = 0 := by
  cases hsrc : p.vcoSource (p.fields.psrc.get (f.get (.bank b .pllglob))) with
  | none => cases (vcoRef_of_source_none hsrc).symm.trans h
  | some osc =>
    refine ⟨nofun, BitVec.eq_of_toNat_eq (not_not.mp fun haref => ?_)⟩
    cases (vcoRef_of_aref_ne_zero hsrc haref).symm.trans h

theorem clksrcRef_eq_none {sel : SelReg} {m c : CntReg} (h : clksrcRef p f sel m c = none) :
    ∃ b, vcoRef p f b = none := by
  unfold clksrcRef at h
  split at h
  · exact ⟨.M, Option.map_eq_none_iff.mp h⟩
  · exact ⟨.P, Option.map_eq_none_iff.mp h⟩
  all_goals cases h

theorem gateRef_eq_none {g : Gate} {u : Use} (h : gateRef p f g u = none) : ∃ b, vcoRef p f b = none :=
  clksrcRef_eq_none (Option.map_eq_none_iff.mp h)

theorem l4Ref_eq_none {fld : Field} (h : l4Ref p f fld = none) : ∃ b, vcoRef p f b = none :=
  clksrcRef_eq_none (Option.map_eq_none_iff.mp h)

theorem parentRef_eq_none {r : RateParent} (h : parentRef p f r = none) : ∃ b, vcoRef p f b = none := by
  cases r with
  | fabric => exact clksrcRef_eq_none h
  | l4mp => exact l4Ref_eq_none h
  | l4sp => exact l4Ref_eq_none h
  | gate g u => exact gateRef_eq_none h

/-- A derivation divides by zero only inside VCO_HZ of a bank (R240). -/
theorem rateRef_eq_none {core : BitVec 2} {c : Clock} (h : rateRef p f core c = none) : ∃ b, vcoRef p f b = none := by
  cases c with
  | mpu =>
    simp only [rateRef] at h
    split at h
    · exact gateRef_eq_none h
    · exact gateRef_eq_none (Option.map_eq_none_iff.mp h)
  | l4main => exact clksrcRef_eq_none h
  | l4mp => exact l4Ref_eq_none h
  | l4sp => exact l4Ref_eq_none h
  | l4sysfree => exact clksrcRef_eq_none (Option.map_eq_none_iff.mp h)
  | sdmmc => exact l4Ref_eq_none (Option.map_eq_none_iff.mp h)
  | emac i =>
    simp only [rateRef] at h
    split at h <;> exact gateRef_eq_none h
  | emacptp => exact gateRef_eq_none h
  | usb | nand | nandx => exact parentRef_eq_none (Option.map_eq_none_iff.mp h)

end

/-- Settles O46: the constant divisors are checked at construction, a counter's divisor is `1 + cnt`, and only VCO_HZ
faults. -/
theorem rateDivisorsAreSafe : Obligations.RateDivisorsAreSafe := by
  intro s haccepted
  obtain ⟨-, -, -, -, -, hdivisors, hsysfree, -⟩ := (Params.accepted_iff s.params).mp haccepted
  simp only [Params.divisorsOk, Bool.and_eq_true, decide_eq_true_eq] at hdivisors
  obtain ⟨⟨⟨hsdmmc, husb⟩, hnand⟩, hnandx⟩ := hdivisors
  have hfree : 1 ≤ s.params.sysfreeDivBoot ∧ 1 ≤ s.params.sysfreeDivRun := by
    simp only [Params.sysfreeOk, Bool.or_eq_true, Bool.and_eq_true, beq_iff_eq] at hsysfree
    omega
  refine ⟨fun cnt => ?_, hsdmmc, hfree.1, hfree.2, husb, hnand, hnandx, fun core tag t hfault ht hne => ?_⟩
  · rw [countDivisor_toNat]
    omega
  · cases hclock : clockOfTag tag with
    | none =>
      cases (exec_getRate_of_no_clock hclock core s).symm.trans ht
      exact absurd hfault hne
    | some c =>
      cases (exec_getRate_of_clock hclock core s).symm.trans ht
      cases hrate : rateRef s.params s.regs core c with
      | some n =>
        rw [hrate] at hne
        exact absurd hfault hne
      | none =>
        obtain ⟨b, hb⟩ := rateRef_eq_none hrate
        exact ⟨b, vcoRef_eq_none hb⟩

/-! ### CLKSRC_HZ code by code (R242) -/

/-- The five codes of an accepted configuration name their own sources, and no other code names one (R99, R242). -/
theorem source_cases {p : Params} (h : p.accepted = true) :
    p.source p.sel.main = some .main ∧ p.source p.sel.peri = some .peri ∧ p.source p.sel.eosc = some .eosc ∧
      p.source p.sel.intosc = some .intosc ∧ p.source p.sel.fpga = some .fpga ∧
      ∀ code, code ∉ [p.sel.main, p.sel.peri, p.sel.eosc, p.sel.intosc, p.sel.fpga] → p.source code = none := by
  obtain ⟨-, -, -, -, -, -, -, hcodes⟩ := (Params.accepted_iff p).mp h
  simp only [Params.codesOk, Bool.and_eq_true, decide_eq_true_eq, List.nodup_cons, List.mem_cons, List.not_mem_nil,
    or_false, not_or] at hcodes
  obtain ⟨⟨⟨hmp, hme, hmi, hmf⟩, ⟨hpe, hpi, hpf⟩, ⟨hei, hef⟩, hif, -⟩, -⟩ := hcodes
  refine ⟨?_, ?_, ?_, ?_, ?_, fun code hcode => ?_⟩
  · simp [Params.source]
  · simp [Params.source, Ne.symm hmp]
  · simp [Params.source, Ne.symm hme, Ne.symm hpe]
  · simp [Params.source, Ne.symm hmi, Ne.symm hpi, Ne.symm hei]
  · simp [Params.source, Ne.symm hmf, Ne.symm hpf, Ne.symm hef, Ne.symm hif]
  · simp only [List.mem_cons, List.not_mem_nil, or_false, not_or] at hcode
    obtain ⟨hm, hp, he, hi, hf⟩ := hcode
    simp [Params.source, hm, hp, he, hi, hf]

/-- A division by a counter after VCO_HZ: VCO_HZ's fault, or its rate over `1 + cnt` (R221). -/
theorem finish_divCnt_vcoHz (i : Instr) (s : State) (b : Bank) (k : CntReg) :
    ∃ t, exec (.vcoHz b) s = .next t ∧
      ((t.result = none ∧ finish i (returnHz ((s.vcoHz b).bind fun v t => t.divCnt k v)) =
          .next { t with fault := some ⟨.divideByZero, i.cmdWord, s.seq, s.u⟩ }) ∨
        ∃ f, t.result = some (.hz f) ∧ finish i (returnHz ((s.vcoHz b).bind fun v t => t.divCnt k v)) = .next
          { t with
            bus := .read (s.addrOf (.store k.reg)) (s.regs.get k.reg) :: t.bus
            result := some (.hz
              (BitVec.ofNat 64 (f.toNat / (1 + ((k.field s.params).get (s.regs.get k.reg)).toNat)))) }) := by
  obtain ⟨hlt, hvco⟩ := vcoHz_computes s b
  have hexec : exec (.vcoHz b) s = finish (.vcoHz b) (returnHz (s.vcoHz b)) := rfl
  rw [hexec, hvco]
  cases hrate : vcoRef s.params s.regs b with
  | none => exact ⟨_, rfl, .inl ⟨rfl, rfl⟩⟩
  | some n =>
    have hn := hlt n hrate
    refine ⟨_, rfl, .inr ⟨_, rfl, ?_⟩⟩
    obtain ⟨-, hdiv⟩ := divCnt_computes (s.afterRegs (vcoReads s.params s.regs b)) k hn
    simp only [rateRes, Res.bind_ok, hdiv, ofNat_toNat hn]
    rfl

/-- CLKSRC_HZ once the selector is read, source by source (R221). -/
theorem clksrcHz_of_source (s : State) (sel : SelReg) (m c : CntReg) {src : Option ClockSource}
    (h : s.params.source ((sel.field s.params).get (s.regs.get sel.reg)) = src) :
    let asked := s.logRead (.store sel.reg) (s.regs.get sel.reg)
    (src = some .main → s.clksrcHz sel m c = (asked.vcoHz .M).bind fun v t => t.divCnt m v) ∧
    (src = some .peri → s.clksrcHz sel m c = (asked.vcoHz .P).bind fun v t => t.divCnt c v) ∧
    (src = some .eosc → s.clksrcHz sel m c = .ok s.params.oscHz asked) ∧
    (src = some .intosc → s.clksrcHz sel m c = .ok s.params.intoscHz asked) ∧
    (src = some .fpga → s.clksrcHz sel m c = .ok s.params.fpgaHz asked) ∧
    (src = none → s.clksrcHz sel m c = .ok 0 asked) := by
  refine ⟨?_, ?_, ?_, ?_, ?_, ?_⟩ <;> intro hsrc <;> rw [hsrc] at h <;>
    simp only [State.clksrcHz, readReg_store, State.logRead_params, h]

/-- Settles O47: the code read from the selector is looked up in the five codes, which are distinct. -/
theorem everySelectorCodeHasItsCase : Obligations.EverySelectorCodeHasItsCase := by
  intro s sel m c haccepted hlaid i w code asked pll
  obtain ⟨hmain, hperi, heosc, hintosc, hfpga, hother⟩ := source_cases haccepted
  obtain ⟨ofMain, ofPeri, ofEosc, ofIntosc, ofFpga, ofOther⟩ := clksrcHz_of_source s sel m c rfl
  have hexec : exec i s = finish i (returnHz (s.clksrcHz sel m c)) :=
    exec_clksrcHz_of_some (selAt_offset hlaid sel) (cntAt_offset hlaid m) (cntAt_offset hlaid c)
  have hsource {code' : Word} {src : Option ClockSource} (h : code = code') (hsrc : s.params.source code' = src) :
      s.params.source code = src := by rw [h, hsrc]
  refine ⟨fun h => ?_, fun h => ?_, fun h => ?_, fun h => ?_, fun h => ?_, fun h => ?_⟩
  · obtain ⟨t, ht, hend⟩ := finish_divCnt_vcoHz i (s.logRead (.store sel.reg) (s.regs.get sel.reg)) .M m
    rw [← ofMain (hsource h hmain), ← hexec] at hend
    exact ⟨t, ht, hend⟩
  · obtain ⟨t, ht, hend⟩ := finish_divCnt_vcoHz i (s.logRead (.store sel.reg) (s.regs.get sel.reg)) .P c
    rw [← ofPeri (hsource h hperi), ← hexec] at hend
    exact ⟨t, ht, hend⟩
  · rw [hexec, ofEosc (hsource h heosc)]
    rfl
  · rw [hexec, ofIntosc (hsource h hintosc)]
    rfl
  · rw [hexec, ofFpga (hsource h hfpga)]
    rfl
  · rw [hexec, ofOther (hother code h)]
    rfl

end Sys2Proof.Machine
end

section
/-!
Bring-ups that raise no fault: their results, diagnostics, end states and traffic (R170 to R199).
-/

namespace Sys2Proof.Machine

open Sys2Proof

/-! ### The paths (R170, R176) -/

/-- The states a real-path run that goes on passes through (R170, R176). -/
def realStates : Stage → List SeqState
  | .first => .s1 :: realPath
  | .later => realPath

/-- The state the first of them starts from: a later stage has read CTRL (R176). -/
def State.realStart (s : State) : Stage → State
  | .first => { s with diag := [] }
  | .later => s.ctrlChecked

/-- The real path skips in a later stage outside boot mode, and there only (R176). -/
def State.goesOn (s : State) (stage : Stage) : Prop :=
  stage = .later → s.params.fields.ctrlBootmode.get s.regs.ctrl ≠ 0

theorem bringup_emulation (s : State) (stage : Stage) :
    s.bringup .emulation stage = bringupDone (runStates emulationPath { s with diag := [] }) := rfl

theorem bringup_real {s : State} {stage : Stage} (h : s.goesOn stage) :
    s.bringup .real stage = bringupDone (runStates (realStates stage) (s.realStart stage)) := by
  cases stage with
  | first => rfl
  | later => rw [bringup_later, if_neg (h rfl)]; rfl

@[simp] theorem realStart_params (s : State) (g : Stage) : (s.realStart g).params = s.params := by cases g <;> rfl
@[simp] theorem realStart_cfg (s : State) (g : Stage) : (s.realStart g).cfg = s.cfg := by cases g <;> rfl
@[simp] theorem realStart_regs (s : State) (g : Stage) : (s.realStart g).regs = s.regs := by cases g <;> rfl
@[simp] theorem realStart_fault (s : State) (g : Stage) : (s.realStart g).fault = s.fault := by cases g <;> rfl
@[simp] theorem realStart_cmds (s : State) (g : Stage) : (s.realStart g).cmds = s.cmds := by cases g <;> rfl
@[simp] theorem realStart_diag (s : State) (g : Stage) : (s.realStart g).diag = [] := by cases g <;> rfl
@[simp] theorem realStart_chan (s : State) (g : Stage) (b : Bank) : (s.realStart g).chan b = s.chan b := by
  cases g <;> cases b <;> rfl

/-- A path that completes is a command that returns Ok at `DONE` (R170). -/
theorem bringupDone_ok {x : Res Unit} {v : State} (h : x = .ok () v) : bringupDone x = .ok .unit (v.at .done 0) := by
  rw [h]
  rfl

/-! ### PLLGLOB's bits (R29) -/

/-- PD and RST are apart from LLBYP (D3, R29). -/
theorem pdrst_and_llbyp {p : Params} (h : p.laidOut = true) : pdrst p &&& p.fields.llbyp.mask = 0 := by
  obtain ⟨-, hglob⟩ := Params.laidOut_fields h
  obtain ⟨-, hapart⟩ := fieldsOk_iff.mp hglob
  simp only [List.pairwise_cons] at hapart
  obtain ⟨hpd, hrst, -⟩ := hapart
  rw [pdrst, BitVec.and_or_distrib_right, Field.masks_apart (hpd _ (by simp)), Field.masks_apart (hrst _ (by simp))]
  rfl

/-- PD and RST lie in the mask of both (R170). -/
theorem pd_rst_sub_pdrst (p : Params) :
    p.fields.pd.mask &&& ~~~pdrst p = 0 ∧ p.fields.rst.mask &&& ~~~pdrst p = 0 := by
  constructor <;> ext i hi <;> simp [pdrst] <;> grind

/-- Clearing bits a word does not have leaves it. -/
theorem and_not_of_and_eq_zero {d m : Word} (h : d &&& m = 0) : d &&& ~~~m = d :=
  calc d &&& ~~~m
    _ = d &&& m ||| d &&& ~~~m := by rw [h]; exact BitVec.zero_or.symm
    _ = d := by rw [← BitVec.and_or_distrib_left, BitVec.or_not_self, BitVec.and_allOnes]

/-! ### What the paths do (R171 to R199) -/

section
variable {p : Params} {c : BringUpConfig} {vcM vcP : Word}
  (hM : vcoWord p c.main.pllm c.main.pllglob = some vcM) (hP : vcoWord p c.peri.pllm c.peri.pllglob = some vcP)
include hM hP

/-- The waits of the real path and their micro-steps (R48, R177 to R195). -/
theorem realStates_notes (stage : Stage) :
    ((realStates stage).flatMap fun q => notes q (program p c q) 0).Sublist mayNoteReal := by
  have hpath : (realPath.flatMap fun q => notes q (program p c q) 0) = mayNoteReal.tail := by
    simp [realPath, program, stageBank, BringUpConfig.bank, hM, hP, allSlices, allGates, notes, SeqOp.mayNote,
      SeqOp.microSteps, mayNoteReal]
  cases stage with
  | first =>
    rw [realStates, List.flatMap_cons, hpath]
    exact List.Sublist.refl _
  | later =>
    rw [realStates, hpath]
    exact List.tail_sublist _

/-- What the real path makes of the storage registers, before PLLGLOB's bits are put in R199's order. -/
theorem realStates_regs (stage : Stage) (f : StoreFile) :
    ((realStates stage).flatMap (program p c)).foldl (SeqOp.onRegs p) f =
      { realEnd p c vcM vcP (decide (stage = .first)) f with
        main := { bankEnd p c.main vcM with
          pllglob := (c.main.pllglob &&& ~~~p.fields.rst.mask ||| pdrst p) &&& ~~~p.fields.llbyp.mask }
        peri := { bankEnd p c.peri vcP with
          pllglob := (c.peri.pllglob &&& ~~~p.fields.rst.mask ||| pdrst p) &&& ~~~p.fields.llbyp.mask } } := by
  cases stage <;>
    simp only [realStates, realPath, program, stageBank, BringUpConfig.bank, hM, hP, allSlices, allGates,
      List.flatMap_cons, List.flatMap_nil, List.map_cons, List.map_nil, List.cons_append, List.nil_append,
      List.append_nil, List.foldl_cons, List.foldl_nil, SeqOp.onRegs, CtrlEdit.apply, StoreFile.set, StoreFile.get,
      BankFile.set, BankFile.get, GateFile.set, GateFile.get, BankCfg.pllc] <;>
    rfl

/-- The storage registers after the real path in a laid-out configuration (R199). -/
theorem realStates_realEnd (hlaid : p.laidOut = true) (stage : Stage) (f : StoreFile) :
    ((realStates stage).flatMap (program p c)).foldl (SeqOp.onRegs p) f =
      realEnd p c vcM vcP (decide (stage = .first)) f := by
  have hglob : ∀ x : Word, (x ||| pdrst p) &&& ~~~p.fields.llbyp.mask = x &&& ~~~p.fields.llbyp.mask ||| pdrst p :=
    fun x => by rw [BitVec.and_or_distrib_right, and_not_of_and_eq_zero (pdrst_and_llbyp hlaid)]
  rw [realStates_regs hM hP, hglob, hglob]
  rfl

end

theorem emulationPath_notes (p : Params) (c : BringUpConfig) :
    (emulationPath.flatMap fun q => notes q (program p c q) 0) = mayNoteEmulation := rfl

theorem emulationPath_regs (p : Params) (c : BringUpConfig) (f : StoreFile) :
    (emulationPath.flatMap (program p c)).foldl (SeqOp.onRegs p) f = emulationEnd p f := rfl

theorem emulation_no_divide (p : Params) (c : BringUpConfig) :
    ∀ q ∈ emulationPath, ∀ op ∈ program p c q, op ≠ .divideByZero := by
  simp [emulationPath, program]

/-! ### Runs that complete (R196) -/

/-- What a bring-up that completes leaves, its run's last state being `v`. -/
structure Completes (s v : State) (onRegs : StoreFile → StoreFile) (mayNote : List DiagEntry) : Prop where
  params : v.params = s.params
  cfg : v.cfg = s.cfg
  fault : v.fault = s.fault
  cmds : v.cmds = s.cmds
  regs : v.regs = onRegs s.regs
  diag : v.diag.Sublist mayNote

/-- A real-path run that goes on, with both banks' calibrations defined, completes (R180, R196). -/
theorem runStates_real {s : State} {stage : Stage} {vcM vcP : Word} (hlaid : s.params.laidOut = true)
    (hM : vcoWord s.params s.cfg.main.pllm s.cfg.main.pllglob = some vcM)
    (hP : vcoWord s.params s.cfg.peri.pllm s.cfg.peri.pllglob = some vcP) :
    ∃ v, runStates (realStates stage) (s.realStart stage) = .ok () v ∧
      Completes s v (realEnd s.params s.cfg vcM vcP (decide (stage = .first))) mayNoteReal := by
  obtain ⟨haligned, -⟩ := Params.laidOut_parts hlaid
  obtain ⟨v, hrun, heffect⟩ := runStates_effect (qs := realStates stage) haligned
    (fun q _ => program_no_divide hM hP q) (realStart_params s stage) (realStart_cfg s stage)
  obtain ⟨l, hl, hdiag⟩ := heffect.diag
  refine ⟨v, hrun, heffect.params.trans (realStart_params ..), heffect.cfg.trans (realStart_cfg ..),
    heffect.fault.trans (realStart_fault ..), heffect.cmds.trans (realStart_cmds ..), ?_, ?_⟩
  · rw [heffect.regs, realStart_regs, realStates_realEnd hM hP hlaid]
  · rw [hdiag, realStart_diag, List.nil_append]
    exact hl.trans (realStates_notes hM hP stage)

/-- An emulation run completes (R196). -/
theorem runStates_emulation {s : State} (hlaid : s.params.laidOut = true) :
    ∃ v, runStates emulationPath { s with diag := [] } = .ok () v ∧
      Completes s v (emulationEnd s.params) mayNoteEmulation := by
  obtain ⟨haligned, -⟩ := Params.laidOut_parts hlaid
  obtain ⟨v, hrun, heffect⟩ := runStates_effect (qs := emulationPath) (s := { s with diag := [] }) haligned
    (emulation_no_divide s.params s.cfg) rfl rfl
  obtain ⟨l, hl, hdiag⟩ := heffect.diag
  refine ⟨v, hrun, heffect.params, heffect.cfg, heffect.fault, heffect.cmds, ?_, ?_⟩
  · rw [heffect.regs, emulationPath_regs]
  · rw [hdiag, List.nil_append]
    exact emulationPath_notes s.params s.cfg ▸ hl

/-- A real-path BRINGUP whose run completes. -/
theorem exec_bringup_real {s v : State} {stage : Stage} (hgo : s.goesOn stage)
    (hrun : runStates (realStates stage) (s.realStart stage) = .ok () v) :
    exec (.bringup .real stage) s = .next ((v.at .done 0).returns .unit) :=
  exec_bringup_of_ok ((bringup_real hgo).trans (bringupDone_ok hrun))

/-- An emulation BRINGUP whose run completes, whichever the stage. -/
theorem exec_bringup_emulation {s v : State} (stage : Stage)
    (hrun : runStates emulationPath { s with diag := [] } = .ok () v) :
    exec (.bringup .emulation stage) s = .next ((v.at .done 0).returns .unit) :=
  exec_bringup_of_ok ((bringup_emulation s stage).trans (bringupDone_ok hrun))

/-- A stage outside boot mode skips, or the run goes on (R176). -/
theorem goesOn_or_skips (s : State) (stage : Stage) :
    s.goesOn stage ∨ stage = .later ∧ s.params.fields.ctrlBootmode.get s.regs.ctrl = 0 := by
  by_cases h : stage = .later ∧ s.params.fields.ctrlBootmode.get s.regs.ctrl = 0
  · exact .inr h
  · exact .inl fun hlater hboot => h ⟨hlater, hboot⟩

/-- The two calibrations, defined together. -/
theorem calibrations_defined {s : State} (h : ∀ b, vcoWord s.params (s.cfg.bank b).pllm (s.cfg.bank b).pllglob ≠ none) :
    ∃ vcM vcP, vcoWord s.params s.cfg.main.pllm s.cfg.main.pllglob = some vcM ∧
      vcoWord s.params s.cfg.peri.pllm s.cfg.peri.pllglob = some vcP := by
  obtain ⟨vcM, hM⟩ := Option.ne_none_iff_exists'.mp (h .M)
  obtain ⟨vcP, hP⟩ := Option.ne_none_iff_exists'.mp (h .P)
  exact ⟨vcM, vcP, hM, hP⟩

/-- Settles O30: every operation of either path completes whatever its wait returned, and a skipped run makes none. -/
theorem bringupCompletesWhateverTheWaits : Obligations.BringupCompletesWhateverTheWaits := by
  intro s mode stage hlaid hdefined
  cases mode with
  | emulation =>
    obtain ⟨v, hrun, h⟩ := runStates_emulation hlaid
    exact ⟨_, exec_bringup_emulation stage hrun, rfl, h.fault, rfl, h.params, h.cfg, h.cmds, .inl rfl, h.diag⟩
  | real =>
    rcases goesOn_or_skips s stage with hgo | ⟨rfl, hboot⟩
    · obtain ⟨vcM, vcP, hM, hP⟩ := calibrations_defined (hdefined rfl)
      obtain ⟨v, hrun, h⟩ := runStates_real (stage := stage) hlaid hM hP
      exact ⟨_, exec_bringup_real hgo hrun, rfl, h.fault, rfl, h.params, h.cfg, h.cmds, .inl rfl, h.diag⟩
    · exact ⟨_, exec_bringup_later_skips hboot, rfl, rfl, rfl, rfl, rfl, rfl, .inr ⟨rfl, rfl, rfl⟩,
        List.nil_sublist _⟩

/-! ### End states (R199) -/

/-- Settles O32: the run completes, and its operations fold to the registers of R199. -/
theorem realPathEndState : Obligations.RealPathEndState := by
  intro s t stage vcM vcP hlaid hgo hM hP ht
  obtain ⟨hctrl, -⟩ := Params.laidOut_fields hlaid
  obtain ⟨hfits, -⟩ := fieldsOk_iff.mp hctrl
  obtain ⟨v, hrun, h⟩ := runStates_real (stage := stage) hlaid hM hP
  cases (exec_bringup_real hgo hrun).symm.trans ht
  have hregs : ((v.at .done 0).returns .unit).regs = _ := h.regs
  refine ⟨hregs, ?_, ?_, rfl⟩
  · rw [hregs]
    show s.params.fields.ctrlBootmode.get (s.params.fields.ctrlBootmode.put _ 0) = 0
    rw [Field.get_put _ (hfits _ (by simp))]
    exact BitVec.zero_and
  · rw [hregs]
    show s.regs.cntrst &&& ~~~s.params.allCntRst &&& s.params.allCntRst = 0
    rw [BitVec.and_assoc, BitVec.and_comm (~~~s.params.allCntRst), BitVec.and_not_self]
    exact BitVec.and_zero

/-- An emulation run touches no membus side (R171 to R174). -/
theorem emulation_chan {s v : State} (hlaid : s.params.laidOut = true)
    (hrun : runStates emulationPath { s with diag := [] } = .ok () v) (b : Bank) : v.chan b = s.chan b := by
  obtain ⟨haligned, -⟩ := Params.laidOut_parts hlaid
  obtain ⟨-, hchan⟩ := runStates_made (s := { s with diag := [] }) (emulation_no_divide s.params s.cfg) haligned hrun
  have hno : ∀ q ∈ emulationPath, ∀ op ∈ program s.params s.cfg q, op ≠ .calTable b := by
    simp [emulationPath, program]
  exact (hchan b hno).trans (by cases b <;> rfl)

/-- Settles O33: the run completes, and the stage is not looked at. -/
theorem emulationEndState : Obligations.EmulationEndState := by
  intro s stage hlaid
  obtain ⟨v, hrun, h⟩ := runStates_emulation hlaid
  refine ⟨_, exec_bringup_emulation stage hrun, h.regs, fun b => ?_, rfl, rfl, exec_bringup_emulation .first hrun⟩
  rw [State.returns_chan, State.at_chan]
  exact emulation_chan hlaid hrun b

/-! ### Traffic (R171 to R195) -/

/-- The read of CTRL that a later stage makes before its first state (R176). -/
def startStretch (f : StoreFile) : Stage → List Stretch
  | .first => []
  | .later => [.read .ctrl f.ctrl]

theorem Made.of_realStart {s v : State} {stage : Stage} {es : List Stretch} (h : Made es (s.realStart stage) v) :
    Made (startStretch s.regs stage ++ es) s v := by
  cases stage with
  | first => exact h.congr rfl rfl rfl
  | later =>
    have hread : Made [.read .ctrl s.regs.ctrl] s (s.logRead (.store .ctrl) s.regs.ctrl) := ⟨[_], rfl, made_one rfl⟩
    exact Made.trans (State.logRead_params ..) hread (h.congr rfl rfl rfl)

theorem realStates_stretches {p : Params} {c : BringUpConfig} {vcM vcP : Word} (stage : Stage) (f : StoreFile)
    (hM : vcoWord p c.main.pllm c.main.pllglob = some vcM) (hP : vcoWord p c.peri.pllm c.peri.pllglob = some vcP) :
    startStretch f stage ++ stretchesOf p ((realStates stage).flatMap (program p c)) f =
      realStretches p c vcM vcP (decide (stage = .first)) f := by
  cases stage with
  | first => exact firstStage_stretches f hM hP
  | later => exact realPath_stretches f hM hP

/-- The traffic of the real path (R176 to R195). -/
theorem real_made {s v : State} {stage : Stage} {vcM vcP : Word} (hlaid : s.params.laidOut = true)
    (hM : vcoWord s.params s.cfg.main.pllm s.cfg.main.pllglob = some vcM)
    (hP : vcoWord s.params s.cfg.peri.pllm s.cfg.peri.pllglob = some vcP)
    (hrun : runStates (realStates stage) (s.realStart stage) = .ok () v) :
    Made (realStretches s.params s.cfg vcM vcP (decide (stage = .first)) s.regs) s v := by
  obtain ⟨haligned, -⟩ := Params.laidOut_parts hlaid
  obtain ⟨hmade, -⟩ := runStates_made (s := s.realStart stage)
    (by rw [realStart_params, realStart_cfg]; exact fun q _ => program_no_divide hM hP q)
    (by rwa [realStart_params]) hrun
  rw [realStart_params, realStart_cfg, realStart_regs] at hmade
  rw [← realStates_stretches stage s.regs hM hP]
  exact hmade.of_realStart

/-- Settles O59: a completed path makes the stretches of its operations. -/
theorem bringupTraffic : Obligations.BringupTraffic := by
  intro s stage hlaid
  refine ⟨fun vcM vcP hgo hM hP => ?_, ?_⟩
  · obtain ⟨v, hrun, -⟩ := runStates_real (stage := stage) hlaid hM hP
    obtain ⟨l, hbus, hmade⟩ := real_made hlaid hM hP hrun
    exact ⟨_, l, exec_bringup_real hgo hrun, hbus, hmade⟩
  · obtain ⟨haligned, -⟩ := Params.laidOut_parts hlaid
    obtain ⟨v, hrun, -⟩ := runStates_emulation hlaid
    obtain ⟨hmade, -⟩ := runStates_made (s := { s with diag := [] }) (emulation_no_divide s.params s.cfg) haligned hrun
    obtain ⟨l, hbus, hmade'⟩ := hmade.congr (s := s) rfl rfl rfl
    rw [emulationPath_stretches] at hmade'
    exact ⟨_, l, exec_bringup_emulation stage hrun, hbus, hmade'⟩

end Sys2Proof.Machine
end

section
/-!
The banks in reset, and a real-path run stopped in `S4` by a calibration that divides by zero (R178 to R181, R264).
-/

namespace Sys2Proof.Machine

open Sys2Proof

/-! ### Steps 1 to 3 (R177 to R179) -/

/-- The states of the real path before `S4`. -/
def resetStates : Stage → List SeqState
  | .first => [.s1, .s2, .s3]
  | .later => [.s2, .s3]

theorem realStates_eq (stage : Stage) :
    realStates stage = resetStates stage ++ .s4 :: [.s5, .s6, .s7, .s8, .s9, .s10, .s11, .s12, .s13, .s14] := by
  cases stage <;> rfl

theorem resetStates_ops (p : Params) (c : BringUpConfig) (stage : Stage) :
    ∀ q ∈ resetStates stage, ∀ op ∈ program p c q, op ≠ .divideByZero ∧ ∀ b, op ≠ .calTable b := by
  cases stage <;> simp [resetStates, program]

theorem resetStates_regs (p : Params) (c : BringUpConfig) (stage : Stage) (f : StoreFile) :
    ((resetStates stage).flatMap (program p c)).foldl (SeqOp.onRegs p) f = resetEnd p (decide (stage = .first)) f := by
  cases stage <;> rfl

theorem resetStates_stretches (p : Params) (c : BringUpConfig) (stage : Stage) (f : StoreFile) :
    startStretch f stage ++ stretchesOf p ((resetStates stage).flatMap (program p c)) f =
      resetTraffic p (decide (stage = .first)) f := by
  cases stage <;> rfl

/-- A bank with PD and RST cleared and its bypass forced is in reset (R44). -/
theorem inReset_of_regs {t : State} {b : Bank} {g : Word}
    (hglob : t.regs.get (.bank b .pllglob) = g &&& ~~~pdrst t.params)
    (hbypass : t.regs.get (.bank b .bypass) = t.params.bypassAll) : t.inReset b := by
  obtain ⟨hpd, hrst⟩ := pd_rst_sub_pdrst t.params
  refine ⟨?_, ?_, hbypass⟩
  · rw [hglob, Field.get_clear _ _ _ hpd]
  · rw [hglob, Field.get_clear _ _ _ hrst]

/-- Settles O36: the two steps' operations fold to PLLGLOB with PD and RST clear, and to the bypass forced. -/
theorem banksEnterReset : Obligations.BanksEnterReset := by
  intro s hlaid
  obtain ⟨haligned, -⟩ := Params.laidOut_parts hlaid
  obtain ⟨t, hrun, heffect⟩ := runStates_effect (s := s) (qs := [.s2, .s3]) haligned
    (fun q hq op hop => (resetStates_ops s.params s.cfg .later q hq op hop).1) rfl rfl
  have hparams := heffect.params
  have hregs : t.regs = resetEnd s.params false s.regs :=
    heffect.regs.trans (resetStates_regs s.params s.cfg .later s.regs)
  refine ⟨t, hrun, hparams, inReset_of_regs (g := s.regs.main.pllglob) ?_ ?_,
    inReset_of_regs (g := s.regs.peri.pllglob) ?_ ?_⟩ <;> rw [hregs, hparams] <;> rfl

/-! ### Step 4 (R180, R181) -/

/-- The ten writes of `S4` for the main bank (R181, R182). -/
def mainOps (c : BringUpConfig) (p : Params) (vc : Word) : List SeqOp :=
  [.write (.bank .M .pllglob) (stagedGlob p c.main), .write (.bank .M .fdbck) c.main.fdbck,
    .write (.bank .M .vcocalib) vc, .write (.bank .M (.pllc .c0)) c.main.pllc0,
    .write (.bank .M (.pllc .c1)) c.main.pllc1, .write (.bank .M (.pllc .c2)) c.main.pllc2,
    .write (.bank .M (.pllc .c3)) c.main.pllc3, .write (.bank .M .pllm) c.main.pllm, .write .nocclk c.nocclk,
    .write .nocdiv c.nocdiv]

section
variable {p : Params} {c : BringUpConfig}

theorem program_s4_of_main_none (hM : vcoWord p c.main.pllm c.main.pllglob = none) :
    ∃ post, program p c .s4 = [] ++ .divideByZero :: post := by
  simp [program, stageBank, BringUpConfig.bank, hM]

theorem program_s4_of_peri_none {vc : Word} (hM : vcoWord p c.main.pllm c.main.pllglob = some vc)
    (hP : vcoWord p c.peri.pllm c.peri.pllglob = none) :
    program p c .s4 = mainOps c p vc ++ .divideByZero :: [] := by
  simp [program, stageBank, BringUpConfig.bank, hM, hP, allSlices, mainOps, stagedGlob, BankCfg.pllc]

/-- The calibration of a bank divides by zero, or both are defined (R180). -/
theorem calibrations_cases (p : Params) (c : BringUpConfig) :
    (vcoWord p c.main.pllm c.main.pllglob = none ∨ vcoWord p c.peri.pllm c.peri.pllglob = none) ∨
      ∃ vcM vcP, vcoWord p c.main.pllm c.main.pllglob = some vcM ∧ vcoWord p c.peri.pllm c.peri.pllglob = some vcP := by
  cases vcoWord p c.main.pllm c.main.pllglob <;> cases vcoWord p c.peri.pllm c.peri.pllglob <;> simp

/-- A calibration that divides by zero cuts the program of `S4`, before it or after the main bank's writes (R180). -/
theorem program_s4_cut (h : vcoWord p c.main.pllm c.main.pllglob = none ∨ vcoWord p c.peri.pllm c.peri.pllglob = none) :
    ∃ pre post, program p c .s4 = pre ++ .divideByZero :: post ∧
      ∀ op ∈ pre, op ≠ .divideByZero ∧ ∀ b, op ≠ .calTable b := by
  cases hM : vcoWord p c.main.pllm c.main.pllglob with
  | none =>
    obtain ⟨post, hprog⟩ := program_s4_of_main_none hM
    exact ⟨[], post, hprog, by simp⟩
  | some vc =>
    have hP := h.resolve_left (by rw [hM]; nofun)
    exact ⟨_, _, program_s4_of_peri_none hM hP, by simp [mainOps]⟩

end

/-- A run of states stops where one of them divides by zero: what it leaves and the traffic up to there (R180, R264). -/
theorem runStates_divides {qs qs' : List SeqState} {q : SeqState} {s : State} {pre post : List SeqOp}
    (haligned : s.params.offsetsAligned = true)
    (hqs : ∀ q ∈ qs, ∀ op ∈ program s.params s.cfg q, op ≠ .divideByZero ∧ ∀ b, op ≠ .calTable b)
    (hprog : program s.params s.cfg q = pre ++ .divideByZero :: post)
    (hpre : ∀ op ∈ pre, op ≠ .divideByZero ∧ ∀ b, op ≠ .calTable b) :
    ∃ w : State,
      runStates (qs ++ q :: qs') s = .fault .divideByZero (w.at q (pre.map SeqOp.microSteps).sum) ∧
      w.params = s.params ∧
      w.regs = pre.foldl (SeqOp.onRegs s.params) ((qs.flatMap (program s.params s.cfg)).foldl (SeqOp.onRegs s.params) s.regs) ∧
      (∀ b, w.chan b = s.chan b) ∧
      Made (stretchesOf s.params (qs.flatMap (program s.params s.cfg)) s.regs ++
        stretchesOf s.params pre ((qs.flatMap (program s.params s.cfg)).foldl (SeqOp.onRegs s.params) s.regs)) s w := by
  obtain ⟨v, hv, heffect⟩ := runStates_effect haligned (fun q hq op hop => (hqs q hq op hop).1) rfl rfl
  obtain ⟨hmade, hchan⟩ := runStates_made (fun q hq op hop => (hqs q hq op hop).1) haligned hv
  have hparams : v.params = s.params := heffect.params
  obtain ⟨w, hw, hseq, heffect'⟩ := runOps_effect (fun op hop => (hpre op hop).1) (s := v.at q 0)
    (show v.params.offsetsAligned = true by rwa [hparams]) 0
  obtain ⟨hmade', hchan'⟩ := runOps_made (fun op hop => (hpre op hop).1) (s := v.at q 0)
    (show v.params.offsetsAligned = true by rwa [hparams]) hw
  replace hseq : w.seq = q := hseq
  have hprog' : program v.params v.cfg q = pre ++ .divideByZero :: post := by rw [hparams, heffect.cfg, hprog]
  have hregs : w.regs = pre.foldl (SeqOp.onRegs v.params) v.regs := heffect'.regs
  have htraffic : Made (stretchesOf v.params pre v.regs) v w := hmade'.of_at
  rw [hparams, heffect.regs] at hregs htraffic
  refine ⟨w, ?_, heffect'.params.trans hparams, hregs, fun b => ?_, hmade.trans hparams htraffic⟩
  · rw [runStates_append, hv, Res.bind_ok, runStates, hprog', runOps_append, hw, Res.bind_ok, Nat.zero_add, runOps, hseq]
    rfl
  · exact (hchan' b fun op hop => (hpre op hop).2 b).trans
      ((State.at_chan ..).trans (hchan b fun q hq op hop => (hqs q hq op hop).2 b))

/-- A real-path BRINGUP whose `S4` divides by zero after the operations `pre` (R180, R264). -/
theorem exec_bringup_divides {s : State} {stage : Stage} {pre post : List SeqOp} (hlaid : s.params.laidOut = true)
    (hgo : s.goesOn stage) (hprog : program s.params s.cfg .s4 = pre ++ .divideByZero :: post)
    (hpre : ∀ op ∈ pre, op ≠ .divideByZero ∧ ∀ b, op ≠ .calTable b) :
    ∃ t : State, exec (.bringup .real stage) s = .next t ∧
      t.fault = some ⟨.divideByZero, Instr.cmdWord (.bringup .real stage), .s4, (pre.map SeqOp.microSteps).sum⟩ ∧
      t.seq = .s4 ∧ t.u = (pre.map SeqOp.microSteps).sum ∧ t.result = none ∧ t.params = s.params ∧
      t.regs = pre.foldl (SeqOp.onRegs s.params) (resetEnd s.params (decide (stage = .first)) s.regs) ∧
      (∀ b, t.chan b = s.chan b) ∧
      Made (resetTraffic s.params (decide (stage = .first)) s.regs ++
        stretchesOf s.params pre (resetEnd s.params (decide (stage = .first)) s.regs)) s t := by
  obtain ⟨haligned, -⟩ := Params.laidOut_parts hlaid
  obtain ⟨w, hrun, hparams, hregs, hchan, hmade⟩ := runStates_divides (s := s.realStart stage) (qs := resetStates stage)
    (q := .s4) (qs' := [.s5, .s6, .s7, .s8, .s9, .s10, .s11, .s12, .s13, .s14])
    (by rwa [realStart_params]) (resetStates_ops _ _ stage) (by rw [realStart_params, realStart_cfg, hprog]) hpre
  rw [realStart_params, realStart_cfg, realStart_regs, resetStates_regs] at hregs hmade
  have hbringup : s.bringup .real stage = .fault .divideByZero (w.at .s4 (pre.map SeqOp.microSteps).sum) := by
    rw [bringup_real hgo, realStates_eq, hrun]
    rfl
  have hexec : exec (.bringup .real stage) s = .next ((w.at .s4 (pre.map SeqOp.microSteps).sum).takeFault .divideByZero
      (Instr.cmdWord (.bringup .real stage))) := congrArg (finish (.bringup .real stage)) hbringup
  refine ⟨_, hexec, rfl, rfl, rfl, rfl, hparams.trans (realStart_params ..), hregs, fun b => ?_, ?_⟩
  · rw [State.takeFault_chan, State.at_chan, hchan, realStart_chan]
  · have htraffic := hmade.of_realStart
    rw [← List.append_assoc, resetStates_stretches] at htraffic
    exact htraffic

/-- Settles O39: the run is cut at the start of `S4` or after the main bank's ten writes. -/
theorem undefinedCalibrationStopsStepFour : Obligations.UndefinedCalibrationStopsStepFour := by
  intro s stage hlaid hfault hgo first before stops
  have hword : Instr.cmdWord (.bringup .real stage) = if first then 0x30 else 0x230 := by cases stage <;> rfl
  refine ⟨fun hM => ?_, fun vc hM hP => ?_⟩
  · obtain ⟨post, hprog⟩ := program_s4_of_main_none hM
    obtain ⟨t, hexec, hrecord, hseq, hu, hresult, hparams, hregs, hchan, l, hbus, hmade⟩ :=
      exec_bringup_divides hlaid hgo hprog (by simp)
    rw [hword] at hrecord
    rw [stretchesOf, List.append_nil] at hmade
    refine ⟨t, l, hexec, hrecord, hseq, hu, hresult, hregs, hchan, fun b _ => ?_, hbus, hmade⟩
    cases b with
    | M => refine inReset_of_regs (g := s.regs.main.pllglob) ?_ ?_ <;> rw [hregs, hparams] <;> rfl
    | P => refine inReset_of_regs (g := s.regs.peri.pllglob) ?_ ?_ <;> rw [hregs, hparams] <;> rfl
  · obtain ⟨t, hexec, hrecord, hseq, hu, hresult, hparams, hregs, hchan, l, hbus, hmade⟩ :=
      exec_bringup_divides hlaid hgo (program_s4_of_peri_none hM hP) (by simp [mainOps])
    rw [hword] at hrecord
    refine ⟨t, l, hexec, hrecord, hseq, hu, hresult, hregs, hchan, fun b hb => ?_, hbus, hmade⟩
    obtain rfl : b = .P := by simpa using hb
    refine inReset_of_regs (g := s.regs.peri.pllglob) ?_ ?_ <;> rw [hregs, hparams] <;> rfl

end Sys2Proof.Machine
end

section
/-!
The banks staged in reset after `S5`, and running after `DONE` (R44, R162, R181, R199).
-/

namespace Sys2Proof.Machine

open Sys2Proof

/-! ### Steps 2 to 5 (R178 to R184) -/

/-- Steps 2 to 5 that complete divided by no zero, so both calibrations are defined (R180). -/
theorem calibrations_of_staged {s t : State} (hlaid : s.params.laidOut = true)
    (hrun : runStates [.s2, .s3, .s4, .s5] s = .ok () t) :
    ∃ vcM vcP, vcoWord s.params s.cfg.main.pllm s.cfg.main.pllglob = some vcM ∧
      vcoWord s.params s.cfg.peri.pllm s.cfg.peri.pllglob = some vcP := by
  obtain ⟨haligned, -⟩ := Params.laidOut_parts hlaid
  refine (calibrations_cases s.params s.cfg).resolve_left fun hcut => ?_
  obtain ⟨pre, post, hprog, hpre⟩ := program_s4_cut hcut
  obtain ⟨w, hfault, -⟩ := runStates_divides (qs := [.s2, .s3]) (qs' := [.s5]) haligned
    (resetStates_ops s.params s.cfg .later) hprog hpre
  cases hfault.symm.trans hrun

/-- The storage registers after steps 2 to 5 (R178 to R184). -/
def stagedEnd (p : Params) (c : BringUpConfig) (vcM vcP : Word) (f : StoreFile) : StoreFile :=
  { f with
    gates := c.gates
    main := bankStaged p c.main vcM
    peri := bankStaged p c.peri vcP
    nocclk := c.nocclk
    nocdiv := c.nocdiv
    emacctl := c.emacctl
    gpiodiv := c.gpiodiv }

theorem stagedStates_regs {p : Params} {c : BringUpConfig} {vcM vcP : Word} (f : StoreFile)
    (hM : vcoWord p c.main.pllm c.main.pllglob = some vcM) (hP : vcoWord p c.peri.pllm c.peri.pllglob = some vcP) :
    (List.flatMap (program p c) [.s2, .s3, .s4, .s5]).foldl (SeqOp.onRegs p) f = stagedEnd p c vcM vcP f := by
  simp only [program, stageBank, BringUpConfig.bank, hM, hP, allSlices, allGates, List.flatMap_cons, List.flatMap_nil,
    List.map_cons, List.map_nil, List.cons_append, List.nil_append, List.append_nil, List.foldl_cons, List.foldl_nil,
    SeqOp.onRegs, StoreFile.set, StoreFile.get, BankFile.set, BankFile.get, GateFile.set, GateFile.get, BankCfg.pllc]
  rfl

/-- A bank's registers after steps 2 to 5, as R162, R181 and R286 name them. -/
theorem bankStaged_get (p : Params) (c : BankCfg) (vc : Word) :
    p.fields.rst.get ((bankStaged p c vc).get .pllglob) = 0 ∧ (bankStaged p c vc).get .bypass = p.bypassAll ∧
      (bankStaged p c vc).get .vcocalib = vc ∧ (bankStaged p c vc).get .pllm = c.pllm ∧
      (bankStaged p c vc).get .fdbck = c.fdbck ∧ ∀ k, (bankStaged p c vc).get (.pllc k) = c.pllc k :=
  ⟨Field.get_clear _ _ _ (BitVec.and_not_self _), rfl, rfl, rfl, rfl, fun k => by cases k <;> rfl⟩

/-- Settles O37: steps that complete have both calibrations, and fold to the staged registers. -/
theorem stagedBeforeReset : Obligations.StagedBeforeReset := by
  intro s t b vc hlaid hrun hvc
  obtain ⟨haligned, -⟩ := Params.laidOut_parts hlaid
  obtain ⟨vcM, vcP, hM, hP⟩ := calibrations_of_staged hlaid hrun
  obtain ⟨t', hrun', heffect⟩ := runStates_effect (qs := [.s2, .s3, .s4, .s5]) haligned
    (fun q _ => program_no_divide hM hP q) rfl rfl
  cases hrun.symm.trans hrun'
  rw [heffect.regs, stagedStates_regs s.regs hM hP]
  have hgates : ∀ g, (stagedEnd s.params s.cfg vcM vcP s.regs).get (.gate g) = s.cfg.gates.get g := fun _ => rfl
  cases b with
  | M =>
    obtain rfl : vcM = vc := Option.some.inj (hM.symm.trans hvc)
    obtain ⟨hrst, hbypass, hcal, hpllm, hfdbck, hslices⟩ := bankStaged_get s.params s.cfg.main vcM
    exact ⟨hrst, hbypass, hcal, hpllm, hfdbck, hslices, hgates⟩
  | P =>
    obtain rfl : vcP = vc := Option.some.inj (hP.symm.trans hvc)
    obtain ⟨hrst, hbypass, hcal, hpllm, hfdbck, hslices⟩ := bankStaged_get s.params s.cfg.peri vcP
    exact ⟨hrst, hbypass, hcal, hpllm, hfdbck, hslices, hgates⟩

/-! ### Banks that run (R44, R47) -/

/-- PD and RST are one-bit fields that fit (D3, R29). -/
theorem pdrst_oneBit {p : Params} (h : p.laidOut = true) :
    (p.fields.pd.fits = true ∧ p.fields.pd.width = 1) ∧ p.fields.rst.fits = true ∧ p.fields.rst.width = 1 := by
  obtain ⟨-, hglob⟩ := Params.laidOut_fields h
  obtain ⟨hfits, -⟩ := fieldsOk_iff.mp hglob
  obtain ⟨-, -, -, hwidths⟩ := Params.laidOut_parts h
  simp only [Params.widthsOk, Bool.and_eq_true, List.all_eq_true] at hwidths
  obtain ⟨⟨⟨hone, -⟩, -⟩, -⟩ := hwidths
  have hwidth := fun f hf => beq_iff_eq.mp (hone f hf)
  exact ⟨⟨hfits _ (by simp), hwidth _ (by simp)⟩, hfits _ (by simp), hwidth _ (by simp)⟩

/-- A bank with PD and RST set and its bypass clear runs, as far as its registers say (R44). -/
theorem runningRegs_of_regs {t : State} {b : Bank} {g : Word} (hlaid : t.params.laidOut = true)
    (hglob : t.regs.get (.bank b .pllglob) = g ||| pdrst t.params) (hbypass : t.regs.get (.bank b .bypass) = 0) :
    t.runningRegs b := by
  obtain ⟨⟨hpdFits, hpdWidth⟩, hrstFits, hrstWidth⟩ := pdrst_oneBit hlaid
  obtain ⟨hpd, hrst⟩ := pd_rst_sub_pdrst t.params
  refine ⟨?_, ?_, hbypass⟩
  · rw [hglob, Field.get_set_one hpdFits hpdWidth _ _ hpd]
  · rw [hglob, Field.get_set_one hrstFits hrstWidth _ _ hrst]

/-- Settles O38: a run that ends at `DONE` with no fault completed its path, and either path's end state has both banks
running. -/
theorem banksRunAtTheEnd : Obligations.BanksRunAtTheEnd := by
  intro s t mode stage b hlaid hfault ht hnone hdone
  obtain ⟨hparams, -⟩ := exec_inputs ht
  have hlaid' : t.params.laidOut = true := by rwa [hparams]
  cases mode with
  | emulation =>
    obtain ⟨v, hexec, hregs, -⟩ := emulationEndState s stage hlaid
    cases hexec.symm.trans ht
    cases b with
    | M => exact runningRegs_of_regs (g := s.regs.main.pllglob) hlaid' (by rw [hregs, hparams]; rfl) (by rw [hregs]; rfl)
    | P => exact runningRegs_of_regs (g := s.regs.peri.pllglob) hlaid' (by rw [hregs, hparams]; rfl) (by rw [hregs]; rfl)
  | real =>
    rcases goesOn_or_skips s stage with hgo | ⟨rfl, hboot⟩
    · rcases calibrations_cases s.params s.cfg with hcut | ⟨vcM, vcP, hM, hP⟩
      · obtain ⟨pre, post, hprog, hpre⟩ := program_s4_cut hcut
        obtain ⟨v, hexec, hrecord, -⟩ := exec_bringup_divides hlaid hgo hprog hpre
        cases hexec.symm.trans ht
        cases hrecord.symm.trans hnone
      · obtain ⟨hregs, -⟩ := realPathEndState s t stage vcM vcP hlaid hgo hM hP ht
        cases b with
        | M => exact runningRegs_of_regs hlaid' (by rw [hregs, hparams]; rfl) (by rw [hregs]; rfl)
        | P => exact runningRegs_of_regs hlaid' (by rw [hregs, hparams]; rfl) (by rw [hregs]; rfl)
    · cases (exec_bringup_later_skips hboot).symm.trans ht
      cases hdone

end Sys2Proof.Machine
end

section
/-!
An emulation bring-up whose waits are met at once, transaction by transaction (R131, R171 to R174).
-/

namespace Sys2Proof.Machine

open Sys2Proof

/-- `s` in an emulation run: `n` draws taken, storage registers `f`, bus log `l`, at micro-step `u` of `q`. -/
def State.ran (s : State) (n : Nat) (f : StoreFile) (l : List Txn) (q : SeqState) (u : Nat) : State :=
  { s.skip n with regs := f, bus := l, seq := q, u := u, diag := [] }

theorem ran_start (s : State) : { s with diag := [] } = s.ran 0 s.regs s.bus s.seq s.u := by
  simp [State.ran]

theorem ran_at (s : State) (n : Nat) (f : StoreFile) (l : List Txn) (q q' : SeqState) (u u' : Nat) :
    (s.ran n f l q u).at q' u' = s.ran n f l q' u' := rfl

@[simp] theorem ran_params (s : State) (n : Nat) (f : StoreFile) (l : List Txn) (q : SeqState) (u : Nat) :
    (s.ran n f l q u).params = s.params := rfl
@[simp] theorem ran_seq (s : State) (n : Nat) (f : StoreFile) (l : List Txn) (q : SeqState) (u : Nat) :
    (s.ran n f l q u).seq = q := rfl

section
variable {s : State} (haligned : s.params.offsetsAligned = true) (n : Nat) (f : StoreFile) (l : List Txn)
  (q : SeqState) (u : Nat)
include haligned

/-- SETBITS of a storage register: a read and a write (R122). -/
theorem ran_setBits (r : StoreReg) (m : Word) :
    (s.ran n f l q u).runOp (.setBits r m) = .ok ()
      (s.ran n (f.set r (f.get r ||| m))
        (.write (s.addrOf (.store r)) (f.get r ||| m) :: .read (s.addrOf (.store r)) (f.get r) :: l) q u) :=
  guarded_ok (s := s.ran n f l q u) haligned fun s => s.setMask (.store r) m

/-- A wait met at its first read (R124, R133). -/
theorem ran_waitStat {wantSet : Bool} {m : Word} (what : Wait)
    (h : s.drawAt n &&& m = if wantSet then m else 0) :
    (s.ran n f l q u).waitStat wantSet m what =
      .ok () (s.ran (n + 1) f (.read (s.addrOf .stat) (s.drawAt n) :: l) q u) := by
  have hfirst : (s.ran n f l q u).drawAt 0 = s.drawAt n := drawAt_skip s n 0
  have hskip : (s.ran n f l q u).skip 1 = s.ran (n + 1) f l q u := by
    have h2 := skip_skip s n 1
    simp only [State.skip, State.mk.injEq] at h2 ⊢
    simp_all [State.ran, State.skip]
  have hmet : senseMet wantSet m ((s.ran n f l q u).drawAt 0) = true := by rwa [hfirst, senseMet_iff]
  have hpoll := poll_drawn_ok (s := s.ran n f l q u) (drawnReg_stat _) (ok := senseMet wantSet m)
    (show 0 < waitBudget by decide) (by simp) hmet
  rw [waitStat_eq (s := s.ran n f l q u) haligned, hpoll, ← afterReads_succ, afterReads_zero, hskip, hfirst]
  rfl

theorem ran_lockWait (h : s.drawAt n &&& lockedMask s.params = lockedMask s.params) :
    (s.ran n f l q u).runOp .lockWait = .ok () (s.ran (n + 1) f (.read (s.addrOf .stat) (s.drawAt n) :: l) q u) :=
  ran_waitStat haligned n f l q u .lockWait h

/-- A bypass write and its busy-wait, met at its first read (R131). -/
theorem ran_writeBypass (b : Bank) (v : Word) (h : s.drawAt n &&& busyMask s.params = 0) :
    (s.ran n f l q u).writeBypass b v = .ok ()
      (s.ran (n + 1) (f.set (.bank b .bypass) v)
        (.read (s.addrOf .stat) (s.drawAt n) :: .write (s.addrOf (.store (.bank b .bypass))) v :: l) q u) :=
  ran_waitStat haligned n (f.set (.bank b .bypass) v) (.write (s.addrOf (.store (.bank b .bypass))) v :: l) q u
    .busyWait h

theorem ran_forceBypass (b : Bank) (h : s.drawAt n &&& busyMask s.params = 0) :
    (s.ran n f l q u).runOp (.forceBypass b) = .ok ()
      (s.ran (n + 1) (f.set (.bank b .bypass) s.params.bypassAll)
        (.read (s.addrOf .stat) (s.drawAt n) :: .write (s.addrOf (.store (.bank b .bypass))) s.params.bypassAll :: l)
        q u) :=
  ran_writeBypass haligned n f l q u b _ h

theorem ran_clearBypass (b : Bank) (h : s.drawAt n &&& busyMask s.params = 0) :
    (s.ran n f l q u).runOp (.clearBypass b) = .ok ()
      (s.ran (n + 1) (f.set (.bank b .bypass) 0)
        (.read (s.addrOf .stat) (s.drawAt n) :: .write (s.addrOf (.store (.bank b .bypass))) 0 :: l) q u) :=
  ran_writeBypass haligned n f l q u b 0 h

end

/-- Settles O34: each operation is one of those above, and the draws meet the lock wait first, then the four busy
waits. -/
theorem emulationTransactions : Obligations.EmulationTransactions := by
  unfold Obligations.EmulationTransactions
  intro s stage hlaid hlock hbusy
  obtain ⟨haligned, -⟩ := Params.laidOut_parts hlaid
  have hlocked : s.drawAt 0 &&& lockedMask s.params = lockedMask s.params := hlock
  have hM1 : s.drawAt 1 &&& busyMask s.params = 0 := hbusy 1 (by decide) (by decide)
  have hP1 : s.drawAt 2 &&& busyMask s.params = 0 := hbusy 2 (by decide) (by decide)
  have hM0 : s.drawAt 3 &&& busyMask s.params = 0 := hbusy 3 (by decide) (by decide)
  have hP0 : s.drawAt 4 &&& busyMask s.params = 0 := hbusy 4 (by decide) (by decide)
  have hrun := calc runStates emulationPath { s with diag := [] }
    _ = .ok () _ := by
      simp only [ran_start, emulationPath, runStates, program, runOps, ran_at, ran_params, ran_seq, Res.bind, SeqOp.microSteps,
        Nat.reduceAdd, ran_setBits haligned, ran_lockWait haligned _ _ _ _ _ hlocked, ran_forceBypass haligned,
        ran_clearBypass haligned, hM1, hP1, hM0, hP0]
      rfl
  exact exec_bringup_emulation stage hrun

end Sys2Proof.Machine
end

section
/-!
Determinism of a bring-up (R198): the registers the sequencer reads back are its own writes, so what it leaves of them
is a function of the inputs and the registers it started from.
-/

namespace Sys2Proof.Machine

open Sys2Proof

/-! ### What determinism speaks of -/

/-- The part of a state that a bring-up determines: its inputs, the storage registers, the sequencer and the fault. -/
structure Seen where
  params : Params
  cfg : BringUpConfig
  regs : StoreFile
  seq : SeqState
  u : Nat
  fault : Option FaultRecord

def State.seen (s : State) : Seen := ⟨s.params, s.cfg, s.regs, s.seq, s.u, s.fault⟩

/-- A part of a command as far as it is determined: its value or its fault, and what is seen of its state. -/
def Res.seen {α : Type} : Res α → Except FaultKind α × Seen
  | .ok a s => (.ok a, s.seen)
  | .fault k s => (.error k, s.seen)

/-- An access of a register: only the storage registers can be another. -/
theorem Keeps.seen {s t : State} (h : Keeps s t) : t.seen = { s.seen with regs := t.regs } := by
  simp only [State.seen, h.params, h.cfg, h.seq, h.u, h.fault]

theorem Keeps.seen_of_regs {s t : State} (h : Keeps s t) (hr : t.regs = s.regs) : t.seen = s.seen := by
  rw [h.seen, hr]
  rfl

theorem seen_at {s s' : State} (h : s.seen = s'.seen) (q : SeqState) (u : Nat) : (s.at q u).seen = (s'.at q u).seen :=
  congrArg (fun v : Seen => { v with seq := q, u := u }) h

/-- Both parts end alike, and what follows runs alike from states that are seen alike. -/
theorem Res.bind_seen {α β : Type} {x x' : Res α} {f f' : α → State → Res β} (h : x.seen = x'.seen)
    (hf : ∀ a s s', s.seen = s'.seen → (f a s).seen = (f' a s').seen) : (x.bind f).seen = (x'.bind f').seen := by
  cases x <;> cases x' <;> simp only [Res.seen, Prod.mk.injEq, Except.ok.injEq, Except.error.injEq, reduceCtorEq,
    false_and] at h
  case ok.ok a s a' s' =>
    obtain ⟨rfl, hs⟩ := h
    exact hf a s s' hs
  case fault.fault k s k' s' =>
    obtain ⟨rfl, hs⟩ := h
    simp only [Res.bind, Res.seen, hs]

/-! ### The operations (R171 to R195) -/

/-- Whether an access of `r` in the sequencer raises InvalidOffset (R75). -/
def Seen.check (v : Seen) (r : Reg) : Except FaultKind Unit :=
  if aligned (v.params.offset r) then .ok () else .error .invalidOffset

theorem guarded_seen (s : State) (r : Reg) (f : State → State) (g : Seen → Seen) (h : (f s).seen = g s.seen) :
    (s.guarded r f).seen = (s.seen.check r, if aligned (s.seen.params.offset r) then g s.seen else s.seen) := by
  have hoff : s.seen.params.offset r = s.params.offset r := rfl
  unfold State.guarded Seen.check
  rw [hoff]
  split
  · exact Prod.ext rfl h
  · rfl

theorem setMask_seen (s : State) (r : StoreReg) (m : Word) :
    (s.guarded (.store r) fun s => s.setMask (.store r) m).seen =
      (s.seen.check (.store r), if aligned (s.seen.params.offset (.store r)) then
        { s.seen with regs := s.seen.regs.set r (s.seen.regs.get r ||| m) } else s.seen) :=
  guarded_seen s (.store r) _ (fun v => { v with regs := v.regs.set r (v.regs.get r ||| m) }) rfl

theorem clearMask_seen (s : State) (r : StoreReg) (m : Word) :
    (s.guarded (.store r) fun s => s.clearMask (.store r) m).seen =
      (s.seen.check (.store r), if aligned (s.seen.params.offset (.store r)) then
        { s.seen with regs := s.seen.regs.set r (s.seen.regs.get r &&& ~~~ m) } else s.seen) :=
  guarded_seen s (.store r) _ (fun v => { v with regs := v.regs.set r (v.regs.get r &&& ~~~ m) }) rfl

/-- A wait is seen only by the check of its register: a Timeout is noted, and the path goes on (R196). -/
theorem waitStat_seen (s : State) (wantSet : Bool) (m : Word) (what : Wait) :
    (s.waitStat wantSet m what).seen = (s.seen.check .stat, s.seen) := by
  have hpoll := (poll_keeps .stat (senseMet wantSet m) waitBudget s).seen_of_regs (poll_regs ..)
  unfold State.waitStat
  refine (guarded_seen s .stat _ id ?_).trans (by rw [id, ite_self])
  generalize State.poll .stat (senseMet wantSet m) waitBudget s = x at hpoll
  obtain ⟨_ | _, t⟩ := x <;> exact hpoll

theorem writeBypass_seen (s : State) (b : Bank) (v : Word) :
    (s.writeBypass b v).seen = (s.seen.check .stat, { s.seen with regs := s.seen.regs.set (.bank b .bypass) v }) := by
  rw [show s.writeBypass b v = (s.writeReg (.store (.bank b .bypass)) v).waitStat _ _ _ from rfl, waitStat_seen]
  rfl

/-- A latch is not a storage register (R175). -/
theorem clearLatch_seen (s : State) {r : Reg} (m : Word) (hr : r.cls ≠ .storage) :
    (s.clearLatch r m).seen =
      (match s.seen.params.latchClr with | .w1c => .ok () | .clrbits => s.seen.check r, s.seen) := by
  have hw1c : (s.writeReg r m).seen = s.seen := (writeReg_keeps ..).seen_of_regs (writeReg_regs_of_ne _ _ hr)
  have hclr : (s.clearMask r m).seen = s.seen :=
    (clearMask_keeps ..).seen_of_regs (by rw [clearMask_eq, writeReg_regs_of_ne _ _ hr, readReg_regs])
  have hparams : s.seen.params.latchClr = s.params.latchClr := rfl
  unfold State.clearLatch
  rw [hparams]
  cases s.params.latchClr with
  | w1c => exact Prod.ext rfl hw1c
  | clrbits => exact (guarded_seen s r (fun s => s.clearMask r m) id hclr).trans (by rw [id, ite_self])

/-- A calibration table in a bring-up: its Timeout is noted, and the run goes on (R186, R187). -/
theorem runOp_calTable (s : State) (b : Bank) :
    s.runOp (.calTable b) =
      .ok () (if (s.applyCal b).1 then (s.applyCal b).2 else (s.applyCal b).2.note (.applyCaltable b)) := by
  simp only [State.runOp]
  obtain ⟨_ | _, t⟩ := s.applyCal b <;> rfl

/-- A calibration table touches the membus side alone, in time or not (R71, R187). -/
theorem calTable_seen (s : State) (b : Bank) : (s.runOp (.calTable b)).seen = (.ok (), s.seen) := by
  have hcal := applyCal_onlyBank s b
  have hseen := hcal.toKeeps.seen_of_regs hcal.regs
  rw [runOp_calTable]
  split <;> exact congrArg (Prod.mk (Except.ok ())) hseen

/-- An operation from states seen alike ends alike: its end is a function of what is seen. -/
theorem runOp_seen {s s' : State} (h : s.seen = s'.seen) (op : SeqOp) : (s.runOp op).seen = (s'.runOp op).seen := by
  have hparams : s.params = s'.params := congrArg Seen.params h
  cases op with
  | write r v => exact congrArg (fun v' : Seen => (Except.ok (), { v' with regs := v'.regs.set r v })) h
  | setBits r m => simp only [State.runOp, setMask_seen, h]
  | clrBits r m => simp only [State.runOp, clearMask_seen, h]
  | busyWait => simp only [State.runOp, State.busyWait, waitStat_seen, h]
  | lockWait => simp only [State.runOp, State.lockWait, waitStat_seen, h]
  | forceBypass b => simp only [State.runOp, writeBypass_seen, hparams, h]
  | clearBypass b => simp only [State.runOp, writeBypass_seen, h]
  | clearLostLock b => simp only [State.runOp, clearLatch_seen (r := .lostlock b) _ _ (by simp [Reg.cls]), h]
  | clearIntr => simp only [State.runOp, clearLatch_seen (r := .intr) _ _ (by simp [Reg.cls]), h]
  | calTable b => rw [calTable_seen, calTable_seen, h]
  | editCtrl e =>
    exact congrArg (fun v : Seen =>
      (Except.ok (), { v with u := v.u + 1, regs := v.regs.set .ctrl (e.apply v.params (v.regs.get .ctrl)) })) h
  | divideByZero => exact congrArg (Prod.mk (Except.error FaultKind.divideByZero)) h

/-! ### The sequence (R170) -/

theorem runOps_seen (ops : List SeqOp) (u : Nat) {s s' : State} (h : s.seen = s'.seen) :
    (runOps ops u s).seen = (runOps ops u s').seen := by
  induction ops generalizing u s s' with
  | nil => exact congrArg (Prod.mk (Except.ok ())) h
  | cons op ops ih =>
    have hop : (s.at s.seq u).seen = (s'.at s'.seq u).seen := by
      have hseq : s.seq = s'.seq := congrArg Seen.seq h
      rw [hseq]
      exact seen_at h _ u
    unfold runOps
    exact Res.bind_seen (runOp_seen hop op) fun _ _ _ hs => ih _ hs

theorem runStates_seen (qs : List SeqState) {s s' : State} (h : s.seen = s'.seen) :
    (runStates qs s).seen = (runStates qs s').seen := by
  induction qs generalizing s s' with
  | nil => exact congrArg (Prod.mk (Except.ok ())) h
  | cons q qs ih =>
    have hparams : s.params = s'.params := congrArg Seen.params h
    have hcfg : s.cfg = s'.cfg := congrArg Seen.cfg h
    unfold runStates
    rw [hparams, hcfg]
    exact Res.bind_seen (runOps_seen _ 0 (seen_at h q 0)) fun _ _ _ hs => ih hs

theorem bringupDone_seen {x x' : Res Unit} (h : x.seen = x'.seen) : (bringupDone x).seen = (bringupDone x').seen :=
  Res.bind_seen h fun _ _ _ hs => congrArg (Prod.mk (Except.ok Result.unit)) (seen_at hs .done 0)

/-- A path starts at the first micro-step of its first state, wherever the sequencer stood (R46, R170). -/
theorem runStates_cons_seen (q : SeqState) (qs : List SeqState) {s s' : State}
    (h : (s.at .idle 0).seen = (s'.at .idle 0).seen) :
    (runStates (q :: qs) s).seen = (runStates (q :: qs) s').seen := by
  have hstart (s : State) : runStates (q :: qs) (s.at q 0) = runStates (q :: qs) s := rfl
  rw [← hstart s, ← hstart s']
  exact runStates_seen _ (seen_at h q 0)

/-- A bring-up from states seen alike ends alike, wherever their sequencers stood: a later stage reads the same CTRL and
takes the same branch (R176). -/
theorem bringup_seen {s s' : State} (h : (s.at .idle 0).seen = (s'.at .idle 0).seen) (mode : Mode) (stage : Stage) :
    (s.bringup mode stage).seen = (s'.bringup mode stage).seen := by
  have hstart : ({ s.at .idle 0 with diag := [] } : State).seen = ({ s'.at .idle 0 with diag := [] } : State).seen := h
  have hchecked : s.ctrlChecked.seen = s'.ctrlChecked.seen := seen_at h .s1 0
  have hparams : s.params = s'.params := congrArg Seen.params h
  have hregs : s.regs = s'.regs := congrArg Seen.regs h
  match mode, stage with
  | .emulation, _ => exact bringupDone_seen (runStates_cons_seen .e1 _ hstart)
  | .real, .first => exact bringupDone_seen (runStates_cons_seen .s1 _ hstart)
  | .real, .later =>
    rw [bringup_later, bringup_later, hparams, hregs]
    split
    · exact congrArg (Prod.mk (Except.ok Result.unit)) (seen_at hchecked .skipped 0)
    · exact bringupDone_seen (runStates_seen _ hchecked)

/-- A command's end is seen in its result and in the state it leaves (R264, R267). -/
theorem final_seen {x x' : Res Result} (h : x.seen = x'.seen) (w : Word) :
    (x.final w).result = (x'.final w).result ∧ (x.final w).seen = (x'.final w).seen := by
  cases x <;> cases x' <;> simp only [Res.seen, Prod.mk.injEq, Except.ok.injEq, Except.error.injEq, reduceCtorEq,
    false_and] at h
  case ok.ok r s r' s' =>
    obtain ⟨rfl, hs⟩ := h
    exact ⟨rfl, hs⟩
  case fault.fault k s k' s' =>
    obtain ⟨rfl, hs⟩ := h
    exact ⟨rfl, congrArg (fun v : Seen => { v with fault := some ⟨k, w, v.seq, v.u⟩ }) hs⟩

/-- Settles O35: what the statement compares is seen, and so is all that a bring-up reads. -/
theorem bringupIsDeterministic : Obligations.BringupIsDeterministic := by
  unfold Obligations.BringupIsDeterministic
  intro s s' t t' mode stage hparams hcfg hregs hfault hs hs'
  obtain rfl : (s.bringup mode stage).final _ = t := Host.Outcome.next.inj hs
  obtain rfl : (s'.bringup mode stage).final _ = t' := Host.Outcome.next.inj hs'
  have hseen : (s.at .idle 0).seen = (s'.at .idle 0).seen := by
    simp only [State.seen, State.at_params, State.at_cfg, State.at_regs, State.at_seq, State.at_u, State.at_fault,
      hparams, hcfg, hregs, hfault]
  obtain ⟨hresult, hfinal⟩ := final_seen (bringup_seen hseen mode stage) (Instr.bringup mode stage).cmdWord
  simp only [State.seen, Seen.mk.injEq] at hfinal
  obtain ⟨-, -, hr, hq, hu, hf⟩ := hfinal
  exact ⟨hr.symm, hq.symm, hu.symm, hresult.symm, hf.symm⟩

end Sys2Proof.Machine
end

section
/-!
Step 7 of a bring-up: APPLY_CALTABLE of each bank (R186, R187).
-/

namespace Sys2Proof.Machine

open Sys2Proof

/-! ### One calibration table in a bring-up -/

/-- The state APPLY_CALTABLE leaves (R144). -/
def State.tableEnd (s : State) (b : Bank) : State := (s.applyCal b).2.returns (okOrTimeout (s.applyCal b).1)

theorem exec_applyCaltable_tableEnd (s : State) (b : Bank) :
    exec (.applyCaltable b) s = .next (s.tableEnd b) := exec_applyCaltable b s

theorem tableEnd_seq (s : State) (b : Bank) : (s.tableEnd b).seq = s.seq := (applyCal_onlyBank s b).seq

/-- What a run notes of a table that ended in `t` at micro-step `u` of step 7 (R48, R187). -/
def tableNote (u : Nat) (b : Bank) (t : State) : List DiagEntry :=
  if t.result = some (.err .timeout) then [⟨.s7, u, .applyCaltable b⟩] else []

/-- A table in step 7 is the command, its result kept back and its Timeout noted (R186, R187). -/
theorem runOp_calTable_tableEnd {s : State} (hseq : s.seq = .s7) (b : Bank) :
    s.runOp (.calTable b) =
      .ok () { s.tableEnd b with result := s.result, diag := s.diag ++ tableNote s.u b (s.tableEnd b) } := by
  have hcal := applyCal_onlyBank s b
  rw [runOp_calTable]
  unfold State.tableEnd tableNote
  generalize s.applyCal b = x at hcal
  rw [← hcal.diag, ← hcal.u, ← hcal.result, ← hseq, ← hcal.seq]
  obtain ⟨_ | _, t⟩ := x
  · rfl
  · simp [okOrTimeout, State.returns]

/-! ### The two tables -/

/-- Where the second table of step 7 starts. -/
def State.tablesMid (s : State) : State :=
  { (s.at .s7 0).tableEnd .M with
    result := s.result
    u := 1
    diag := s.diag ++ tableNote 0 .M ((s.at .s7 0).tableEnd .M) }

/-- Where step 7 ends. -/
def State.tablesEnd (s : State) : State :=
  { s.tablesMid.tableEnd .P with
    result := s.result
    diag := s.tablesMid.diag ++ tableNote 1 .P (s.tablesMid.tableEnd .P) }

theorem tablesMid_seq (s : State) : s.tablesMid.seq = .s7 := tableEnd_seq (s.at .s7 0) .M

theorem runStates_s7 (s : State) (rest : List SeqState) :
    runStates (.s7 :: rest) s = runStates rest s.tablesEnd := by
  have hM := runOp_calTable_tableEnd (s := s.at .s7 0) rfl .M
  have hP := runOp_calTable_tableEnd (tablesMid_seq s) .P
  calc runStates (.s7 :: rest) s
    _ = (((s.at .s7 0).runOp (.calTable .M)).bind fun _ t => runOps [.calTable .P] 1 t).bind
          fun _ t => runStates rest t := rfl
    _ = ((s.tablesMid.runOp (.calTable .P)).bind fun _ t => .ok () t).bind fun _ t => runStates rest t := by
      rw [hM]
      rfl
    _ = runStates rest s.tablesEnd := by
      rw [hP]
      rfl

/-- Settles O57. -/
theorem stepSevenAppliesBothTables : Obligations.StepSevenAppliesBothTables := fun s =>
  ⟨_, _, exec_applyCaltable_tableEnd _ .M, exec_applyCaltable_tableEnd s.tablesMid .P, runStates_s7 s⟩

end Sys2Proof.Machine
end

section
/-!
The membus sides of a real-path bring-up: step 7 alone touches them (R186, R187, R196).
-/

namespace Sys2Proof.Machine

open Sys2Proof

/-! ### The states but step 7 -/

/-- The states of the real path before step 7 (R170). -/
def beforeTables : Stage → List SeqState
  | .first => [.s1, .s2, .s3, .s4, .s5, .s6]
  | .later => [.s2, .s3, .s4, .s5, .s6]

/-- The states of the real path after step 7 (R170). -/
def afterTables : List SeqState := [.s8, .s9, .s10, .s11, .s12, .s13, .s14]

theorem realStates_split (stage : Stage) : realStates stage = beforeTables stage ++ .s7 :: afterTables := by
  cases stage <;> rfl

theorem s7_notMem_beforeTables (stage : Stage) : .s7 ∉ beforeTables stage := by cases stage <;> decide

theorem s7_notMem_afterTables : .s7 ∉ afterTables := by decide

/-- Step 7 alone runs APPLY_CALTABLE (R186). -/
theorem calTable_notMem_program {p : Params} {c : BringUpConfig} {q : SeqState} (hq : q ≠ .s7) (b : Bank) :
    ∀ op ∈ program p c q, op ≠ .calTable b := by
  cases q with
  | s7 => exact absurd rfl hq
  | s4 =>
    simp only [program, stageBank]
    cases vcoWord p (c.bank .M).pllm (c.bank .M).pllglob <;> cases vcoWord p (c.bank .P).pllm (c.bank .P).pllglob <;>
      simp [allSlices]
  | _ => simp [program, allSlices]

/-- A note names the state it was made in (R48). -/
theorem seq_of_mem_notes {q : SeqState} {ops : List SeqOp} {u : Nat} {e : DiagEntry} (h : e ∈ notes q ops u) :
    e.seq = q := by
  induction ops generalizing u with
  | nil => simp [notes] at h
  | cons op ops ih =>
    rcases List.mem_append.mp h with h | h
    · obtain ⟨w, -, rfl⟩ := List.mem_map.mp h
      rfl
    · exact ih h

/-- What a run that applies no calibration table leaves alone. -/
structure NoTables (s t : State) : Prop where
  params : t.params = s.params
  cfg : t.cfg = s.cfg
  chan : ∀ b, t.chan b = s.chan b
  diag : ∃ l, t.diag = s.diag ++ l ∧ ∀ e ∈ l, e.seq ≠ .s7

theorem runStates_noTables {qs : List SeqState} {s : State} {vcM vcP : Word} (hs7 : .s7 ∉ qs)
    (haligned : s.params.offsetsAligned = true)
    (hM : vcoWord s.params s.cfg.main.pllm s.cfg.main.pllglob = some vcM)
    (hP : vcoWord s.params s.cfg.peri.pllm s.cfg.peri.pllglob = some vcP) :
    ∃ t, runStates qs s = .ok () t ∧ NoTables s t := by
  have hdivide : ∀ q ∈ qs, ∀ op ∈ program s.params s.cfg q, op ≠ .divideByZero := fun q _ =>
    program_no_divide hM hP q
  have hne (q : SeqState) (hq : q ∈ qs) : q ≠ .s7 := fun h => hs7 (h ▸ hq)
  obtain ⟨t, hrun, heffect⟩ := runStates_effect haligned hdivide rfl rfl
  obtain ⟨-, hchan⟩ := runStates_made hdivide haligned hrun
  obtain ⟨l, hl, hdiag⟩ := heffect.diag
  refine ⟨t, hrun, heffect.params, heffect.cfg, fun b => hchan b fun q hq => calTable_notMem_program (hne q hq) b,
    l, hdiag, fun e he => ?_⟩
  obtain ⟨q, hq, he⟩ := List.mem_flatMap.mp (hl.subset he)
  exact seq_of_mem_notes he ▸ hne q hq

/-! ### Step 7 -/

theorem tableEnd_params (s : State) (b : Bank) : (s.tableEnd b).params = s.params := (applyCal_onlyBank s b).params
theorem tableEnd_cfg (s : State) (b : Bank) : (s.tableEnd b).cfg = s.cfg := (applyCal_onlyBank s b).cfg

theorem tablesMid_params (s : State) : s.tablesMid.params = s.params := tableEnd_params (s.at .s7 0) .M
theorem tablesMid_cfg (s : State) : s.tablesMid.cfg = s.cfg := tableEnd_cfg (s.at .s7 0) .M
theorem tablesEnd_params (s : State) : s.tablesEnd.params = s.params :=
  (tableEnd_params s.tablesMid .P).trans (tablesMid_params s)
theorem tablesEnd_cfg (s : State) : s.tablesEnd.cfg = s.cfg := (tableEnd_cfg s.tablesMid .P).trans (tablesMid_cfg s)

theorem mem_tableNote {u : Nat} {b : Bank} {t : State} {e : DiagEntry} :
    e ∈ tableNote u b t ↔ t.result = some (.err .timeout) ∧ e = ⟨.s7, u, .applyCaltable b⟩ := by
  unfold tableNote
  split <;> simp [*]

/-- The diagnostics of a run whose other states note nothing at step 7. -/
theorem mem_diag_s7 {d l₁ l₂ n : List DiagEntry} {e : DiagEntry} (hd : d = l₁ ++ n ++ l₂) (he : e.seq = .s7)
    (h₁ : ∀ e ∈ l₁, e.seq ≠ .s7) (h₂ : ∀ e ∈ l₂, e.seq ≠ .s7) : e ∈ d ↔ e ∈ n := by
  have hn₁ : e ∉ l₁ := fun h => h₁ e h he
  have hn₂ : e ∉ l₂ := fun h => h₂ e h he
  simp [hd, hn₁, hn₂]

/-- Settles O58: the run is cut at step 7, which is the two tables. -/
theorem bringupTouchesMembusOnlyInStepSeven : Obligations.BringupTouchesMembusOnlyInStepSeven := by
  unfold Obligations.BringupTouchesMembusOnlyInStepSeven
  intro s stage hlaid hgo hdefined
  obtain ⟨haligned, -⟩ := Params.laidOut_parts hlaid
  obtain ⟨vcM, vcP, hM, hP⟩ := calibrations_defined hdefined
  obtain ⟨w, hbefore, hw⟩ := runStates_noTables (s := s.realStart stage) (s7_notMem_beforeTables stage)
    (by rwa [realStart_params]) (by rwa [realStart_params, realStart_cfg]) (by rwa [realStart_params, realStart_cfg])
  have hwparams : w.params = s.params := hw.params.trans (realStart_params ..)
  have hwcfg : w.cfg = s.cfg := hw.cfg.trans (realStart_cfg ..)
  obtain ⟨v, hafter, hv⟩ := runStates_noTables (s := w.tablesEnd) s7_notMem_afterTables
    (by rwa [tablesEnd_params, hwparams]) (by rwa [tablesEnd_params, tablesEnd_cfg, hwparams, hwcfg])
    (by rwa [tablesEnd_params, tablesEnd_cfg, hwparams, hwcfg])
  have hrun : runStates (realStates stage) (s.realStart stage) = .ok () v := by
    rw [realStates_split, runStates_append, hbefore, Res.bind_ok, runStates_s7, hafter]
  obtain ⟨l₁, hl₁, hs7₁⟩ := hw.diag
  obtain ⟨l₂, hl₂, hs7₂⟩ := hv.diag
  have hdiag : v.diag =
      l₁ ++ (tableNote 0 .M ((w.at .s7 0).tableEnd .M) ++ tableNote 1 .P (w.tablesMid.tableEnd .P)) ++ l₂ := by
    rw [hl₂, show w.tablesEnd.diag = _ ++ _ ++ _ from rfl, hl₁, realStart_diag]
    simp
  refine ⟨_, w.at .s7 0, _, w.tablesMid, _, exec_bringup_real hgo hrun, hwparams, hwcfg,
    fun b => ?_, exec_applyCaltable_tableEnd _ .M, (tablesMid_params w).trans hwparams, (tablesMid_cfg w).trans hwcfg,
    fun b => ?_, rfl, rfl, exec_applyCaltable_tableEnd _ .P, fun b => ?_,
    (mem_diag_s7 hdiag rfl hs7₁ hs7₂).trans ?_, (mem_diag_s7 hdiag rfl hs7₁ hs7₂).trans ?_⟩
  · rw [State.at_chan, hw.chan, realStart_chan]
  · cases b <;> rfl
  · rw [State.returns_chan, State.at_chan, hv.chan]
    cases b <;> rfl
  · simp [mem_tableNote]
  · simp [mem_tableNote]

end Sys2Proof.Machine
end
